-- ==== Sys2Proof/Word.lean ====
section
/-! DEFINITION. The two units of storage: a command-memory word of 16 bits (R50, R51) and a byte (R54, R55, R56). -/

namespace Sys2Proof

/-- One word of command memory; bit 0 is the least significant bit (R9, R50). -/
abbrev Word := BitVec 16

/-- One byte of videoram, of the colour PROM, of a canvas cell or of a palette component (R58). -/
abbrev Byte := BitVec 8

end Sys2Proof
end

