-- ==== Sys2Proof/Config.lean ====
section
/-! DEFINITION. What the hardware fixes and what the spec leaves open (R7): the constants, the choices a named
parameter has, the record of parameters, and the one value with no default content, the external tile source.
The default values stand in Machine/Params.lean. -/

namespace Sys2Proof

/-- `LINE_DY_MODE` (R7, R143): what "rawEndY − rawStartY + 1" subtracts. -/
inductive LineDyMode where
  | raw
  | pixel
deriving DecidableEq, Repr

/-- `UNKNOWN_TYPE_POLICY` (R7, R108): what an object of a reserved type does. -/
inductive UnknownTypePolicy where
  | fault
  | skip
deriving DecidableEq, Repr

/-- `POLY_HCLIP_MODE` (R7, R169): how a polygon span is clipped horizontally. -/
inductive PolyHClipMode where
  | clamp
  | perPixel
deriving DecidableEq, Repr

/-- `BUFSEL_POLARITY` (R7, R193): `direct` draws into `buf[bufsel]`, `swapped` into the other buffer. -/
inductive BufselPolarity where
  | direct
  | swapped
deriving DecidableEq, Repr

/-- `CANVAS_W` (R7): fixed by the source at 256 pixels, and no open point. -/
abbrev Config.canvasW : Nat := 256

/-- `XACC_WIDTH` (R7, R156, R174): the width of the X accumulators and of the line end-X sum.
DESIGN CHOICE of the spec (D3), log entry 9. -/
abbrev Config.xaccWidth : Nat := 16

/-- The walker's iteration cap (R8, R101). -/
abbrev Config.walkerCap : Nat := 2047

/-- `TILE_PEN` (R7, R234): the external tile source, from a tile code, a tile row and a tile column to a pen 0..3.
It has no default content and no body here, so no proof can see a value of it (log entry 8). -/
opaque Config.tilePen : BitVec 6 → BitVec 3 → BitVec 3 → BitVec 2

/-- The named parameters of R7 that a model may take as an argument. -/
structure Params where
  /-- `CMD_WORDS`: the number of command-memory words. -/
  cmdWords : Nat
  /-- `CANVAS_H`: the number of canvas rows. -/
  canvasH : Nat
  /-- `RAW_SIGNED`: whether the pixel transform reads a raw word as signed. -/
  rawSigned : Bool
  /-- `LINE_DY_MODE`. -/
  lineDyMode : LineDyMode
  /-- `LINE_STEPPER`: the pixels a segment from (x0, y0) to (x1, y1) visits, in order. -/
  lineStepper : Int → Int → Int → Int → List (Int × Int)
  /-- `UNKNOWN_TYPE_POLICY`. -/
  unknownTypePolicy : UnknownTypePolicy
  /-- `POLY_HCLIP_MODE`. -/
  polyHClipMode : PolyHClipMode
  /-- `BUFSEL_POLARITY`. -/
  bufselPolarity : BufselPolarity
  /-- `ALPHA_BANK`: from the alphamap byte to the bits OR-ed into a character colour. -/
  alphaBank : Byte → Byte
  /-- `TILE_PEN`. -/
  tilePen : BitVec 6 → BitVec 3 → BitVec 3 → BitVec 2
  /-- `TILE_OUT`: from a character colour and a pen to the output index. -/
  tileOut : Byte → BitVec 2 → Byte

end Sys2Proof
end

