-- ==== Sys2Proof/Syntax.lean ====
section
/-! DEFINITION. The instructions: one constructor for each row of spec/opcode_table.json. A display-list record
carries the fields of its words (R71 to R77), the ignored bits of R84 among them; a host operation carries its
operands as the integers the host sends (R86, R272). -/

namespace Sys2Proof

/-- One row of the opcode table each. In an object table entry `ign` is bit 11 (ignored, D8) and `addr` bits 10:0. -/
inductive Instr where
  /-- Table terminator, the word 0xFFFF (R103). -/
  | objEnd
  /-- Type 0x4 (R106). -/
  | objPolygon (ign : BitVec 1) (addr : BitVec 11)
  /-- Type 0x8 (R105). -/
  | objPoint (ign : BitVec 1) (addr : BitVec 11)
  /-- Type 0xC (R107). -/
  | objVector (ign : BitVec 1) (addr : BitVec 11)
  /-- Reserved type 0x0 (R108). -/
  | objReserved0 (ign : BitVec 1) (addr : BitVec 11)
  /-- Reserved type 0x1 (R108). -/
  | objReserved1 (ign : BitVec 1) (addr : BitVec 11)
  /-- Reserved type 0x2 (R108). -/
  | objReserved2 (ign : BitVec 1) (addr : BitVec 11)
  /-- Reserved type 0x3 (R108). -/
  | objReserved3 (ign : BitVec 1) (addr : BitVec 11)
  /-- Reserved type 0x5 (R108). -/
  | objReserved5 (ign : BitVec 1) (addr : BitVec 11)
  /-- Reserved type 0x6 (R108). -/
  | objReserved6 (ign : BitVec 1) (addr : BitVec 11)
  /-- Reserved type 0x7 (R108). -/
  | objReserved7 (ign : BitVec 1) (addr : BitVec 11)
  /-- Reserved type 0x9 (R108). -/
  | objReserved9 (ign : BitVec 1) (addr : BitVec 11)
  /-- Reserved type 0xA (R108). -/
  | objReservedA (ign : BitVec 1) (addr : BitVec 11)
  /-- Reserved type 0xB (R108). -/
  | objReservedB (ign : BitVec 1) (addr : BitVec 11)
  /-- Reserved type 0xD (R108). -/
  | objReservedD (ign : BitVec 1) (addr : BitVec 11)
  /-- Reserved type 0xE (R108). -/
  | objReservedE (ign : BitVec 1) (addr : BitVec 11)
  /-- Reserved type 0xF (R108). -/
  | objReservedF (ign : BitVec 1) (addr : BitVec 11)
  /-- Point list terminator, the word 0xFFFF (R121). -/
  | ptEnd
  /-- Point pair: `x` of format C, `yc` of format YC (R74, R122). -/
  | ptPair (x yc : Word)
  /-- Vector list terminator, the word 0xFFFF (R141). -/
  | vecEnd
  /-- Vector record: `ey`, `syc`, `slope`, `sx` (R75, R142). -/
  | vecSeg (ey syc slope sx : Word)
  /-- Polygon header: bits 15:11 and 10:0 of word 0, then words 1 to 3 (R76, R160). -/
  | polyHdr (ign : BitVec 5) (sec : BitVec 11) (x1 x2 syc : Word)
  /-- Edge list terminator, the pair (0xFFFF, 0xFFFF) (R166). -/
  | edgeEnd
  /-- Edge segment: `slope`, `endY` (R77, R167). -/
  | edgeSeg (slope endY : Word)
  /-- `TRIGGER_RUN()` (R100). -/
  | triggerRun
  /-- `CLEAR_BUFFER(which)` (R190). -/
  | clearBuffer (which : Int)
  /-- `SET_CLIP(xmin, ymin, xmax, ymax)` (R194). -/
  | setClip (xmin ymin xmax ymax : Int)
  /-- `RENDERED_SCANLINE(y)` (R195). -/
  | renderedScanline (y : Int)
  /-- `BUILD_STATIC_PALETTE()` (R210). -/
  | buildStaticPalette
  /-- `PALETTE_WRITE(offset, data)` (R213). -/
  | paletteWrite (offset data : Int)
  /-- `PALETTE_COLOR(index)` (R215). -/
  | paletteColor (index : Int)
  /-- `COMPOSITE_SCANLINE(y)` (R230). -/
  | compositeScanline (y : Int)
  /-- `HOST_WRITE_CMD(i, w)` (R250). -/
  | hostWriteCmd (idx w : Int)
  /-- `HOST_WRITE_VRAM(i, b)` (R251). -/
  | hostWriteVram (idx b : Int)
  /-- `HOST_SET_BUFSEL(v)` (R252). -/
  | hostSetBufsel (v : Int)
  /-- `HOST_SET_ALPHAMAP(v)` (R253). -/
  | hostSetAlphamap (v : Int)
deriving DecidableEq, Repr

end Sys2Proof
end

