-- ==== Sys2Proof/Machine/State.lean ====
section
/-! DEFINITION. The state of the machine as plain data (R20 to R35), the faults it records (R271), the refusals
(R272), and the state at start-up (R35). -/

namespace Sys2Proof.Machine

/-- Storage by index: pairs of an index and a value. Canonical form: indices strictly rising, and no entry equal to
what an unlisted index reads as (`Memory.wf`, log entries 6 and 10). -/
abbrev Store (α : Type) := List (Nat × α)

/-- One palette entry (R30). -/
structure Rgb where
  r : Byte
  g : Byte
  b : Byte
deriving DecidableEq, Repr

/-- A clip rectangle: inclusive bounds (R26). -/
structure Clip where
  xmin : Int
  ymin : Int
  xmax : Int
  ymax : Int
deriving DecidableEq, Repr

/-- One canvas buffer (R24): the cell at row y, column x has the index `256 * y + x`. A listed cell holds the listed
value. An unlisted cell holds 0 when `full` says that every cell holds a value, and no value otherwise. -/
structure Canvas where
  full : Bool
  cells : List Host.Cell
deriving DecidableEq, Repr

/-- An edge's current segment (R161, R165). -/
structure Segment where
  slope : Word
  endY : Word
deriving DecidableEq, Repr

/-- The state of one polygon edge (R161); `seg` has no value until the edge's first pull. -/
structure Edge where
  ptr : Nat
  x : BitVec Config.xaccWidth
  seg : Option Segment
deriving DecidableEq, Repr

/-- Where the loop of R160 stands: before the first pull of edge A or of edge B, before a row is filled, or before a
pull of edge A or of edge B whose segment has ended (R168). -/
inductive PolyPhase where
  | firstA
  | firstB
  | row
  | pullA
  | pullB
deriving DecidableEq, Repr

/-- The polygon being filled (R22, R161). -/
structure Poly where
  color : BitVec 6
  y : Int
  a : Edge
  b : Edge
deriving DecidableEq, Repr

/-- What the rasterizer reads next, with the record pointer (R21, R22). -/
inductive Phase where
  | table
  | points (p : Nat)
  | vectors (p : Nat)
  | header (a : Nat)
  | polygon (poly : Poly) (stage : PolyPhase)
deriving DecidableEq, Repr

/-- What the rasterizer holds during a pass (R34): the snapshot of command memory (R52), the latched draw target `D`,
the walker index `i`, and what it reads next. -/
structure Pass where
  snap : Store Word
  target : BitVec 1
  i : Nat
  phase : Phase
deriving DecidableEq, Repr

/-- The fault reasons, the complete list of R271. A fault is RECORDED in the state's `faults` and ends its operation
(R270, D30); it is never an outcome of a step (log entry 4). Each is safe: it removes a run's observation where the
hardware would give some value. -/
inductive Fault where
  /-- Raised by the thirteen reserved object types under the policy FAULT (R108): entry index and word. Safe. -/
  | reservedObjectType (i : Nat) (w : Word)
  /-- Raised by a pixel write or a row fill before any SET_CLIP: "if clip has no value: raise Fault(CLIP_UNSET)" (R169,
  R191, D13, X6). Safe. -/
  | clipUnset
  /-- Raised by TRIGGER_RUN and the scanline reads while `bufsel` holds no value: "if bufsel has no value: raise
  Fault(BUFSEL_UNSET)" (R100, R195, D18, X7). Safe. -/
  | bufselUnset
  /-- Raised by COMPOSITE_SCANLINE while `alphamap` holds no value: "if alphamap has no value: raise
  Fault(ALPHAMAP_UNSET)" (R230, D18, X7). Safe. -/
  | alphamapUnset
  /-- Raised by a scanline read of a cell never cleared or drawn: buffer, row, column (R195). Safe. -/
  | unwrittenPixel (b : BitVec 1) (y x : Nat)
  /-- Raised by a palette read of an entry never written (R215). Safe. -/
  | unwrittenPalette (n : Nat)
deriving DecidableEq, Repr

/-- Why the model has no step for an instruction. -/
inductive Refusal where
  /-- An instruction without a meaning yet, answered by exec's arm alone. Safe. -/
  | notModelled (mnemonic : String)
  /-- BAD_OPERAND (R272): a host operand outside its domain (R190, R213, R250 to R253). Safe. -/
  | badOperand
  /-- BAD_CLIP (R272): a rectangle that leaves the canvas (R194). Safe. -/
  | badClip
  /-- BAD_ROW (R272): a row that no buffer has (R195, R237). Safe. -/
  | badRow
  /-- BAD_INDEX (R272): a palette index above 95 or below 0 (R215). Safe. -/
  | badIndex
  /-- A host operation while a pass is in progress: the host has no move inside a pass (R255, R256, X10, X11). Safe. -/
  | passInProgress
  /-- A display-list record while no pass is in progress: records are read only by a pass (R20). Safe. -/
  | noPass
  /-- A display-list record of another list than the one the pass is reading (R83). Safe. -/
  | outOfContext
deriving DecidableEq, Repr

/-- What a read operation returned (R254, R257). -/
inductive Observation where
  /-- The row of RENDERED_SCANLINE (R195). -/
  | scanline (row : List Byte)
  /-- The row of COMPOSITE_SCANLINE (R230). -/
  | composite (row : List Byte)
  /-- The triple of PALETTE_COLOR (R215). -/
  | color (c : Rgb)
deriving DecidableEq, Repr

/-- The machine. The first ten fields and `pass` are the spec's (R23 to R34); `pending` and `observed` are the
model's own: the host operations of the run still to come and the values its read operations have returned (R257,
log entries 2 and 3). `none` is the value that the spec gives `clip`, `bufsel`, `alphamap` and the palette for reset: "no
value" (R13, R31, R35, C10). -/
structure State where
  cmd : Store Word
  videoram : List Host.Cell
  colorProm : List Host.Cell
  buf0 : Canvas
  buf1 : Canvas
  clip : Option Clip
  bufsel : Option (BitVec 1)
  alphamap : Option Byte
  pal : Store Rgb
  faults : List Fault
  pass : Option Pass
  pending : List Instr
  observed : List Observation
deriving DecidableEq, Repr

/-- The state at start-up (R35, R290). Command memory, videoram and the PROM are host-supplied; here every word and
byte of them is 0: DESIGN CHOICE, log entry 6. No host operation is pending: DESIGN CHOICE, log entry 2. -/
def State.reset : State where
  cmd := []
  videoram := []
  colorProm := []
  buf0 := ⟨false, []⟩
  buf1 := ⟨false, []⟩
  clip := none
  bufsel := none
  alphamap := none
  pal := []
  faults := []
  pass := none
  pending := []
  observed := []

/-- The outcome of a step of this machine. -/
abbrev Result := Host.Outcome State Fault Refusal

end Sys2Proof.Machine
end

