-- ==== Sys2Proof/Machine/Flags.lean ====
section
/-! DEFINITION. The hardware has no status flag and no condition code (R33). The one record of what went wrong is the
sticky set of faults (R32, R270); this file holds its one operation. -/

namespace Sys2Proof.Machine

/-- A fault reason joined to the set of faults: no reason is ever removed, and none stands twice (R32, R270). -/
def addFault (faults : List Fault) (f : Fault) : List Fault :=
  if f ∈ faults then faults else faults ++ [f]

end Sys2Proof.Machine
end

