-- ==== Sys2Proof/Machine/Operands.lean ====
section
/-! DEFINITION. The operand forms: the pixel transform (R14), the colour and slope fields (R72, R73), the line's
scanline count and end X (R143, R156), the palette formulas (R79, R80, R211 to R213), the character cell (R78, R231 to
R233) and the polygon span (R169). -/

namespace Sys2Proof.Machine

/-- `raw(w)` (R142): a raw word as a number, read signed under `RAW_SIGNED`. -/
def rawValue (P : Params) (w : BitVec n) : Int :=
  if P.rawSigned then w.toInt else (w.toNat : Int)

/-- The pixel transform `T(w) = (w >> 7) − 128` (R14); the division rounds down, as the shift does. -/
def pixel (P : Params) (w : BitVec n) : Int := rawValue P w / 128 - 128

/-- `RAW(p) = (p + 128) << 7` (R15, R87), the raw word of pixel p. -/
def rawOfPixel (p : Int) : Word := BitVec.ofInt 16 ((p + 128) * 128)

/-- `color = w & 0x3F` of a YC word (R72). -/
def wordColor (w : Word) : BitVec 6 := w.extractLsb' 0 6

/-- `slope = sext_16(w)` (R73, R81). -/
def slopeValue (w : Word) : Int := w.toInt

/-- `zext_8(c)` (R191, R192). -/
def cellValue (c : BitVec 6) : Byte := c.zeroExtend 8

/-- `LineCount(ey, syc)` (R143). -/
def lineCount (P : Params) (ey syc : Word) : Int :=
  match P.lineDyMode with
  | .raw => rawValue P ey - rawValue P syc + 1
  | .pixel => pixel P ey - pixel P syc + 1

/-- The end X of a segment in raw units, `wrap_XACC(raw(sx) + sext_16(slope) * dyc)` (R142, R156). -/
def lineEndX (P : Params) (ey syc slope sx : Word) : BitVec Config.xaccWidth :=
  BitVec.ofInt Config.xaccWidth (rawValue P sx + slopeValue slope * lineCount P ey syc)

/-- The pixels a segment visits, in order (R142, R154). -/
def segmentPixels (P : Params) (ey syc slope sx : Word) : List (Int × Int) :=
  P.lineStepper (pixel P sx) (pixel P syc) (pixel P (lineEndX P ey syc slope sx)) (pixel P ey)

/-- The X accumulator one scanline later, `wrap_XACC(E.x + sext_16(slope))` (R168, R174). -/
def advanceX (x : BitVec Config.xaccWidth) (slope : Word) : BitVec Config.xaccWidth :=
  x + slope.signExtend Config.xaccWidth

/-- `x, x + 1, …`, n of them. -/
def intsFrom : Nat → Int → List Int
  | 0, _ => []
  | n + 1, x => x :: intsFrom n (x + 1)

/-- The ends of a polygon span in order, clamped under `CLAMP` (R169). -/
def spanEnds (P : Params) (c : Clip) (xa xb : BitVec Config.xaccWidth) : Int × Int :=
  let lo := min (pixel P xa) (pixel P xb)
  let hi := max (pixel P xa) (pixel P xb)
  match P.polyHClipMode with
  | .clamp => (max lo c.xmin, min hi c.xmax)
  | .perPixel => (lo, hi)

/-- The pixels of one polygon row, in order: none outside the vertical clip range, else columns lo + 1 to hi
(R169, R170). -/
def rowPixels (P : Params) (c : Clip) (y : Int) (xa xb : BitVec Config.xaccWidth) : List (Int × Int) :=
  if y < c.ymin ∨ y > c.ymax then []
  else
    let ends := spanEnds P c xa xb
    (intsFrom (ends.2 - ends.1).toNat (ends.1 + 1)).map fun x => (x, y)

/-- The clip test of WritePixel: inclusive bounds (R191, D13). -/
def Clip.contains (c : Clip) (x y : Int) : Bool :=
  decide (c.xmin ≤ x) && decide (x ≤ c.xmax) && decide (c.ymin ≤ y) && decide (y ≤ c.ymax)

/-- A legal clip rectangle lies inside the canvas; an empty one is legal (R26, R194). -/
def Clip.legal (P : Params) (c : Clip) : Bool :=
  decide (0 ≤ c.xmin) && decide (c.xmax ≤ 255) && decide (0 ≤ c.ymin) && decide (c.ymax ≤ (P.canvasH : Int) - 1)

/-- `draw(bufsel)` (R193). -/
def drawIndex (P : Params) (bufsel : BitVec 1) : BitVec 1 :=
  match P.bufselPolarity with
  | .direct => bufsel
  | .swapped => ~~~bufsel

/-- The display target `1 − draw(bufsel)` (R193). -/
def displayIndex (P : Params) (bufsel : BitVec 1) : BitVec 1 := ~~~(drawIndex P bufsel)

/-- The static colour of a PROM byte (R80, R211). -/
def staticColor (v : Byte) : Rgb :=
  let level (shift : Nat) : Byte := BitVec.ofNat 8 (28 * (v.toNat / 2 ^ shift % 4) * (v.toNat % 4))
  ⟨level 6, level 4, level 2⟩

/-- The static index of PROM entry i: bits 7:3 kept, bits 2:0 reversed, plus 64 (R212). -/
def staticIndex (i : Nat) : Nat :=
  64 + (i / 8 * 8 + i % 2 * 4 + i / 2 % 2 * 2 + i / 4 % 2)

/-- The 9-bit inverted composite of a palette write, `((data << 1) | (offset & 1)) ^ 0x1FF` (R79, R213). -/
def paletteCode (offset data : Nat) : BitVec 9 :=
  (BitVec.ofNat 9 data <<< 1 ||| BitVec.ofNat 9 (offset % 2)) ^^^ 0x1FF#9

/-- The entry a palette write selects, `(offset >> 1) & 0x3F` (R79, R213). -/
def paletteEntry (offset : Nat) : Nat := offset / 2 % 64

/-- The dynamic colour of a palette write (R213). -/
def dynamicColor (offset data : Nat) : Rgb :=
  let code := (paletteCode offset data).toNat
  let level (shift : Nat) : Byte := BitVec.ofNat 8 (12 * (code / 2 ^ shift % 4) * (code % 8))
  ⟨level 7, level 5, level 3⟩

/-- `code = cell & 0x3F` of a character cell (R78, R232). -/
def cellCode (cell : Byte) : BitVec 6 := cell.extractLsb' 0 6

/-- `color = ((cell >> 6) & 3) | ALPHA_BANK(alphamap)` (R78, R232, R233). -/
def cellColor (P : Params) (alphamap cell : Byte) : Byte := (cell >>> 6) ||| P.alphaBank alphamap

/-- The videoram index of the cell that covers pixel column x of scanline y: row-major cells of 8 by 8 pixels
(R231, D22). -/
def cellIndex (y x : Nat) : Nat := y / 8 * 32 + x / 8

/-- One pixel of a composited row: the tile pixel where its pen is not 0, else the canvas byte (R230, R234, R235). -/
def overlayPixel (P : Params) (alphamap cell canvas : Byte) (y x : Nat) : Byte :=
  let pen := P.tilePen (cellCode cell) (BitVec.ofNat 3 y) (BitVec.ofNat 3 x)
  if pen ≠ 0#2 then P.tileOut (cellColor P alphamap cell) pen else canvas

end Sys2Proof.Machine
end

