-- ==== Sys2Proof/Machine/Ops.lean ====
section
/-! DEFINITION. The named operations over memory and registers (R50 to R67), the canonical forms they keep, and raising
a fault, the one operation behind every fault of R271. -/

namespace Sys2Proof.Machine

/-! ### Storage by index -/

/-- The value listed for an index. -/
def Store.get : Store α → Nat → Option α
  | [], _ => none
  | (b, v) :: rest, a => if b = a then some v else Store.get rest a

/-- The store with a value listed for an index, in its place in the rising order. -/
def Store.put : Store α → Nat → α → Store α
  | [], a, v => [(a, v)]
  | (b, w) :: rest, a, v =>
    if a < b then (a, v) :: (b, w) :: rest
    else if a = b then (a, v) :: rest
    else (b, w) :: Store.put rest a v

/-- The store with nothing listed for an index. -/
def Store.erase (m : Store α) (a : Nat) : Store α := m.filter fun e => e.1 != a

/-- A read where an unlisted index reads as `d`. -/
def Store.read (d : α) (m : Store α) (a : Nat) : α := (Store.get m a).getD d

/-- A write where an unlisted index reads as `d`: writing `d` lists nothing. -/
def Store.write [DecidableEq α] (d : α) (m : Store α) (a : Nat) (v : α) : Store α :=
  if v = d then Store.erase m a else Store.put m a v

/-- Indices strictly rise, from `lo` on and below `hi`. -/
def Store.rising (hi : Nat) : Nat → Store α → Bool
  | _, [] => true
  | lo, (a, _) :: rest => decide (lo ≤ a) && decide (a < hi) && Store.rising hi (a + 1) rest

/-- No entry holds the value `d` that an unlisted index reads as. -/
def Store.lists [DecidableEq α] (d : α) (m : Store α) : Bool := m.all fun e => e.2 != d

/-! ### Canvas cells -/

/-- The number of cells of a buffer (R24). -/
def canvasCells (P : Params) : Nat := Config.canvasW * P.canvasH

/-- What an unlisted cell reads as. -/
def Canvas.unlisted (c : Canvas) : Option Byte := if c.full then some 0#8 else none

/-- The cell of an index: a value or no value; an index outside the buffer has no cell (R24, R56). -/
def Canvas.get (n : Nat) (c : Canvas) (a : Nat) : Option Byte :=
  if a < n then (Store.get c.cells a).or c.unlisted else none

/-- Whether the listed indices are exactly k, k + 1, …, n − 1. -/
def Canvas.covers (n : Nat) : Nat → List Host.Cell → Bool
  | k, [] => k == n
  | k, (a, _) :: rest => a == k && Canvas.covers n (k + 1) rest

/-- Listed cells in canonical form: once every cell holds a value, cells of 0 are unlisted (log entry 10). -/
def Canvas.ofCells (n : Nat) (cells : List Host.Cell) : Canvas :=
  if Canvas.covers n 0 cells then ⟨true, cells.filter fun e => e.2 != 0#8⟩ else ⟨false, cells⟩

/-- A write of one cell; an index outside the buffer has no cell and nothing is written (log entry 10). -/
def Canvas.put (n : Nat) (c : Canvas) (a : Nat) (v : Byte) : Canvas :=
  if a < n then
    if c.full then ⟨true, Store.write 0#8 c.cells a v⟩ else Canvas.ofCells n (Store.put c.cells a v)
  else c

/-- A buffer with 0 in every cell (R190). -/
def Canvas.cleared : Canvas := ⟨true, []⟩

/-- The canonical form of a buffer of n cells. -/
def Canvas.wf (n : Nat) (c : Canvas) : Bool :=
  Store.rising n 0 c.cells && if c.full then Store.lists 0#8 c.cells else !Canvas.covers n 0 c.cells

/-- The index of the cell at column x, row y; none outside the canvas (R24, R56). -/
def cellAddr (P : Params) (x y : Int) : Option Nat :=
  if 0 ≤ x ∧ x < Config.canvasW ∧ 0 ≤ y ∧ y < P.canvasH then some (Config.canvasW * y.toNat + x.toNat) else none

/-- `WritePixel(x, y, c)` on a buffer, for a clip rectangle that holds a value (R191). -/
def Canvas.plot (P : Params) (clip : Clip) (color : BitVec 6) (c : Canvas) (xy : Int × Int) : Canvas :=
  if clip.contains xy.1 xy.2 then
    match cellAddr P xy.1 xy.2 with
    | some a => c.put (canvasCells P) a (cellValue color)
    | none => c
  else c

/-- WritePixel for each pixel of a list, in order (R295). -/
def Canvas.plots (P : Params) (clip : Clip) (color : BitVec 6) (c : Canvas) (pixels : List (Int × Int)) : Canvas :=
  pixels.foldl (Canvas.plot P clip color) c

/-! ### The state's registers and memories -/

/-- `CMD(i)` of command memory as it stands (R50). -/
def State.cmdWord (s : State) (i : Nat) : Word := Store.read 0#16 s.cmd i

/-- `VRAM(i)` (R54). -/
def State.vram (s : State) (i : Nat) : Byte := Store.read 0#8 s.videoram i

/-- `PROM(i)` (R55). -/
def State.prom (s : State) (i : Nat) : Byte := Store.read 0#8 s.colorProm i

/-- `pal[n]` (R57). -/
def State.palette (s : State) (n : Nat) : Option Rgb := Store.get s.pal n

/-- `buf[b]` (R24). -/
def State.buf (s : State) (b : BitVec 1) : Canvas := if b = 0#1 then s.buf0 else s.buf1

/-- `buf[b][y][x]`: the cell's value, or no value; no value outside the canvas (R24, R56). -/
def State.cell (P : Params) (s : State) (b : BitVec 1) (x y : Int) : Option Byte :=
  match cellAddr P x y with
  | some a => (s.buf b).get (canvasCells P) a
  | none => none

/-- `cmd[i] <- w` (R250). -/
def State.writeCmd (s : State) (i : Nat) (w : Word) : State := { s with cmd := Store.write 0#16 s.cmd i w }

/-- `videoram[i] <- b` (R251). -/
def State.writeVram (s : State) (i : Nat) (b : Byte) : State := { s with videoram := Store.write 0#8 s.videoram i b }

/-- `buf[b] <- c`. -/
def State.setBuf (s : State) (b : BitVec 1) (c : Canvas) : State :=
  if b = 0#1 then { s with buf0 := c } else { s with buf1 := c }

/-- `clip <- c` (R194). -/
def State.setClip (s : State) (c : Clip) : State := { s with clip := some c }

/-- `bufsel <- v` (R252). -/
def State.setBufsel (s : State) (v : BitVec 1) : State := { s with bufsel := some v }

/-- `alphamap <- v` (R253). -/
def State.setAlphamap (s : State) (v : Byte) : State := { s with alphamap := some v }

/-- `pal[n] <- c` (R30). -/
def State.writePal (s : State) (n : Nat) (c : Rgb) : State := { s with pal := Store.put s.pal n c }

/-- A value a read operation returns (R257). -/
def State.observe (s : State) (o : Observation) : State := { s with observed := s.observed ++ [o] }

/-- What the rasterizer holds, or that no pass is in progress (R34). -/
def State.setPass (s : State) (p : Option Pass) : State := { s with pass := p }

/-- The host operations still to come (log entry 2). -/
def State.setPending (s : State) (ops : List Instr) : State := { s with pending := ops }

/-- `raise Fault(f)`: the reason is recorded, and the pass, if one is in progress, ends at once (R109, R270, R275). -/
def State.raise (s : State) (f : Fault) : State := { s with faults := addFault s.faults f, pass := none }

/-- WritePixel of each pixel of a list into `buf[b]`, for a clip rectangle that holds a value (R191, R295). -/
def State.drawOn (P : Params) (s : State) (b : BitVec 1) (clip : Clip) (color : BitVec 6)
    (pixels : List (Int × Int)) : State :=
  s.setBuf b ((s.buf b).plots P clip color pixels)

/-! ### The shapes of a meaning -/

/-- A host operation: the host has no move inside a pass (R12, R255, log entry 13). -/
def hostOp (s : State) (k : Result) : Result :=
  match s.pass with
  | some _ => .refused .passInProgress
  | none => k

/-- Draw with the pass's target and colour, then go on with the pass as `next` says; before any SET_CLIP the first
pixel write or row fill raises CLIP_UNSET and the pass ends: "if clip has no value: raise Fault(CLIP_UNSET)" (R169, R191;
R109). -/
def drawThen (P : Params) (s : State) (q : Pass) (color : BitVec 6) (pixels : Clip → List (Int × Int))
    (next : Phase) : State :=
  match s.clip with
  | none => s.raise .clipUnset
  | some c => (s.drawOn P q.target c color (pixels c)).setPass (some { q with phase := next })

/-- The pass after an object has ended: the walker goes to the next entry (R101). -/
def Pass.nextEntry (q : Pass) : Pass := { q with i := q.i + 1, phase := .table }

/-- The state after an object of the pass has ended (R101). -/
def endObject (s : State) (q : Pass) : State := s.setPass (some q.nextEntry)

/-! ### Canonical form of the whole memory -/

/-- Every memory of the state is in its canonical form (log entries 6 and 10). The parameters fix the sizes. -/
def Memory.wfFor (P : Params) (s : State) : Bool :=
  Store.rising P.cmdWords 0 s.cmd && Store.lists 0#16 s.cmd
    && Store.rising 1024 0 s.videoram && Store.lists 0#8 s.videoram
    && Store.rising 32 0 s.colorProm && Store.lists 0#8 s.colorProm
    && s.buf0.wf (canvasCells P) && s.buf1.wf (canvasCells P)
    && Store.rising 96 0 s.pal

end Sys2Proof.Machine
end

