-- ==== Sys2Proof/Machine/Params.lean ====
section
/-! DEFINITION. The default of every parameter of R7, and the machine's parameters. A proof about `exec` or `step`
depends on these defaults. Each is the spec's own choice among what the source leaves open: log entry 9. -/

namespace Sys2Proof.Machine

/-- The pixels the stepper of R154 plots from (x, y) on, at most n of them: `sx` and `sy` are its directions, `dx` and
`dy` its deltas (`dy` is negative or zero), `err` its error term. -/
def bresenhamFrom (dx dy sx sy x1 y1 : Int) : Nat → Int → Int → Int → List (Int × Int)
  | 0, _, _, _ => []
  | n + 1, x, y, err =>
    (x, y) ::
      if x = x1 ∧ y = y1 then []
      else
        let e2 := 2 * err
        let stepX := decide (e2 ≥ dy)
        let stepY := decide (e2 ≤ dx)
        bresenhamFrom dx dy sx sy x1 y1 n
          (if stepX then x + sx else x) (if stepY then y + sy else y)
          (err + (if stepX then dy else 0) + (if stepY then dx else 0))

/-- `DrawLine` of R154: the pixels from (x0, y0) to (x1, y1), in order. The loop ends at (x1, y1); the bound
`max(|x1 − x0|, |y1 − y0|) + 1` is the number of pixels R154 says it plots (log entry 17). -/
def bresenham (x0 y0 x1 y1 : Int) : List (Int × Int) :=
  let dx : Int := (x1 - x0).natAbs
  let dy : Int := -((y1 - y0).natAbs : Int)
  bresenhamFrom dx dy (if x0 < x1 then 1 else -1) (if y0 < y1 then 1 else -1) x1 y1
    (max (x1 - x0).natAbs (y1 - y0).natAbs + 1) x0 y0 (dx + dy)

/-- The default `ALPHA_BANK(a) = (a & 1) << 2` (R233, D23). -/
def defaultAlphaBank (a : Byte) : Byte := (a &&& 1#8) <<< 2

/-- The default `TILE_OUT(color, pen) = 64 + 4 · color + pen` (R235, D24). -/
def defaultTileOut (color : Byte) (pen : BitVec 2) : Byte := 64#8 + 4#8 * color + pen.zeroExtend 8

/-- The machine's parameters: the defaults of R7. -/
def params : Params where
  cmdWords := 2048
  canvasH := 256
  rawSigned := false
  lineDyMode := .raw
  lineStepper := bresenham
  unknownTypePolicy := .fault
  polyHClipMode := .clamp
  bufselPolarity := .direct
  alphaBank := defaultAlphaBank
  tilePen := Config.tilePen
  tileOut := defaultTileOut

/-- Every memory of the machine is in its canonical form (log entries 6 and 10). -/
def Memory.wf (s : State) : Bool := Memory.wfFor params s

end Sys2Proof.Machine
end

