-- ==== Sys2Proof/Machine/Canvas.lean ====
section
/-! DEFINITION. The host operations of the canvas buffer: CLEAR_BUFFER, SET_CLIP, RENDERED_SCANLINE (R190 to R197). -/

namespace Sys2Proof.Machine

/-- `CLEAR_BUFFER(which)` (R190): every cell of the buffer, whatever the clip rectangle. -/
def clearBuffer (which : Int) (s : State) : Result :=
  hostOp s <|
    if which = 0 ∨ which = 1 then .next (s.setBuf (BitVec.ofInt 1 which) Canvas.cleared)
    else .refused .badOperand

/-- `SET_CLIP` (R194): a rectangle that leaves the canvas is refused, an empty one is accepted. -/
def setClip (P : Params) (c : Clip) (s : State) : Result :=
  hostOp s <| if c.legal P then .next (s.setClip c) else .refused .badClip

/-- The cells of row y from column x on, n of them; the first cell that holds no value is the error. -/
def Canvas.rowFrom (P : Params) (c : Canvas) (y : Nat) : Nat → Nat → Except Nat (List Byte)
  | 0, _ => .ok []
  | n + 1, x =>
    match c.get (canvasCells P) (Config.canvasW * y + x) with
    | none => .error x
    | some v =>
      match Canvas.rowFrom P c y n (x + 1) with
      | .ok row => .ok (v :: row)
      | .error e => .error e

/-- The row of the display target that a scanline read returns, its refusals and faults in order: refuse BAD_ROW, "if
bufsel has no value: raise Fault(BUFSEL_UNSET)", then UNWRITTEN_PIXEL (R195, R274). -/
def readRow (P : Params) (y : Int) (s : State) : Host.Outcome (List Byte) Fault Refusal :=
  if y < 0 ∨ y > (P.canvasH : Int) - 1 then .refused .badRow
  else
    match s.bufsel with
    | none => .fault .bufselUnset
    | some v =>
      match Canvas.rowFrom P (s.buf (displayIndex P v)) y.toNat Config.canvasW 0 with
      | .ok row => .next row
      | .error x => .fault (.unwrittenPixel (displayIndex P v) y.toNat x)

/-- What a read accessor does with what it read: a returned value is observed, a fault is recorded and nothing is
returned (R257, R270). -/
def returnValue (s : State) (o : Host.Outcome Observation Fault Refusal) : Result :=
  match o with
  | .next v => .next (s.observe v)
  | .fault f => .next (s.raise f)
  | .refused r => .refused r

/-- `RENDERED_SCANLINE(y)` (R195). -/
def renderedScanline (P : Params) (y : Int) (s : State) : Result :=
  hostOp s <| returnValue s <|
    match readRow P y s with
    | .next row => .next (.scanline row)
    | .fault f => .fault f
    | .refused r => .refused r

/-- `CLEAR_BUFFER` (R190). -/
def execClearBuffer (which : Int) (s : State) : Result := clearBuffer which s

/-- `SET_CLIP` (R194). -/
def execSetClip (xmin ymin xmax ymax : Int) (s : State) : Result := setClip params ⟨xmin, ymin, xmax, ymax⟩ s

/-- `RENDERED_SCANLINE` (R195). -/
def execRenderedScanline (y : Int) (s : State) : Result := renderedScanline params y s

end Sys2Proof.Machine
end

