-- ==== Sys2Proof/Machine/Compositor.lean ====
section
/-! DEFINITION. The scanline compositor: COMPOSITE_SCANLINE (R230 to R237). -/

namespace Sys2Proof.Machine

/-- The overlay on a row's canvas bytes from column x on: each pixel by its own cell (R230, R231). -/
def overlayFrom (P : Params) (s : State) (alphamap : Byte) (y : Nat) : Nat → List Byte → List Byte
  | _, [] => []
  | x, canvas :: rest =>
    overlayPixel P alphamap (s.vram (cellIndex y x)) canvas y x :: overlayFrom P s alphamap y (x + 1) rest

/-- `COMPOSITE_SCANLINE(y)` (R230): the refusals and faults of the scanline read first, then "if
alphamap has no value: raise Fault(ALPHAMAP_UNSET)" (R274). -/
def compositeScanline (P : Params) (y : Int) (s : State) : Result :=
  hostOp s <| returnValue s <|
    match readRow P y s with
    | .refused r => .refused r
    | .fault f => .fault f
    | .next row =>
      match s.alphamap with
      | none => .fault .alphamapUnset
      | some a => .next (.composite (overlayFrom P s a y.toNat 0 row))

/-- `COMPOSITE_SCANLINE` (R230). -/
def execCompositeScanline (y : Int) (s : State) : Result := compositeScanline params y s

end Sys2Proof.Machine
end

