-- ==== Sys2Proof/Machine/HostWrites.lean ====
section
/-! DEFINITION. The host writes of external state (R250 to R253). -/

namespace Sys2Proof.Machine

/-- `HOST_WRITE_CMD(i, w)` (R250). -/
def hostWriteCmd (P : Params) (idx w : Int) (s : State) : Result :=
  hostOp s <|
    if idx < 0 ∨ idx > (P.cmdWords : Int) - 1 ∨ w < 0 ∨ w > 0xFFFF then .refused .badOperand
    else .next (s.writeCmd idx.toNat (BitVec.ofInt 16 w))

/-- `HOST_WRITE_CMD` (R250). -/
def execHostWriteCmd (idx w : Int) (s : State) : Result := hostWriteCmd params idx w s

/-- `HOST_WRITE_VRAM(i, b)` (R251). -/
def execHostWriteVram (idx b : Int) (s : State) : Result :=
  hostOp s <|
    if idx < 0 ∨ idx > 1023 ∨ b < 0 ∨ b > 0xFF then .refused .badOperand
    else .next (s.writeVram idx.toNat (BitVec.ofInt 8 b))

/-- `HOST_SET_BUFSEL(v)` (R252): the buffer flip; it moves no pixel. -/
def execHostSetBufsel (v : Int) (s : State) : Result :=
  hostOp s <| if v = 0 ∨ v = 1 then .next (s.setBufsel (BitVec.ofInt 1 v)) else .refused .badOperand

/-- `HOST_SET_ALPHAMAP(v)` (R253). -/
def execHostSetAlphamap (v : Int) (s : State) : Result :=
  hostOp s <| if v < 0 ∨ v > 0xFF then .refused .badOperand else .next (s.setAlphamap (BitVec.ofInt 8 v))

end Sys2Proof.Machine
end

