-- ==== Sys2Proof/Machine/Palette.lean ====
section
/-! DEFINITION. The palette mapper: BUILD_STATIC_PALETTE, PALETTE_WRITE, PALETTE_COLOR (R210 to R216). -/

namespace Sys2Proof.Machine

/-- One static entry computed from its PROM byte (R210). -/
def buildStaticEntry (s : State) (i : Nat) : State := s.writePal (staticIndex i) (staticColor (s.prom i))

/-- `BUILD_STATIC_PALETTE()` (R210): the 32 static entries, in order. -/
def execBuildStaticPalette (s : State) : Result :=
  hostOp s <| .next ((List.range 32).foldl buildStaticEntry s)

/-- `PALETTE_WRITE(offset, data)` (R213). -/
def execPaletteWrite (offset data : Int) (s : State) : Result :=
  hostOp s <|
    if data < 0 ∨ data > 0xFF ∨ offset < 0 then .refused .badOperand
    else .next (s.writePal (paletteEntry offset.toNat) (dynamicColor offset.toNat data.toNat))

/-- The entry a palette read returns, its refusal before its fault (R215, R274). -/
def readPalette (index : Int) (s : State) : Host.Outcome Observation Fault Refusal :=
  if index < 0 ∨ index > 95 then .refused .badIndex
  else
    match s.palette index.toNat with
    | none => .fault (.unwrittenPalette index.toNat)
    | some c => .next (.color c)

/-- `PALETTE_COLOR(index)` (R215). -/
def execPaletteColor (index : Int) (s : State) : Result := hostOp s <| returnValue s (readPalette index s)

end Sys2Proof.Machine
end

