-- ==== Sys2Proof/Machine/Lines.lean ====
section
/-! DEFINITION. The line renderer (R140 to R156). -/

namespace Sys2Proof.Machine

/-- A record of a vector list, for the pass that is reading one at p (R140). -/
def inVectors (s : State) (k : Pass → Nat → Result) : Result :=
  match s.pass with
  | none => .refused .noPass
  | some q =>
    match q.phase with
    | .vectors p => k q p
    | _ => .refused .outOfContext

/-- `VectorSeg` (R142): every pixel of the segment, each clipped by itself (R155), then the next record, four words on
(R140). -/
def vectorSeg (P : Params) (ey syc slope sx : Word) (s : State) : Result :=
  inVectors s fun q p =>
    .next (drawThen P s q (wordColor syc) (fun _ => segmentPixels P ey syc slope sx) (.vectors (p + 4)))

/-- `VEC_END` (R141): return from VectorList; the walker goes on (R101). -/
def execVecEnd (s : State) : Result := inVectors s fun q _ => .next (endObject s q)

/-- `VEC_SEG` (R142). -/
def execVecSeg (ey syc slope sx : Word) (s : State) : Result := vectorSeg params ey syc slope sx s

end Sys2Proof.Machine
end

