-- ==== Sys2Proof/Machine/Points.lean ====
section
/-! DEFINITION. The point engine (R120 to R123). -/

namespace Sys2Proof.Machine

/-- A record of a point list, for the pass that is reading one at p (R120). -/
def inPoints (s : State) (k : Pass → Nat → Result) : Result :=
  match s.pass with
  | none => .refused .noPass
  | some q =>
    match q.phase with
    | .points p => k q p
    | _ => .refused .outOfContext

/-- `PointPair` (R122): one WritePixel, then the next pair, two words on (R120). -/
def pointPair (P : Params) (x yc : Word) (s : State) : Result :=
  inPoints s fun q p =>
    .next (drawThen P s q (wordColor yc) (fun _ => [(pixel P x, pixel P yc)]) (.points (p + 2)))

/-- `PT_END` (R121): return from PointList; the walker goes on (R101). -/
def execPtEnd (s : State) : Result := inPoints s fun q _ => .next (endObject s q)

/-- `PT_PAIR` (R122). -/
def execPtPair (x yc : Word) (s : State) : Result := pointPair params x yc s

end Sys2Proof.Machine
end

