-- ==== Sys2Proof/Machine/Polygon.lean ====
section
/-! DEFINITION. The polygon fill engine (R160 to R174). The loop of R160 is taken apart at the edge pairs it reads:
a header and each pair are records, and filling a row with the X steps up to the next pull is one step of the engine
that reads no record (log entry 14). -/

namespace Sys2Proof.Machine

/-- Whether the running scanline exceeds the edge's current terminal; before the first pull there is none (R161, R168). -/
def Edge.ended (P : Params) (e : Edge) (y : Int) : Bool :=
  match e.seg with
  | none => true
  | some g => decide (y > pixel P g.endY)

/-- The X accumulator advanced by the edge's slope (R168, R174). -/
def Edge.advance (e : Edge) : Edge :=
  match e.seg with
  | none => e
  | some g => { e with x := advanceX e.x g.slope }

/-- The pair (slope, endY) pulled into an edge: X is not changed and the pointer goes two words on (R165, R167). -/
def Edge.load (e : Edge) (slope endY : Word) : Edge := { e with ptr := e.ptr + 2, seg := some ⟨slope, endY⟩ }

/-- `Step(B, y)` (R168): a pull when B's segment has ended, else B's X advances and the next row follows. -/
def stepB (P : Params) (g : Poly) : Phase :=
  if g.b.ended P g.y then .polygon g .pullB else .polygon { g with b := g.b.advance } .row

/-- `Step(A, y)`, and then `Step(B, y)` unless A has to pull first (R168). -/
def stepA (P : Params) (g : Poly) : Phase :=
  if g.a.ended P g.y then .polygon g .pullA else stepB P { g with a := g.a.advance }

/-- `FillRow(y, A.x, B.x, color, D)`, `y <- y + 1`, and the steps of the edges up to the next pull (R160, R168, R169). -/
def fillRow (P : Params) (s : State) (q : Pass) (g : Poly) : State :=
  drawThen P s q g.color (fun c => rowPixels P c g.y g.a.x g.b.x) (stepA P { g with y := g.y + 1 })

/-- The polygon a header starts: edge A after the header, edge B at the secondary pointer (R160, R161). -/
def Poly.start (P : Params) (a : Nat) (sec : BitVec 11) (x1 x2 syc : Word) : Poly where
  color := wordColor syc
  y := pixel P syc
  a := { ptr := a + 4, x := x1.setWidth Config.xaccWidth, seg := none }
  b := { ptr := sec.toNat, x := x2.setWidth Config.xaccWidth, seg := none }

/-- A polygon header, for the pass that is to read one at a (R160). -/
def polyHeader (P : Params) (sec : BitVec 11) (x1 x2 syc : Word) (s : State) : Result :=
  match s.pass with
  | none => .refused .noPass
  | some q =>
    match q.phase with
    | .header a => .next (s.setPass (some { q with phase := .polygon (Poly.start P a sec x1 x2 syc) .firstA }))
    | _ => .refused .outOfContext

/-- An edge pair, for the pass that is pulling one (R165). -/
def inPull (s : State) (k : Pass → Poly → PolyPhase → Result) : Result :=
  match s.pass with
  | none => .refused .noPass
  | some q =>
    match q.phase with
    | .polygon _ .row => .refused .outOfContext
    | .polygon g stage => k q g stage
    | _ => .refused .outOfContext

/-- What follows a successful pull: after the first pull of A the first pull of B, after that of B the first row; in
the loop, after A's pull the step of B, after B's pull the next row (R160, R168). -/
def afterPull (P : Params) (g : Poly) (slope endY : Word) : PolyPhase → Phase
  | .firstA => .polygon { g with a := g.a.load slope endY } .firstB
  | .firstB => .polygon { g with b := g.b.load slope endY } .row
  | .pullA => stepB P { g with a := g.a.load slope endY }
  | .pullB => .polygon { g with b := g.b.load slope endY } .row
  | .row => .polygon g .row

/-- `EDGE_SEG` (R165, R167). -/
def edgeSegment (P : Params) (slope endY : Word) (s : State) : Result :=
  inPull s fun q g stage => .next (s.setPass (some { q with phase := afterPull P g slope endY stage }))

/-- `POLY_HDR` (R160). The ignored bits change nothing (R76, R84). -/
def execPolyHdr (_ign : BitVec 5) (sec : BitVec 11) (x1 x2 syc : Word) (s : State) : Result :=
  polyHeader params sec x1 x2 syc s

/-- `EDGE_END` (R166): the polygon ends without drawing further; the walker goes on (R101). -/
def execEdgeEnd (s : State) : Result := inPull s fun q _ _ => .next (endObject s q)

/-- `EDGE_SEG` (R167). -/
def execEdgeSeg (slope endY : Word) (s : State) : Result := edgeSegment params slope endY s

end Sys2Proof.Machine
end

