-- ==== Sys2Proof/WellFormed.lean ====
section
/-! DEFINITION. Which instructions are well formed. A display-list record is well formed when its fields are not
those of the terminator that its words would be read as (R71, R74, R75, R77). A host operation has no encoding (R86)
and may be sent with any integers: outside its domain it is refused when it is executed (R272), so it is always
well formed. -/

namespace Sys2Proof

/-- The words of a record that no terminator shadows (R71, R74, R75, R77, R85). -/
def Instr.wellFormed : Instr → Bool
  | .objReservedF ign addr => !(ign == 1#1 && addr == 0x7FF#11)
  | .ptPair x _ => x != 0xFFFF#16
  | .vecSeg ey _ _ _ => ey != 0xFFFF#16
  | .edgeSeg slope endY => !(slope == 0xFFFF#16 && endY == 0xFFFF#16)
  | .objEnd => true
  | .objPolygon _ _ => true
  | .objPoint _ _ => true
  | .objVector _ _ => true
  | .objReserved0 _ _ => true
  | .objReserved1 _ _ => true
  | .objReserved2 _ _ => true
  | .objReserved3 _ _ => true
  | .objReserved5 _ _ => true
  | .objReserved6 _ _ => true
  | .objReserved7 _ _ => true
  | .objReserved9 _ _ => true
  | .objReservedA _ _ => true
  | .objReservedB _ _ => true
  | .objReservedD _ _ => true
  | .objReservedE _ _ => true
  | .ptEnd => true
  | .vecEnd => true
  | .polyHdr _ _ _ _ _ => true
  | .edgeEnd => true
  | .triggerRun => true
  | .clearBuffer _ => true
  | .setClip _ _ _ _ => true
  | .renderedScanline _ => true
  | .buildStaticPalette => true
  | .paletteWrite _ _ => true
  | .paletteColor _ => true
  | .compositeScanline _ => true
  | .hostWriteCmd _ _ => true
  | .hostWriteVram _ _ => true
  | .hostSetBufsel _ => true
  | .hostSetAlphamap _ => true

end Sys2Proof
end

