-- ==== Sys2Proof/Decode.lean ====
section
/-! DEFINITION. Decoding command-memory words into display-list records and encoding records into words (R70 to R84).
The same words are records of different formats in different lists (R83), so decoding takes the list being read.
Decoding is total: the only refusal is a record that does not fit in the words that are left (R53). -/

namespace Sys2Proof

/-- What is being read: the object table, a point list, a vector list, a polygon header or an edge list (R70). -/
inductive Context where
  | table
  | points
  | vectors
  | header
  | edges
deriving DecidableEq, Repr

/-- The most words one record of the format has (R70). -/
def Context.words : Context → Nat
  | .table => 1
  | .points => 2
  | .vectors => 4
  | .header => 4
  | .edges => 2

/-- Why words are no record. -/
inductive DecodeError where
  /-- The record does not fit in the words that are left: its list ends there (R53, D6). -/
  | recordCut
deriving DecidableEq, Repr

/-- `ENTRY.type`, bits 15:12 (R71). -/
def entryType (w : Word) : BitVec 4 := w.extractLsb' 12 4

/-- `ENTRY` bit 11, ignored (R71, D8). -/
def entryIgnored (w : Word) : BitVec 1 := w.extractLsb' 11 1

/-- `ENTRY.addr`, and the secondary pointer of a polygon header: bits 10:0 (R71, R76, R81). -/
def wordAddr (w : Word) : BitVec 11 := w.extractLsb' 0 11

/-- Bits 15:11 of word 0 of a polygon header, ignored (R76, D8). -/
def headerIgnored (w : Word) : BitVec 5 := w.extractLsb' 11 5

/-- An object table entry's word: type, bit 11, address (R71). -/
def entryWord (type : BitVec 4) (ign : BitVec 1) (addr : BitVec 11) : Word := type ++ ign ++ addr

/-- Word 0 of a polygon header (R76). -/
def headerWord (ign : BitVec 5) (sec : BitVec 11) : Word := ign ++ sec

/-- The object-type map (R82). The last line is type 0xF: the field has sixteen values. -/
def entryOfType (type : BitVec 4) (ign : BitVec 1) (addr : BitVec 11) : Instr :=
  match type.toNat with
  | 0 => .objReserved0 ign addr
  | 1 => .objReserved1 ign addr
  | 2 => .objReserved2 ign addr
  | 3 => .objReserved3 ign addr
  | 4 => .objPolygon ign addr
  | 5 => .objReserved5 ign addr
  | 6 => .objReserved6 ign addr
  | 7 => .objReserved7 ign addr
  | 8 => .objPoint ign addr
  | 9 => .objReserved9 ign addr
  | 10 => .objReservedA ign addr
  | 11 => .objReservedB ign addr
  | 12 => .objVector ign addr
  | 13 => .objReservedD ign addr
  | 14 => .objReservedE ign addr
  | _ => .objReservedF ign addr

/-- An object table entry: the terminator is tested on the whole word before the type (R71, R82, R102, R103). -/
def decodeEntry (w : Word) : Instr :=
  if w = 0xFFFF#16 then .objEnd else entryOfType (entryType w) (entryIgnored w) (wordAddr w)

/-- One record of the list being read, and the words after it. A terminator word is tested before the rest of its
record is looked for (R53, R74, R75); an edge list ends at a pair (R77). -/
def decode : Context → List Word → Except DecodeError (Instr × List Word)
  | .table, w :: rest => .ok (decodeEntry w, rest)
  | .table, [] => .error .recordCut
  | .points, [] => .error .recordCut
  | .points, x :: rest =>
    if x = 0xFFFF#16 then .ok (.ptEnd, rest)
    else
      match rest with
      | yc :: rest' => .ok (.ptPair x yc, rest')
      | [] => .error .recordCut
  | .vectors, [] => .error .recordCut
  | .vectors, ey :: rest =>
    if ey = 0xFFFF#16 then .ok (.vecEnd, rest)
    else
      match rest with
      | syc :: slope :: sx :: rest' => .ok (.vecSeg ey syc slope sx, rest')
      | _ => .error .recordCut
  | .header, w0 :: x1 :: x2 :: syc :: rest =>
    .ok (.polyHdr (headerIgnored w0) (wordAddr w0) x1 x2 syc, rest)
  | .header, _ => .error .recordCut
  | .edges, slope :: endY :: rest =>
    if slope = 0xFFFF#16 ∧ endY = 0xFFFF#16 then .ok (.edgeEnd, rest)
    else .ok (.edgeSeg slope endY, rest)
  | .edges, _ => .error .recordCut

/-- The words of a record, from the tables of R71 and R74 to R77; a host operation has none (R86). -/
def encode : Instr → List Word
  | .objEnd => [0xFFFF#16]
  | .objPolygon ign addr => [entryWord 0x4#4 ign addr]
  | .objPoint ign addr => [entryWord 0x8#4 ign addr]
  | .objVector ign addr => [entryWord 0xC#4 ign addr]
  | .objReserved0 ign addr => [entryWord 0x0#4 ign addr]
  | .objReserved1 ign addr => [entryWord 0x1#4 ign addr]
  | .objReserved2 ign addr => [entryWord 0x2#4 ign addr]
  | .objReserved3 ign addr => [entryWord 0x3#4 ign addr]
  | .objReserved5 ign addr => [entryWord 0x5#4 ign addr]
  | .objReserved6 ign addr => [entryWord 0x6#4 ign addr]
  | .objReserved7 ign addr => [entryWord 0x7#4 ign addr]
  | .objReserved9 ign addr => [entryWord 0x9#4 ign addr]
  | .objReservedA ign addr => [entryWord 0xA#4 ign addr]
  | .objReservedB ign addr => [entryWord 0xB#4 ign addr]
  | .objReservedD ign addr => [entryWord 0xD#4 ign addr]
  | .objReservedE ign addr => [entryWord 0xE#4 ign addr]
  | .objReservedF ign addr => [entryWord 0xF#4 ign addr]
  | .ptEnd => [0xFFFF#16]
  | .ptPair x yc => [x, yc]
  | .vecEnd => [0xFFFF#16]
  | .vecSeg ey syc slope sx => [ey, syc, slope, sx]
  | .polyHdr ign sec x1 x2 syc => [headerWord ign sec, x1, x2, syc]
  | .edgeEnd => [0xFFFF#16, 0xFFFF#16]
  | .edgeSeg slope endY => [slope, endY]
  | .triggerRun => []
  | .clearBuffer _ => []
  | .setClip _ _ _ _ => []
  | .renderedScanline _ => []
  | .buildStaticPalette => []
  | .paletteWrite _ _ => []
  | .paletteColor _ => []
  | .compositeScanline _ => []
  | .hostWriteCmd _ _ => []
  | .hostWriteVram _ _ => []
  | .hostSetBufsel _ => []
  | .hostSetAlphamap _ => []

/-- The list in which an instruction stands; none for a host operation (R70, R86). -/
def Instr.context : Instr → Option Context
  | .objEnd => some .table
  | .objPolygon _ _ => some .table
  | .objPoint _ _ => some .table
  | .objVector _ _ => some .table
  | .objReserved0 _ _ => some .table
  | .objReserved1 _ _ => some .table
  | .objReserved2 _ _ => some .table
  | .objReserved3 _ _ => some .table
  | .objReserved5 _ _ => some .table
  | .objReserved6 _ _ => some .table
  | .objReserved7 _ _ => some .table
  | .objReserved9 _ _ => some .table
  | .objReservedA _ _ => some .table
  | .objReservedB _ _ => some .table
  | .objReservedD _ _ => some .table
  | .objReservedE _ _ => some .table
  | .objReservedF _ _ => some .table
  | .ptEnd => some .points
  | .ptPair _ _ => some .points
  | .vecEnd => some .vectors
  | .vecSeg _ _ _ _ => some .vectors
  | .polyHdr _ _ _ _ _ => some .header
  | .edgeEnd => some .edges
  | .edgeSeg _ _ => some .edges
  | .triggerRun => none
  | .clearBuffer _ => none
  | .setClip _ _ _ _ => none
  | .renderedScanline _ => none
  | .buildStaticPalette => none
  | .paletteWrite _ _ => none
  | .paletteColor _ => none
  | .compositeScanline _ => none
  | .hostWriteCmd _ _ => none
  | .hostWriteVram _ _ => none
  | .hostSetBufsel _ => none
  | .hostSetAlphamap _ => none

/-- The 16-bit words of a number, the first one its least significant 16 bits. -/
def splitWords : Nat → Nat → List Word
  | 0, _ => []
  | n + 1, w => BitVec.ofNat 16 w :: splitWords n (w / 65536)

/-- The list whose records have this many bits: 16 is an object table entry, 32 an edge pair, 64 a vector record.
Words alone do not say which list they stand in (R83), so this is the model's choice: log entry 12. -/
def tableContext (nbits : Nat) : Option Context :=
  if nbits = 16 then some .table
  else if nbits = 32 then some .edges
  else if nbits = 64 then some .vectors
  else none

/-- The instruction read from an opcode-table word of `nbits` bits (log entry 12). -/
def decodeTableWord (nbits w : Nat) : Option Instr :=
  match tableContext nbits with
  | none => none
  | some ctx =>
    match decode ctx (splitWords ctx.words w) with
    | .ok (i, _) => some i
    | .error _ => none

end Sys2Proof
end

