-- ==== Sys2Proof/Machine/Table.lean ====
section
/-! DEFINITION. The object table entries (R102 to R108). An entry of a pass starts its renderer at the sub-list address;
the renderer's records are then the pass's next records (log entry 1). -/

namespace Sys2Proof.Machine

/-- An entry of the object table, for the pass that is reading the table. -/
def inTable (s : State) (k : Pass → Result) : Result :=
  match s.pass with
  | none => .refused .noPass
  | some q =>
    match q.phase with
    | .table => k q
    | _ => .refused .outOfContext

/-- Dispatch to a renderer: the sub-list address is its record pointer (R102, R104). -/
def startObject (s : State) (phase : Phase) : Result :=
  inTable s fun q => .next (s.setPass (some { q with phase := phase }))

/-- An entry of a reserved type (R108): under FAULT the reason records the entry's index and its whole word; under SKIP
the entry has no effect and counts toward the cap. -/
def reservedObject (P : Params) (type : BitVec 4) (ign : BitVec 1) (addr : BitVec 11) (s : State) : Result :=
  inTable s fun q =>
    match P.unknownTypePolicy with
    | .fault => .next (s.raise (.reservedObjectType q.i (entryWord type ign addr)))
    | .skip => .next (endObject s q)

/-- `OBJ_END` (R103): return from Walk. -/
def execObjEnd (s : State) : Result := inTable s fun _ => .next (s.setPass none)

/-- `OBJ_POLYGON` (R106): Polygon(addr, D). Bit 11 is ignored (R102). -/
def execObjPolygon (_ign : BitVec 1) (addr : BitVec 11) (s : State) : Result := startObject s (.header addr.toNat)

/-- `OBJ_POINT` (R105): PointList(addr, D). -/
def execObjPoint (_ign : BitVec 1) (addr : BitVec 11) (s : State) : Result := startObject s (.points addr.toNat)

/-- `OBJ_VECTOR` (R107): VectorList(addr, D). -/
def execObjVector (_ign : BitVec 1) (addr : BitVec 11) (s : State) : Result := startObject s (.vectors addr.toNat)

/-- `OBJ_RESERVED_0`, type 0x0 (R108). -/
def execObjReserved0 (ign : BitVec 1) (addr : BitVec 11) (s : State) : Result :=
  reservedObject params 0x0#4 ign addr s

/-- `OBJ_RESERVED_1`, type 0x1 (R108). -/
def execObjReserved1 (ign : BitVec 1) (addr : BitVec 11) (s : State) : Result :=
  reservedObject params 0x1#4 ign addr s

/-- `OBJ_RESERVED_2`, type 0x2 (R108). -/
def execObjReserved2 (ign : BitVec 1) (addr : BitVec 11) (s : State) : Result :=
  reservedObject params 0x2#4 ign addr s

/-- `OBJ_RESERVED_3`, type 0x3 (R108). -/
def execObjReserved3 (ign : BitVec 1) (addr : BitVec 11) (s : State) : Result :=
  reservedObject params 0x3#4 ign addr s

/-- `OBJ_RESERVED_5`, type 0x5 (R108). -/
def execObjReserved5 (ign : BitVec 1) (addr : BitVec 11) (s : State) : Result :=
  reservedObject params 0x5#4 ign addr s

/-- `OBJ_RESERVED_6`, type 0x6 (R108). -/
def execObjReserved6 (ign : BitVec 1) (addr : BitVec 11) (s : State) : Result :=
  reservedObject params 0x6#4 ign addr s

/-- `OBJ_RESERVED_7`, type 0x7 (R108). -/
def execObjReserved7 (ign : BitVec 1) (addr : BitVec 11) (s : State) : Result :=
  reservedObject params 0x7#4 ign addr s

/-- `OBJ_RESERVED_9`, type 0x9 (R108). -/
def execObjReserved9 (ign : BitVec 1) (addr : BitVec 11) (s : State) : Result :=
  reservedObject params 0x9#4 ign addr s

/-- `OBJ_RESERVED_A`, type 0xA (R108). -/
def execObjReservedA (ign : BitVec 1) (addr : BitVec 11) (s : State) : Result :=
  reservedObject params 0xA#4 ign addr s

/-- `OBJ_RESERVED_B`, type 0xB (R108). -/
def execObjReservedB (ign : BitVec 1) (addr : BitVec 11) (s : State) : Result :=
  reservedObject params 0xB#4 ign addr s

/-- `OBJ_RESERVED_D`, type 0xD (R108). -/
def execObjReservedD (ign : BitVec 1) (addr : BitVec 11) (s : State) : Result :=
  reservedObject params 0xD#4 ign addr s

/-- `OBJ_RESERVED_E`, type 0xE (R108). -/
def execObjReservedE (ign : BitVec 1) (addr : BitVec 11) (s : State) : Result :=
  reservedObject params 0xE#4 ign addr s

/-- `OBJ_RESERVED_F`, type 0xF (R108). -/
def execObjReservedF (ign : BitVec 1) (addr : BitVec 11) (s : State) : Result :=
  reservedObject params 0xF#4 ign addr s

end Sys2Proof.Machine
end

