-- ==== Sys2Proof/Machine/Pass.lean ====
section
/-! DEFINITION. A pass (R100 to R110): reading the next record from the snapshot, one step of a pass, and TRIGGER_RUN,
the whole pass as one atomic operation (R12, R297, log entry 1). -/

namespace Sys2Proof.Machine

/-- The words of the snapshot from p on: at most n of them, none at or above the bound (R52, R53). -/
def snapWords (P : Params) (q : Pass) : Nat → Nat → List Word
  | 0, _ => []
  | n + 1, p => if p < P.cmdWords then Store.read 0#16 q.snap p :: snapWords P q n (p + 1) else []

/-- What a step of a pass does. -/
inductive Turn where
  /-- A record is executed. -/
  | record (i : Instr)
  /-- The record does not fit below the bound: the list, and with it the object, ends (R53). -/
  | listEnd
  /-- The walker ends without a terminator: the cap is reached, or no table word is left (R53, R101). -/
  | tableEnd
  /-- The polygon engine fills a row (R160). -/
  | row (g : Poly)
deriving DecidableEq, Repr

/-- The record of a list at index p of the snapshot, or the list's end at the bound (R53). -/
def readRecord (P : Params) (q : Pass) (ctx : Context) (p : Nat) : Turn :=
  match decode ctx (snapWords P q ctx.words p) with
  | .ok (i, _) => .record i
  | .error _ => .listEnd

/-- What the pass does next: the next record of the list being read (R101, R120, R140, R160, R165), or a row. -/
def nextTurn (P : Params) (q : Pass) : Turn :=
  match q.phase with
  | .table =>
    if q.i < Config.walkerCap then
      match readRecord P q .table q.i with
      | .record i => .record i
      | _ => .tableEnd
    else .tableEnd
  | .points p => readRecord P q .points p
  | .vectors p => readRecord P q .vectors p
  | .header a => readRecord P q .header a
  | .polygon g .row => .row g
  | .polygon g .firstA => readRecord P q .edges g.a.ptr
  | .polygon g .pullA => readRecord P q .edges g.a.ptr
  | .polygon g .firstB => readRecord P q .edges g.b.ptr
  | .polygon g .pullB => readRecord P q .edges g.b.ptr

/-- One step of the pass in progress, `run` being what a record does. -/
def passStep (run : Instr → State → Result) (P : Params) (s : State) (q : Pass) : Result :=
  match nextTurn P q with
  | .record i => run i s
  | .listEnd => .next (endObject s q)
  | .tableEnd => .next (s.setPass none)
  | .row g => .next (fillRow P s q g)

/-- What a display-list record does under given parameters. The host has no move inside a pass (R255). -/
def recordEffect (P : Params) (i : Instr) (s : State) : Result :=
  match i with
  | .objEnd => execObjEnd s
  | .objPolygon ign addr => execObjPolygon ign addr s
  | .objPoint ign addr => execObjPoint ign addr s
  | .objVector ign addr => execObjVector ign addr s
  | .objReserved0 ign addr => reservedObject P 0x0#4 ign addr s
  | .objReserved1 ign addr => reservedObject P 0x1#4 ign addr s
  | .objReserved2 ign addr => reservedObject P 0x2#4 ign addr s
  | .objReserved3 ign addr => reservedObject P 0x3#4 ign addr s
  | .objReserved5 ign addr => reservedObject P 0x5#4 ign addr s
  | .objReserved6 ign addr => reservedObject P 0x6#4 ign addr s
  | .objReserved7 ign addr => reservedObject P 0x7#4 ign addr s
  | .objReserved9 ign addr => reservedObject P 0x9#4 ign addr s
  | .objReservedA ign addr => reservedObject P 0xA#4 ign addr s
  | .objReservedB ign addr => reservedObject P 0xB#4 ign addr s
  | .objReservedD ign addr => reservedObject P 0xD#4 ign addr s
  | .objReservedE ign addr => reservedObject P 0xE#4 ign addr s
  | .objReservedF ign addr => reservedObject P 0xF#4 ign addr s
  | .ptEnd => execPtEnd s
  | .ptPair x yc => pointPair P x yc s
  | .vecEnd => execVecEnd s
  | .vecSeg ey syc slope sx => vectorSeg P ey syc slope sx s
  | .polyHdr _ sec x1 x2 syc => polyHeader P sec x1 x2 syc s
  | .edgeEnd => execEdgeEnd s
  | .edgeSeg slope endY => edgeSegment P slope endY s
  | .triggerRun => .refused .passInProgress
  | .clearBuffer _ => .refused .passInProgress
  | .setClip _ _ _ _ => .refused .passInProgress
  | .renderedScanline _ => .refused .passInProgress
  | .buildStaticPalette => .refused .passInProgress
  | .paletteWrite _ _ => .refused .passInProgress
  | .paletteColor _ => .refused .passInProgress
  | .compositeScanline _ => .refused .passInProgress
  | .hostWriteCmd _ _ => .refused .passInProgress
  | .hostWriteVram _ _ => .refused .passInProgress
  | .hostSetBufsel _ => .refused .passInProgress
  | .hostSetAlphamap _ => .refused .passInProgress

/-- At most n steps of the pass in progress; the pass has ended when no pass is in progress. -/
def runPass (P : Params) : Nat → State → Result
  | 0, s => .next s
  | n + 1, s =>
    match s.pass with
    | none => .next s
    | some q =>
      match passStep (recordEffect P) P s q with
      | .next t => runPass P n t
      | .fault f => .fault f
      | .refused r => .refused r

/-- The most steps one object takes, its entry among them: a list has fewer pairs than command memory has words, and a
polygon fills at most 512 rows and one more for each pull of edge A after row 383 (R110, R172). -/
def objectSteps (P : Params) : Nat := 2 * P.cmdWords + 1024

/-- The most steps of a pass: at most 2047 objects, and the step that ends the walk (R101, R110, log entry 18). -/
def passSteps (P : Params) : Nat := Config.walkerCap * objectSteps P + 1

/-- The pass at its start: the snapshot, the latched target, the walker at index 0 (R52, R100, R101, R291). -/
def Pass.start (P : Params) (s : State) (bufsel : BitVec 1) : Pass where
  snap := s.cmd
  target := drawIndex P bufsel
  i := 0
  phase := .table

/-- `TRIGGER_RUN()` (R100): "`bufsel` has no value: `Fault(BUFSEL_UNSET)` before any read of command memory", else the
whole pass. -/
def triggerRun (P : Params) (s : State) : Result :=
  hostOp s <|
    match s.bufsel with
    | none => .next (s.raise .bufselUnset)
    | some v => runPass P (passSteps P) (s.setPass (some (Pass.start P s v)))

/-- `TRIGGER_RUN` (R100). -/
def execTriggerRun (s : State) : Result := triggerRun params s

/-- The pass in which the words of an opcode-table row of this context are the next record, at index 0 (log entry 16):
the one in progress, or one latched with bufsel as it stands, 0 where it holds no value. -/
def passReading (P : Params) (s : State) (ctx : Context) : Pass :=
  let q := s.pass.getD (Pass.start P s (s.bufsel.getD 0#1))
  { q with
    i := 0
    phase :=
      match ctx with
      | .table => .table
      | .points => .points 0
      | .vectors => .vectors 0
      | .header => .header 0
      | .edges => .polygon { color := 0#6, y := 0, a := ⟨0, 0, none⟩, b := ⟨0, 0, none⟩ } .firstA }

/-- Words written from index p on. -/
def writeWords : List Word → Nat → Store Word → Store Word
  | [], _, m => m
  | w :: rest, p, m => writeWords rest (p + 1) (Store.write 0#16 m p w)

/-- The state with words as the next record of a list: in command memory and in the pass's snapshot at index 0. -/
def placeRecord (P : Params) (s : State) (ctx : Context) (ws : List Word) : State :=
  let q := passReading P s ctx
  { s with cmd := writeWords ws 0 s.cmd, pass := some { q with snap := writeWords ws 0 q.snap } }

end Sys2Proof.Machine
end

