-- ==== Sys2Proof/Machine/Dispatch.lean ====
section
/-! DEFINITION. One arm per instruction: its meaning, called directly. -/

namespace Sys2Proof.Machine

def exec (i : Instr) (s : State) : Host.Outcome State Fault Refusal :=
  match i with
  -- object table (R102 to R108)
  | .objEnd => Sys2Proof.Machine.execObjEnd s
  | .objPolygon ign addr => Sys2Proof.Machine.execObjPolygon ign addr s
  | .objPoint ign addr => Sys2Proof.Machine.execObjPoint ign addr s
  | .objVector ign addr => Sys2Proof.Machine.execObjVector ign addr s
  | .objReserved0 ign addr => Sys2Proof.Machine.execObjReserved0 ign addr s
  | .objReserved1 ign addr => Sys2Proof.Machine.execObjReserved1 ign addr s
  | .objReserved2 ign addr => Sys2Proof.Machine.execObjReserved2 ign addr s
  | .objReserved3 ign addr => Sys2Proof.Machine.execObjReserved3 ign addr s
  | .objReserved5 ign addr => Sys2Proof.Machine.execObjReserved5 ign addr s
  | .objReserved6 ign addr => Sys2Proof.Machine.execObjReserved6 ign addr s
  | .objReserved7 ign addr => Sys2Proof.Machine.execObjReserved7 ign addr s
  | .objReserved9 ign addr => Sys2Proof.Machine.execObjReserved9 ign addr s
  | .objReservedA ign addr => Sys2Proof.Machine.execObjReservedA ign addr s
  | .objReservedB ign addr => Sys2Proof.Machine.execObjReservedB ign addr s
  | .objReservedD ign addr => Sys2Proof.Machine.execObjReservedD ign addr s
  | .objReservedE ign addr => Sys2Proof.Machine.execObjReservedE ign addr s
  | .objReservedF ign addr => Sys2Proof.Machine.execObjReservedF ign addr s
  -- point, vector and edge lists (R120 to R174)
  | .ptEnd => Sys2Proof.Machine.execPtEnd s
  | .ptPair x yc => Sys2Proof.Machine.execPtPair x yc s
  | .vecEnd => Sys2Proof.Machine.execVecEnd s
  | .vecSeg ey syc slope sx => Sys2Proof.Machine.execVecSeg ey syc slope sx s
  | .polyHdr ign sec x1 x2 syc => Sys2Proof.Machine.execPolyHdr ign sec x1 x2 syc s
  | .edgeEnd => Sys2Proof.Machine.execEdgeEnd s
  | .edgeSeg slope endY => Sys2Proof.Machine.execEdgeSeg slope endY s
  -- host operations (R254)
  | .triggerRun => Sys2Proof.Machine.execTriggerRun s
  | .clearBuffer which => Sys2Proof.Machine.execClearBuffer which s
  | .setClip xmin ymin xmax ymax => Sys2Proof.Machine.execSetClip xmin ymin xmax ymax s
  | .renderedScanline y => Sys2Proof.Machine.execRenderedScanline y s
  | .buildStaticPalette => Sys2Proof.Machine.execBuildStaticPalette s
  | .paletteWrite offset data => Sys2Proof.Machine.execPaletteWrite offset data s
  | .paletteColor index => Sys2Proof.Machine.execPaletteColor index s
  | .compositeScanline y => Sys2Proof.Machine.execCompositeScanline y s
  | .hostWriteCmd idx w => Sys2Proof.Machine.execHostWriteCmd idx w s
  | .hostWriteVram idx b => Sys2Proof.Machine.execHostWriteVram idx b s
  | .hostSetBufsel v => Sys2Proof.Machine.execHostSetBufsel v s
  | .hostSetAlphamap v => Sys2Proof.Machine.execHostSetAlphamap v s

end Sys2Proof.Machine
end

