-- ==== Sys2Proof/Machine/Step.lean ====
section
/-! DEFINITION. One step of the machine: the next record of the pass in progress, or the host's next operation, or
idling (R12, R20, R284, log entries 1 and 2). -/

namespace Sys2Proof.Machine

/-- One step. While a pass is in progress the rasterizer executes its next record or fills a polygon row; otherwise the
next host operation is taken from `pending` and executed; with none pending the block idles and keeps all its state. -/
def step (s : State) : Host.Outcome State Fault Refusal :=
  match s.pass with
  | some q => passStep exec params s q
  | none =>
    match s.pending with
    | [] => .next s
    | op :: rest => exec op (s.setPending rest)

/-- The state with an opcode-table row's words as the next record of the pass (log entries 12 and 16). -/
def State.withFetchWord (s : State) (nbits w : Nat) : State :=
  match tableContext nbits with
  | none => s
  | some ctx => placeRecord params s ctx (splitWords ctx.words w)

end Sys2Proof.Machine
end

