-- ==== Sys2Proof/Machine/Pseudocode.lean ====
section
/-! DEFINITION. The spec's pseudocode of a whole pass, loop by loop (R101, R120, R140, R160, R165, R168), for a clip
rectangle that holds a value. The machine runs a pass record by record (Machine/Pass.lean); this second description
is what claims about TRIGGER_RUN compare it with. `S` is the snapshot, the buffer is the draw target's. Each loop takes a
bound on its rounds, which R110 and R172 make large enough. -/

namespace Sys2Proof.Machine

/-- `CMD(i)` of a snapshot (R10). -/
def snapWord (S : Store Word) (i : Nat) : Word := Store.read 0#16 S i

/-- `PointList` (R120, R121, R122). -/
def pointList (P : Params) (S : Store Word) (clip : Clip) : Nat → Nat → Canvas → Canvas
  | 0, _, buf => buf
  | n + 1, p, buf =>
    if ¬ p < P.cmdWords then buf
    else if snapWord S p = 0xFFFF#16 then buf
    else if ¬ p + 1 < P.cmdWords then buf
    else
      let yc := snapWord S (p + 1)
      pointList P S clip n (p + 2) (buf.plot P clip (wordColor yc) (pixel P (snapWord S p), pixel P yc))

/-- `VectorList` (R140, R141, R142). -/
def vectorList (P : Params) (S : Store Word) (clip : Clip) : Nat → Nat → Canvas → Canvas
  | 0, _, buf => buf
  | n + 1, p, buf =>
    if ¬ p < P.cmdWords then buf
    else if snapWord S p = 0xFFFF#16 then buf
    else if ¬ p + 3 < P.cmdWords then buf
    else
      let syc := snapWord S (p + 1)
      vectorList P S clip n (p + 4)
        (buf.plots P clip (wordColor syc) (segmentPixels P (snapWord S p) syc (snapWord S (p + 2)) (snapWord S (p + 3))))

/-- `Pull(E)` (R165): none when the list has ended. -/
def pull (P : Params) (S : Store Word) (e : Edge) : Option Edge :=
  if ¬ e.ptr + 1 < P.cmdWords then none
  else if snapWord S e.ptr = 0xFFFF#16 ∧ snapWord S (e.ptr + 1) = 0xFFFF#16 then none
  else some (e.load (snapWord S e.ptr) (snapWord S (e.ptr + 1)))

/-- `Step(E, y)` (R168): none when the polygon ends. -/
def edgeStep (P : Params) (S : Store Word) (e : Edge) (y : Int) : Option Edge :=
  if e.ended P y then pull P S e else some e.advance

/-- The loop of `Polygon` (R160, R169). -/
def polygonRows (P : Params) (S : Store Word) (clip : Clip) (color : BitVec 6) :
    Nat → Int → Edge → Edge → Canvas → Canvas
  | 0, _, _, _, buf => buf
  | n + 1, y, a, b, buf =>
    let drawn := buf.plots P clip color (rowPixels P clip y a.x b.x)
    match edgeStep P S a (y + 1) with
    | none => drawn
    | some a' =>
      match edgeStep P S b (y + 1) with
      | none => drawn
      | some b' => polygonRows P S clip color n (y + 1) a' b' drawn

/-- `Polygon` (R160, R161). -/
def polygonFill (P : Params) (S : Store Word) (clip : Clip) (n at_ : Nat) (buf : Canvas) : Canvas :=
  if ¬ at_ + 3 < P.cmdWords then buf
  else
    let g := Poly.start P at_ (wordAddr (snapWord S at_)) (snapWord S (at_ + 1)) (snapWord S (at_ + 2))
      (snapWord S (at_ + 3))
    match pull P S g.a with
    | none => buf
    | some a =>
      match pull P S g.b with
      | none => buf
      | some b => polygonRows P S clip g.color n g.y a b buf

/-- One object of a type that draws; none for a reserved type (R82, R104 to R107). -/
def drawObject (P : Params) (S : Store Word) (clip : Clip) (w : Word) (buf : Canvas) : Option Canvas :=
  if w &&& 0xF000#16 = 0x8000#16 then some (pointList P S clip (objectSteps P) (wordAddr w).toNat buf)
  else if w &&& 0xF000#16 = 0x4000#16 then some (polygonFill P S clip (objectSteps P) (wordAddr w).toNat buf)
  else if w &&& 0xF000#16 = 0xC000#16 then some (vectorList P S clip (objectSteps P) (wordAddr w).toNat buf)
  else none

/-- `Walk` from the entry at index i, with n entries left under the cap (R101, R103, R108, R109): the draw target, and the
fault that ended the pass, if one did. -/
def walk (P : Params) (S : Store Word) (clip : Clip) : Nat → Nat → Canvas → Canvas × Option Fault
  | 0, _, buf => (buf, none)
  | n + 1, i, buf =>
    if ¬ i < P.cmdWords then (buf, none)
    else
      let w := snapWord S i
      if w = 0xFFFF#16 then (buf, none)
      else
        match drawObject P S clip w buf with
        | some drawn => walk P S clip n (i + 1) drawn
        | none =>
          match P.unknownTypePolicy with
          | .fault => (buf, some (.reservedObjectType i w))
          | .skip => walk P S clip n (i + 1) buf

/-- The state after a whole pass (R100), for a buffer select and a clip rectangle that hold values. -/
def wholePass (P : Params) (s : State) (bufsel : BitVec 1) (clip : Clip) : State :=
  let target := drawIndex P bufsel
  let result := walk P s.cmd clip Config.walkerCap 0 (s.buf target)
  let drawn := s.setBuf target result.1
  match result.2 with
  | none => drawn
  | some f => drawn.raise f

end Sys2Proof.Machine
end

