-- ==== Sys2Proof/Safety.lean ====
section
/-! DEFINITION. What counts as a good state and a safe run, in the terms claims use: the absence of a
fault and the observation of a run (R257), the clean-start premise (R258), and the invariants of the machine's state. -/

namespace Sys2Proof.Machine

/-- No fault is recorded: only such a run has an observation (R257). -/
def State.faultFree (s : State) : Prop := s.faults = []

/-! ### Runs and the clean-start premise -/

/-- A start state of a run (R35, R257): the state at start-up with command memory, videoram and the PROM as the host
supplies them. -/
def State.isStart (s : State) : Prop :=
  Memory.wf s = true ∧ s = { State.reset with cmd := s.cmd, videoram := s.videoram, colorProm := s.colorProm }

/-- A run (R257): host operations applied in order; the first refusal ends it. -/
def runOps : List Instr → State → Result
  | [], s => .next s
  | op :: rest, s =>
    match exec op s with
    | .next t => runOps rest t
    | .fault f => .fault f
    | .refused r => .refused r

/-- The observation of a run (R257): the values its read operations return and the final fault set; none for a run that
reached a refusal or recorded a fault. -/
def observation (ops : List Instr) (s : State) : Option (List Observation × List Fault) :=
  match runOps ops s with
  | .next t => if t.faults = [] then some (t.observed, t.faults) else none
  | .fault _ => none
  | .refused _ => none

/-- What a claim reads, as far as the clean-start premise asks (R258). -/
structure ClaimReads where
  /-- It reads a palette entry of 64..95. -/
  staticEntries : Bool
  /-- It reads a row that a pass may not fully cover. -/
  uncoveredRows : Bool
deriving DecidableEq, Repr

/-- The clean-start premise (R258) on the state t that a run of host operations leaves, for what a claim reads: SET_CLIP
has been made; BUILD_STATIC_PALETTE has been made if the claim reads entries 64..95; both buffers have been cleared if it
reads a row that a pass may not fully cover; `bufsel` and `alphamap` hold values; the fault set is empty. -/
def cleanStart (reads : ClaimReads) (ops : List Instr) (t : State) : Prop :=
  (∃ s : State, s.isStart ∧ runOps ops s = .next t) ∧ (∀ op ∈ ops, op.context = none) ∧
    (∃ xmin ymin xmax ymax, .setClip xmin ymin xmax ymax ∈ ops) ∧
    (reads.staticEntries = true → .buildStaticPalette ∈ ops) ∧
    (reads.uncoveredRows = true → .clearBuffer 0 ∈ ops ∧ .clearBuffer 1 ∈ ops) ∧
    t.bufsel.isSome = true ∧ t.alphamap.isSome = true ∧ t.faultFree

/-- Every cell of row y of a buffer holds a value (R195): what a clear leaves of every row, and every pass keeps. -/
def State.rowWritten (s : State) (b : BitVec 1) (y : Int) : Prop :=
  ∀ x : Nat, x < Config.canvasW → (s.cell params b x y).isSome = true

/-! ### Invariants -/

/-- The clip rectangle lies inside the canvas (R26). -/
def State.clipLegal (s : State) : Prop := ∀ c, s.clip = some c → c.legal params = true

/-- Every cell that holds a value holds 0..63 (R24, R190, R192). -/
def State.sixBitCells (s : State) : Prop :=
  ∀ (b : BitVec 1) (x y : Int) (v : Byte), s.cell params b x y = some v → v.toNat < 64

/-- A record pointer of 12 bits: 0..2048 (R22). -/
def pointerFits (p : Nat) : Prop := p ≤ params.cmdWords

/-- The pointers of a phase fit (R22). -/
def Phase.fits : Phase → Prop
  | .table => True
  | .points p => pointerFits p
  | .vectors p => pointerFits p
  | .header a => pointerFits a
  | .polygon g _ => pointerFits g.a.ptr ∧ pointerFits g.b.ptr

/-- A pass in progress reads command memory as it stands (R52), its walker index is below the cap while an object is
drawn and at most the cap (R101), and its pointers fit (R21, R22). -/
def Pass.sound (s : State) (q : Pass) : Prop :=
  q.snap = s.cmd ∧ q.i ≤ Config.walkerCap ∧ (q.phase ≠ .table → q.i < Config.walkerCap) ∧ q.phase.fits

/-- The invariant of the machine: canonical memories (R23 to R30), a legal clip rectangle (R26), cells of six bits
(R192), a fault set without repeats (R32), and a sound pass (R21, R22, R52). -/
def State.inv (s : State) : Prop :=
  Memory.wf s = true ∧ s.clipLegal ∧ s.sixBitCells ∧ s.faults.Nodup ∧ ∀ q, s.pass = some q → q.sound s

end Sys2Proof.Machine
end

