-- ==== Sys2Proof/Certificates/Slice0/Obligations.lean ====
section
/-! DEFINITION. The statements for the provers. Those about `exec` and `step` are about the machine at the default
parameters of R7 (log entry 9); those with a `P : Params` hold for every choice of the parameters they do not name.
Where a statement says `t = { s with … := t.…, … }`, every field not listed is unchanged: that is its frame. -/

open Sys2Proof Sys2Proof.Machine

namespace Sys2Proof.Claims

/-- The thirteen entries of a reserved type, each with its type field (R82, R108). -/
def reservedEntries (ign : BitVec 1) (addr : BitVec 11) : List (Instr × BitVec 4) :=
  [(.objReserved0 ign addr, 0x0#4), (.objReserved1 ign addr, 0x1#4), (.objReserved2 ign addr, 0x2#4),
    (.objReserved3 ign addr, 0x3#4), (.objReserved5 ign addr, 0x5#4), (.objReserved6 ign addr, 0x6#4),
    (.objReserved7 ign addr, 0x7#4), (.objReserved9 ign addr, 0x9#4), (.objReservedA ign addr, 0xA#4),
    (.objReservedB ign addr, 0xB#4), (.objReservedD ign addr, 0xD#4), (.objReservedE ign addr, 0xE#4),
    (.objReservedF ign addr, 0xF#4)]

/-- A pixel is inside a rectangle's inclusive bounds (R191). -/
abbrev inside (c : Clip) (x y : Int) : Prop := c.xmin ≤ x ∧ x ≤ c.xmax ∧ c.ymin ≤ y ∧ y ≤ c.ymax

/-- The colour of a YC word as a cell's byte (R72, R192). -/
abbrev colorByte (yc : Word) : Byte := (yc &&& 0x3F#16).setWidth 8

/-- Row y of a buffer holds the bytes of a list, column by column (R195). -/
def rowIs (s : State) (b : BitVec 1) (y : Int) (row : List Byte) : Prop :=
  row.length = 256 ∧ ∀ (x : Nat) (h : x < row.length), s.cell params b x y = some row[x]

/-- Column x is the first of row y of a buffer whose cell holds no value (R195). -/
def firstUnwritten (s : State) (b : BitVec 1) (y : Int) (x : Nat) : Prop :=
  x < 256 ∧ s.cell params b x y = none ∧ ∀ x' : Nat, x' < x → (s.cell params b x' y).isSome = true

/-- One composited pixel (R230 to R235): tile pixels of pen 0 leave the canvas byte. -/
def compositePixel (s : State) (alphamap : Byte) (y x : Nat) (canvas : Byte) : Byte :=
  let cell := s.vram (y / 8 * 32 + x / 8)
  let pen := Config.tilePen (cell.setWidth 6) (BitVec.ofNat 3 (y % 8)) (BitVec.ofNat 3 (x % 8))
  let color := cell.toNat / 64 ||| alphamap.toNat % 2 * 4
  if pen = 0#2 then canvas else BitVec.ofNat 8 (64 + 4 * color + pen.toNat)

/-- The number of a palette write's inverted composite (R213). -/
def paletteNumber (offset data : Nat) : Nat := (data * 2 + offset % 2) ^^^ 0x1FF

end Sys2Proof.Claims

open Sys2Proof.Claims

/-! ### Encoding -/

/-- Decoding an encoded well-formed record in its list gives the record back, and the words after it (R71, R74 to R77). -/
def Obligations.DecodeEncodeRoundTrip : Prop :=
  ∀ (i : Instr) (ctx : Context) (rest : List Word), i.wellFormed = true → i.context = some ctx →
    decode ctx (encode i ++ rest) = .ok (i, rest)

/-- Whatever is decoded is well formed, stands in the list read, and encodes to the words it was read from. -/
def Obligations.EncodeDecodeRoundTrip : Prop :=
  ∀ (ctx : Context) (ws rest : List Word) (i : Instr), decode ctx ws = .ok (i, rest) →
    encode i ++ rest = ws ∧ i.wellFormed = true ∧ i.context = some ctx

/-- The object-type map over all words (R82). -/
def Obligations.ObjectTypeMap : Prop :=
  ∀ w : Word,
    let ign := w.extractLsb' 11 1
    let addr := w.extractLsb' 0 11
    (w = 0xFFFF#16 → decodeEntry w = .objEnd) ∧
    (w &&& 0xF000#16 = 0x4000#16 → decodeEntry w = .objPolygon ign addr) ∧
    (w &&& 0xF000#16 = 0x8000#16 → decodeEntry w = .objPoint ign addr) ∧
    (w &&& 0xF000#16 = 0xC000#16 → decodeEntry w = .objVector ign addr) ∧
    ∀ e ∈ reservedEntries ign addr, w ≠ 0xFFFF#16 → w &&& 0xF000#16 = e.2.setWidth 16 <<< 12 → decodeEntry w = e.1

/-- Words written out from the spec's encodings decode to the records they stand for (R71 to R77). That
`decodeTableWord` reads 16 bits as a table entry and 32 bits as an edge pair is MODEL'S CHOICE, log entry 12: words alone
do not say which list they stand in (R83). -/
def Obligations.SampleWordsDecode : Prop :=
  decodeTableWord 16 0xFFFF = some .objEnd ∧
  decodeTableWord 16 0x4200 = some (.objPolygon 0 0x200) ∧
  decodeTableWord 16 0x8100 = some (.objPoint 0 0x100) ∧
  decodeTableWord 16 0x8804 = some (.objPoint 1 0x004) ∧
  decodeTableWord 16 0xC300 = some (.objVector 0 0x300) ∧
  decodeTableWord 16 0x0123 = some (.objReserved0 0 0x123) ∧
  decodeTableWord 32 0xFFFFFFFF = some .edgeEnd ∧
  decodeTableWord 32 0x44800080 = some (.edgeSeg 0x0080 0x4480) ∧
  decode .points [0x4500, 0x4189] = .ok (.ptPair 0x4500 0x4189, []) ∧
  decode .vectors [0x4000, 0x4005, 0xFEC0, 0x4000] = .ok (.vecSeg 0x4000 0x4005 0xFEC0 0x4000, []) ∧
  decode .header [0xF80C, 0x4500, 0x4A00, 0x4007] = .ok (.polyHdr 0x1F 0x00C 0x4500 0x4A00 0x4007, [])

/-- The ignored bits of an entry and of a header's first word change nothing (R84). -/
def Obligations.IgnoredBitsChangeNothing : Prop :=
  ∀ (s : State) (i j : BitVec 1) (k l : BitVec 5) (addr sec : BitVec 11) (x1 x2 syc : Word),
    exec (.objPoint i addr) s = exec (.objPoint j addr) s ∧
    exec (.objVector i addr) s = exec (.objVector j addr) s ∧
    exec (.objPolygon i addr) s = exec (.objPolygon j addr) s ∧
    exec (.polyHdr k sec x1 x2 syc) s = exec (.polyHdr l sec x1 x2 syc) s

/-! ### Operand forms -/

/-- The pixel transform under both readings of a raw word, with its range (R14). -/
def Obligations.PixelTransform : Prop :=
  ∀ (P : Params) (w : Word),
    (P.rawSigned = false → pixel P w = ((w.toNat >>> 7 : Nat) : Int) - 128 ∧ -128 ≤ pixel P w ∧ pixel P w ≤ 383) ∧
    (P.rawSigned = true → pixel P w = w.toInt >>> (7 : Nat) - 128 ∧ -384 ≤ pixel P w ∧ pixel P w ≤ 127) ∧
    params.rawSigned = false

/-- `RAW(p)` is the exact encoding of pixel p (R15). -/
def Obligations.RawEncodesPixel : Prop :=
  ∀ p : Int, -128 ≤ p → p ≤ 383 → pixel params (rawOfPixel p) = p

/-- The scanline count of a segment in both modes, with its ranges; the default mode is RAW (R143). -/
def Obligations.LineCountModes : Prop :=
  ∀ (P : Params) (ey syc : Word),
    (P.lineDyMode = .raw → lineCount P ey syc = rawValue P ey - rawValue P syc + 1 ∧
      -65534 ≤ lineCount P ey syc ∧ lineCount P ey syc ≤ 65536) ∧
    (P.lineDyMode = .pixel → lineCount P ey syc = pixel P ey - pixel P syc + 1 ∧
      -510 ≤ lineCount P ey syc ∧ lineCount P ey syc ≤ 512) ∧
    params.lineDyMode = .raw

/-- The end X of a segment is reduced modulo 2^16 before the transform, not saturated, and the segment is drawn to the
wrapped column (R156). -/
def Obligations.LineEndXWraps : Prop :=
  ∀ (P : Params) (ey syc slope sx : Word),
    ((lineEndX P ey syc slope sx).toNat : Int) = (rawValue P sx + slope.toInt * lineCount P ey syc) % 65536 ∧
      segmentPixels P ey syc slope sx =
        P.lineStepper (pixel P sx) (pixel P syc) (pixel P (lineEndX P ey syc slope sx)) (pixel P ey)

/-- The X accumulator is reduced modulo 2^16, not saturated: pixel −128 wraps to 383 and back (R174). -/
def Obligations.XAccumulatorWraps : Prop :=
  (∀ (x : BitVec Config.xaccWidth) (slope : Word),
    ((advanceX x slope).toNat : Int) = ((x.toNat : Int) + slope.toInt) % 65536) ∧
  pixel params (advanceX 0x0000#16 0xFFFF#16) = 383 ∧ pixel params (advanceX 0xFFFF#16 0x0001#16) = -128

/-- The default stepper: it starts at (x0, y0) and ends at (x1, y1), plots max(|x1 − x0|, |y1 − y0|) + 1 pixels, and its
k-th pixel is k steps from the start along the major axis (R150). The stepper is the spec's own choice: R154 gives it
"from general knowledge, not in source". -/
def Obligations.StepperPlotsSegment : Prop :=
  ∀ x0 y0 x1 y1 : Int,
    let pixels := bresenham x0 y0 x1 y1
    pixels.length = max (x1 - x0).natAbs (y1 - y0).natAbs + 1 ∧
    pixels.head? = some (x0, y0) ∧ pixels.getLast? = some (x1, y1) ∧
    ∀ (k : Nat) (h : k < pixels.length),
      ((y1 - y0).natAbs ≤ (x1 - x0).natAbs → (pixels[k]).1 = x0 + (if x0 < x1 then (k : Int) else -(k : Int))) ∧
      ((x1 - x0).natAbs ≤ (y1 - y0).natAbs → (pixels[k]).2 = y0 + (if y0 < y1 then (k : Int) else -(k : Int)))

/-- A polygon row in the vertical clip range gets the columns above its lower end up to its upper end, one pixel each,
under either clip mode. Under CLAMP the ends are clamped first: column xmin is never filled, and spans clamped away fill
nothing (R170, which the spec derives from R169). -/
def Obligations.SpanExcludesLeftEnd : Prop :=
  ∀ (P : Params) (c : Clip) (y : Int) (xa xb : BitVec Config.xaccWidth), c.ymin ≤ y → y ≤ c.ymax →
    let row := rowPixels P c y xa xb
    let lo := min (pixel P xa) (pixel P xb)
    let hi := max (pixel P xa) (pixel P xb)
    let clampedLo := max lo c.xmin
    let clampedHi := min hi c.xmax
    (P.polyHClipMode = .clamp →
      row.length = (clampedHi - clampedLo).toNat ∧
      (∀ px py, (px, py) ∈ row ↔ py = y ∧ clampedLo < px ∧ px ≤ clampedHi) ∧
      (∀ py, (c.xmin, py) ∉ row) ∧ (clampedHi ≤ c.xmin → row = []) ∧ (c.xmax ≤ clampedLo → row = [])) ∧
    (P.polyHClipMode = .perPixel →
      row.length = (hi - lo).toNat ∧ ∀ px py, (px, py) ∈ row ↔ py = y ∧ lo < px ∧ px ≤ hi)

/-- The draw and display targets are the two different buffers, under either polarity; by default the draw target is
buffer `bufsel` (R193, R25). -/
def Obligations.DrawAndDisplayDiffer : Prop :=
  ∀ (P : Params) (v : BitVec 1),
    drawIndex P v ≠ displayIndex P v ∧ drawIndex P (~~~v) = displayIndex P v ∧ drawIndex params v = v

/-! ### The object table -/

/-- OBJ_END is the word 0xFFFF alone; it ends the pass and changes nothing else (R103). -/
def Obligations.ObjEndEndsPass : Prop :=
  (∀ w : Word, decodeEntry w = .objEnd ↔ w = 0xFFFF#16) ∧
  ∀ (s : State) (q : Pass), s.pass = some q → q.phase = .table →
    exec .objEnd s = .next { s with pass := none }

/-- OBJ_POINT, OBJ_VECTOR and OBJ_POLYGON hand the sub-list address to their renderer (R104 to R107): no other part of
the pass and no other state changes. The rules give an entry the whole drawing of its list: that the entry itself changes
the phase alone and leaves the list to later records is MODEL'S CHOICE, log entry 1. -/
def Obligations.EntriesStartRenderers : Prop :=
  ∀ (s : State) (q : Pass) (ign : BitVec 1) (addr : BitVec 11), s.pass = some q → q.phase = .table →
    exec (.objPoint ign addr) s = .next { s with pass := some { q with phase := .points addr.toNat } } ∧
    exec (.objVector ign addr) s = .next { s with pass := some { q with phase := .vectors addr.toNat } } ∧
    exec (.objPolygon ign addr) s = .next { s with pass := some { q with phase := .header addr.toNat } }

/-- A reserved type records RESERVED_OBJECT_TYPE with the entry's index and word and ends the pass under the default
policy FAULT; under SKIP it has no effect and counts toward the cap (R108). That the pass ends whether or not its reason is
new (R109, R270, against R101's "if faults changed") is the model's reading, log entry 5. -/
def Obligations.ReservedTypesFault : Prop :=
  ∀ (s : State) (q : Pass) (ign : BitVec 1) (addr : BitVec 11), s.pass = some q → q.phase = .table →
    ∀ e ∈ reservedEntries ign addr,
      exec e.1 s = .next { s with
        faults := addFault s.faults (.reservedObjectType q.i (e.2 ++ ign ++ addr)), pass := none } ∧
      recordEffect { params with unknownTypePolicy := .skip } e.1 s =
        .next { s with pass := some { q with i := q.i + 1, phase := .table } }

/-- A terminator of a point list, a vector list or an edge list ends the object, drawing nothing; the walker goes on
with the next entry (R121, R141, R166, R101). That a terminator is a step of its own is MODEL'S CHOICE, log entry 1. -/
def Obligations.TerminatorsEndObject : Prop :=
  ∀ (s : State) (q : Pass), s.pass = some q →
    let after := { s with pass := some { q with i := q.i + 1, phase := .table } }
    (∀ p, q.phase = .points p → exec .ptEnd s = .next after) ∧
    (∀ p, q.phase = .vectors p → exec .vecEnd s = .next after) ∧
    (∀ g stage, q.phase = .polygon g stage → stage ≠ .row → exec .edgeEnd s = .next after)

/-! ### Drawing records -/

/-- PT_PAIR writes the cell (T(x), T(yc)) of the draw target with the low six bits of yc iff it is inside the clip
rectangle, and goes on two words further; nothing else changes (R122, R123, R191). That a pair is a step of its own is
MODEL'S CHOICE, log entry 1. -/
def Obligations.PointPairWritesCell : Prop :=
  ∀ (s : State) (q : Pass) (p : Nat) (c : Clip) (x yc : Word), s.pass = some q → q.phase = .points p →
    s.clip = some c → s.clipLegal →
    ∃ t, exec (.ptPair x yc) s = .next t ∧
      t = { s with buf0 := t.buf0, buf1 := t.buf1, pass := some { q with phase := .points (p + 2) } } ∧
      ∀ (b : BitVec 1) (px py : Int), t.cell params b px py =
        if b = q.target ∧ px = pixel params x ∧ py = pixel params yc ∧ inside c px py then some (colorByte yc)
        else s.cell params b px py

/-- VEC_SEG draws the stepper's pixels from (T(sx), T(syc)) to (T(end X), T(ey)) in the draw target, each clipped by
itself, with the low six bits of syc, and goes on four words further; nothing else changes (R142, R155). The stepper is
the spec's own choice: R154 gives it "from general knowledge, not in source". That a segment is a step of its own is
MODEL'S CHOICE, log entry 1. -/
def Obligations.VectorSegmentDrawsLine : Prop :=
  ∀ (s : State) (q : Pass) (p : Nat) (c : Clip) (ey syc slope sx : Word), s.pass = some q → q.phase = .vectors p →
    s.clip = some c → s.clipLegal →
    let endX : Word := BitVec.ofInt 16 (sx.toNat + slope.toInt * ((ey.toNat : Int) - syc.toNat + 1))
    ∃ t, exec (.vecSeg ey syc slope sx) s = .next t ∧
      t = { s with buf0 := t.buf0, buf1 := t.buf1, pass := some { q with phase := .vectors (p + 4) } } ∧
      ∀ (b : BitVec 1) (px py : Int), t.cell params b px py =
        if b = q.target ∧
            (px, py) ∈ bresenham (pixel params sx) (pixel params syc) (pixel params endX) (pixel params ey) ∧ inside c px py
        then some (colorByte syc) else s.cell params b px py

/-- POLY_HDR starts both edges: A after the header with startX1, B at the secondary pointer with startX2, no segment in
either, the scanline at T(startYColor) and the colour its low six bits (R161; which start X is whose is "the spec's
reading", D9). R160 gives POLY_HDR the whole scan-fill: that the header itself changes the phase alone and leaves the
pulls and the rows to later steps is MODEL'S CHOICE, log entry 14. -/
def Obligations.PolygonHeaderStartsEdges : Prop :=
  ∀ (s : State) (q : Pass) (a : Nat) (ign : BitVec 5) (sec : BitVec 11) (x1 x2 syc : Word), s.pass = some q →
    q.phase = .header a →
    ∃ g : Poly, exec (.polyHdr ign sec x1 x2 syc) s =
        .next { s with pass := some { q with phase := .polygon g .firstA } } ∧
      g.a = ⟨a + 4, x1, none⟩ ∧ g.b = ⟨sec.toNat, x2, none⟩ ∧ g.y = pixel params syc ∧
      g.color.toNat = syc.toNat % 64

/-- EDGE_SEG loads slope and endY into the edge that pulls, moves its pointer two words and does not change its X; after
A's first pull B pulls, after B's pull a row is filled, after a later pull of A edge B steps (R165, R167, R168). That the
loop of R160 is cut at the edge pairs is MODEL'S CHOICE, log entry 14. -/
def Obligations.EdgeSegmentLoads : Prop :=
  ∀ (s : State) (q : Pass) (g : Poly) (stage : PolyPhase) (slope endY : Word), s.pass = some q →
    q.phase = .polygon g stage →
    let loaded (e : Edge) : Edge := { ptr := e.ptr + 2, x := e.x, seg := some { slope := slope, endY := endY } }
    let onward (ph : Phase) : State := { s with pass := some { q with phase := ph } }
    (stage = .firstA → exec (.edgeSeg slope endY) s = .next (onward (.polygon { g with a := loaded g.a } .firstB))) ∧
    (stage = .firstB → exec (.edgeSeg slope endY) s = .next (onward (.polygon { g with b := loaded g.b } .row))) ∧
    (stage = .pullB → exec (.edgeSeg slope endY) s = .next (onward (.polygon { g with b := loaded g.b } .row))) ∧
    (stage = .pullA → exec (.edgeSeg slope endY) s = .next (onward (stepB params { g with a := loaded g.a })))

/-- The scanline step of the edges: an edge whose segment has ended pulls and its X is not advanced; otherwise X
advances by the slope; A steps before B (R168). That a pull is left to the next record is MODEL'S CHOICE, log entry 14. -/
def Obligations.EdgeStepRule : Prop :=
  ∀ (P : Params) (g : Poly) (sa sb : Segment), g.a.seg = some sa → g.b.seg = some sb →
    let a' := { g.a with x := advanceX g.a.x sa.slope }
    let b' := { g.b with x := advanceX g.b.x sb.slope }
    (g.y > pixel P sa.endY → stepA P g = .polygon g .pullA) ∧
    (g.y ≤ pixel P sa.endY → g.y > pixel P sb.endY → stepA P g = .polygon { g with a := a' } .pullB) ∧
    (g.y ≤ pixel P sa.endY → g.y ≤ pixel P sb.endY → stepA P g = .polygon { g with a := a', b := b' } .row) ∧
    (g.y > pixel P sb.endY → stepB P g = .polygon g .pullB) ∧
    (g.y ≤ pixel P sb.endY → stepB P g = .polygon { g with b := b' } .row)

/-- The row fill under both clip modes: the cells of the draw target in row y, left end excluded, get the colour; a row
outside the vertical clip range draws nothing but is stepped; before any SET_CLIP it is CLIP_UNSET (R169, R171). That a
row with the steps up to the next pull is one step (R160, R168) is MODEL'S CHOICE, log entry 14; that the fault ends the
pass whether or not its reason is new (R109, R270) is log entry 5. -/
def Obligations.RowFillBothModes : Prop :=
  ∀ (P : Params) (s : State) (q : Pass) (g : Poly),
    (s.clip = none → fillRow P s q g = { s with faults := addFault s.faults .clipUnset, pass := none }) ∧
    ∀ c, s.clip = some c → c.legal P = true →
      let lo := min (pixel P g.a.x) (pixel P g.b.x)
      let hi := max (pixel P g.a.x) (pixel P g.b.x)
      let t := fillRow P s q g
      t = { s with buf0 := t.buf0, buf1 := t.buf1,
                   pass := some { q with phase := stepA P { g with y := g.y + 1 } } } ∧
      (P.polyHClipMode = .clamp → ∀ (b : BitVec 1) (x y : Int), t.cell P b x y =
        if b = q.target ∧ y = g.y ∧ c.ymin ≤ y ∧ y ≤ c.ymax ∧ max lo c.xmin < x ∧ x ≤ min hi c.xmax
        then some (g.color.setWidth 8) else s.cell P b x y) ∧
      (P.polyHClipMode = .perPixel → ∀ (b : BitVec 1) (x y : Int), t.cell P b x y =
        if b = q.target ∧ y = g.y ∧ lo < x ∧ x ≤ hi ∧ inside c x y
        then some (g.color.setWidth 8) else s.cell P b x y)

/-- A point or a segment before any SET_CLIP records CLIP_UNSET and ends the pass; no cell is written (R109, R191). That
the pass ends whether or not its reason is new (R109, R270, against R101's "if faults changed") is the model's reading, log
entry 5. -/
def Obligations.DrawingNeedsClip : Prop :=
  ∀ (s : State) (q : Pass) (p : Nat) (x yc ey syc slope sx : Word), s.pass = some q → s.clip = none →
    let after := { s with faults := addFault s.faults .clipUnset, pass := none }
    (q.phase = .points p → exec (.ptPair x yc) s = .next after) ∧
    (q.phase = .vectors p → exec (.vecSeg ey syc slope sx) s = .next after)

/-! ### The step -/

/-- While a pass is in progress, the words of the snapshot at the record pointer of the list being read are decoded and
a step is exec of the record they are; otherwise it fills a row of the polygon. R12 makes a pass atomic: that a step inside
one is one record is MODEL'S CHOICE, log entry 1, and that a row fill is one step is MODEL'S CHOICE, log entry 14. -/
def Obligations.StepRunsDecodedRecord : Prop :=
  ∀ (s : State) (q : Pass) (i : Instr) (rest : List Word), s.pass = some q →
    (q.phase = .table → q.i < 2047 → decode .table (snapWords params q 1 q.i) = .ok (i, rest) → step s = exec i s) ∧
    (∀ p, q.phase = .points p → decode .points (snapWords params q 2 p) = .ok (i, rest) → step s = exec i s) ∧
    (∀ p, q.phase = .vectors p → decode .vectors (snapWords params q 4 p) = .ok (i, rest) → step s = exec i s) ∧
    (∀ a, q.phase = .header a → decode .header (snapWords params q 4 a) = .ok (i, rest) → step s = exec i s) ∧
    (∀ g stage, q.phase = .polygon g stage → stage = .firstA ∨ stage = .pullA →
      decode .edges (snapWords params q 2 g.a.ptr) = .ok (i, rest) → step s = exec i s) ∧
    (∀ g stage, q.phase = .polygon g stage → stage = .firstB ∨ stage = .pullB →
      decode .edges (snapWords params q 2 g.b.ptr) = .ok (i, rest) → step s = exec i s) ∧
    (∀ g, q.phase = .polygon g .row → step s = .next (fillRow params s q g))

/-- Between passes a step takes the host's next operation; with none to come the block idles (R12, R284). -/
def Obligations.StepTakesHostOperation : Prop :=
  ∀ s : State, s.pass = none →
    (s.pending = [] → step s = .next s) ∧
    ∀ op rest, s.pending = op :: rest → step s = exec op { s with pending := rest }

/-- A record that does not fit below index 2048 ends its list as its terminator would, drawing nothing; a terminator
word in bound is found first (R53). That the list's end is one step is MODEL'S CHOICE, log entry 1. -/
def Obligations.RecordsEndAtBound : Prop :=
  ∀ (s : State) (q : Pass), s.pass = some q →
    let word := Store.read 0#16 q.snap
    let after := { s with pass := some { q with i := q.i + 1, phase := .table } }
    (∀ p, q.phase = .points p → 2048 ≤ p + 1 → step s = .next after) ∧
    (∀ p, q.phase = .vectors p → 2048 ≤ p + 3 → step s = .next after) ∧
    (∀ p, q.phase = .points p → p < 2048 → word p = 0xFFFF#16 → step s = .next after) ∧
    (∀ p, q.phase = .vectors p → p < 2048 → word p = 0xFFFF#16 → step s = .next after) ∧
    (∀ a, q.phase = .header a → 2048 ≤ a + 3 → step s = .next after) ∧
    (∀ g stage, q.phase = .polygon g stage → stage = .firstA ∨ stage = .pullA → 2048 ≤ g.a.ptr + 1 →
      step s = .next after) ∧
    (∀ g stage, q.phase = .polygon g stage → stage = .firstB ∨ stage = .pullB → 2048 ≤ g.b.ptr + 1 →
      step s = .next after)

/-- What a pass does next does not depend on any command word at or above index 2048: none is read (R53). -/
def Obligations.NoWordAboveBoundIsRead : Prop :=
  ∀ (q : Pass) (snap' : Store Word),
    (∀ k, k < 2048 → Store.read 0#16 q.snap k = Store.read 0#16 snap' k) →
    nextTurn params q = nextTurn params { q with snap := snap' }

/-- The walker stops at the cap of 2047 entries without a fault (R101). That this is a step of its own is MODEL'S CHOICE,
log entry 1. -/
def Obligations.WalkerStopsAtCap : Prop :=
  ∀ (s : State) (q : Pass), s.pass = some q → q.phase = .table → 2047 ≤ q.i →
    step s = .next { s with pass := none }

/-! ### TRIGGER_RUN -/

/-- A pass before `bufsel` holds a value records BUFSEL_UNSET and does nothing else (R100). -/
def Obligations.TriggerNeedsBufsel : Prop :=
  ∀ s : State, s.pass = none → s.bufsel = none →
    exec .triggerRun s = .next { s with faults := addFault s.faults .bufselUnset }

/-- An object table whose first word is the terminator leaves the whole state as it was (R103, E4). -/
def Obligations.EmptyTableDrawsNothing : Prop :=
  ∀ (s : State) (v : BitVec 1), s.pass = none → s.bufsel = some v → s.cmdWord 0 = 0xFFFF#16 →
    exec .triggerRun s = .next s

/-- Every pass terminates, within its one atomic operation; it changes no cell of the display target and nothing but
the draw target and the fault set (R100, R110, R197). -/
def Obligations.TriggerRunCompletes : Prop :=
  ∀ (s : State) (v : BitVec 1), s.pass = none → s.bufsel = some v →
    ∃ t, exec .triggerRun s = .next t ∧ t.buf (displayIndex params v) = s.buf (displayIndex params v) ∧
      t = { s with buf0 := t.buf0, buf1 := t.buf1, faults := t.faults }

/-- The record-by-record pass of the machine is the pseudocode of Walk, PointList, VectorList, Polygon, Pull and Step
run from the start (R101, R120, R140, R160, R165, R168). Both end a pass at a fault whose reason the set already holds
(R109, R270), where R101 tests "if faults changed": the model's reading, log entry 5. -/
def Obligations.TriggerRunIsWalk : Prop :=
  ∀ (s : State) (v : BitVec 1) (c : Clip), s.pass = none → s.bufsel = some v → s.clip = some c →
    exec .triggerRun s = .next (wholePass params s v c)

/-- A pass before any SET_CLIP writes no cell of either buffer (R109, R191). -/
def Obligations.UnclippedPassWritesNothing : Prop :=
  ∀ s t : State, s.clip = none → exec .triggerRun s = .next t →
    t = { s with faults := t.faults } ∧
      ∀ f ∈ t.faults, f ∈ s.faults ∨ f = .clipUnset ∨ f = .bufselUnset ∨ ∃ i w, f = .reservedObjectType i w

/-- A pass records at most one fault (R274). -/
def Obligations.PassRecordsOneFault : Prop :=
  ∀ s t : State, exec .triggerRun s = .next t → t.faults = s.faults ∨ ∃ f, t.faults = addFault s.faults f

/-- A step of a pass writes only the draw target, the fault set and the pass itself: the display target keeps every
cell (R104, R197). The steps inside a pass are MODEL'S CHOICE, log entries 1 and 14. -/
def Obligations.PassStepKeepsDisplayTarget : Prop :=
  ∀ (s t : State) (q : Pass), s.pass = some q → step s = .next t →
    t.buf (~~~q.target) = s.buf (~~~q.target) ∧
      t = { s with buf0 := t.buf0, buf1 := t.buf1, faults := t.faults, pass := t.pass } ∧
      ∀ q', t.pass = some q' → q'.target = q.target ∧ q'.snap = q.snap

/-! ### The canvas buffer's host operations -/

/-- CLEAR_BUFFER writes 0 to every cell of the buffer named, whatever the clip rectangle, and nothing else; any other
operand is BAD_OPERAND (R190). -/
def Obligations.ClearBufferZeroFills : Prop :=
  ∀ (s : State) (which : Int), s.pass = none →
    (which = 0 ∨ which = 1 → ∃ t, exec (.clearBuffer which) s = .next t ∧
      (∀ x y : Int, 0 ≤ x → x ≤ 255 → 0 ≤ y → y ≤ 255 → t.cell params (BitVec.ofInt 1 which) x y = some 0#8) ∧
      t.buf (~~~BitVec.ofInt 1 which) = s.buf (~~~BitVec.ofInt 1 which) ∧
      t = { s with buf0 := t.buf0, buf1 := t.buf1 }) ∧
    (which ≠ 0 → which ≠ 1 → exec (.clearBuffer which) s = .refused .badOperand)

/-- SET_CLIP stores a rectangle inside the canvas, an empty one too, and refuses one that leaves it (R194). -/
def Obligations.SetClipStoresRectangle : Prop :=
  ∀ (s : State) (xmin ymin xmax ymax : Int), s.pass = none →
    (0 ≤ xmin → xmax ≤ 255 → 0 ≤ ymin → ymax ≤ 255 →
      exec (.setClip xmin ymin xmax ymax) s = .next { s with clip := some ⟨xmin, ymin, xmax, ymax⟩ }) ∧
    (xmin < 0 ∨ xmax > 255 ∨ ymin < 0 ∨ ymax > 255 → exec (.setClip xmin ymin xmax ymax) s = .refused .badClip)

/-- RENDERED_SCANLINE returns the row of the display target and changes nothing; a row outside the canvas is BAD_ROW;
without `bufsel` BUFSEL_UNSET is recorded; the first cell without a value is recorded as UNWRITTEN_PIXEL (R195). -/
def Obligations.RenderedScanlineReturnsRow : Prop :=
  ∀ (s : State) (y : Int), s.pass = none →
    (y < 0 ∨ y > 255 → exec (.renderedScanline y) s = .refused .badRow) ∧
    (0 ≤ y → y ≤ 255 → s.bufsel = none →
      exec (.renderedScanline y) s = .next { s with faults := addFault s.faults .bufselUnset }) ∧
    (∀ v row, 0 ≤ y → y ≤ 255 → s.bufsel = some v → rowIs s (~~~v) y row →
      exec (.renderedScanline y) s = .next { s with observed := s.observed ++ [.scanline row] }) ∧
    (∀ v x, 0 ≤ y → y ≤ 255 → s.bufsel = some v → firstUnwritten s (~~~v) y x →
      exec (.renderedScanline y) s =
        .next { s with faults := addFault s.faults (.unwrittenPixel (~~~v) y.toNat x) })

/-! ### The palette mapper -/

/-- The static colour formula, its components' values, and black for intensity 0 (R211). -/
def Obligations.StaticColorFormula : Prop :=
  ∀ v : Byte,
    let k := v.toNat &&& 3
    let color := staticColor v
    color.r.toNat = 28 * (v.toNat >>> 6 &&& 3) * k ∧ color.g.toNat = 28 * (v.toNat >>> 4 &&& 3) * k ∧
      color.b.toNat = 28 * (v.toNat >>> 2 &&& 3) * k ∧
      (∀ n ∈ [color.r.toNat, color.g.toNat, color.b.toNat], n ∈ [0, 28, 56, 84, 112, 168, 252]) ∧
      (k = 0 → color = ⟨0#8, 0#8, 0#8⟩)

/-- BUILD_STATIC_PALETTE gives each static entry the colour of its PROM byte, keeps entries 0..63 and every other state,
and leaves no static entry without a value (R210, R216). The order of the entries is the spec's own choice: R212 gives it
"from general knowledge, not in source". -/
def Obligations.BuildStaticPaletteFills : Prop :=
  ∀ s : State, s.pass = none →
    ∃ t, exec .buildStaticPalette s = .next t ∧ t = { s with pal := t.pal } ∧
      (∀ i : Nat, i < 32 → t.palette (64 + (i / 8 * 8 + [0, 4, 2, 6, 1, 5, 3, 7].getD (i % 8) 0)) =
        some (staticColor (s.prom i))) ∧
      (∀ n, n < 64 ∨ 96 ≤ n → t.palette n = s.palette n) ∧
      (∀ n, 64 ≤ n → n < 96 → (t.palette n).isSome = true)

/-- StaticIndex maps 0..31 one-to-one onto 64..95 (R216, which the spec derives from its choice of R212). -/
def Obligations.StaticIndexIsBijection : Prop :=
  (∀ i, i < 32 → 64 ≤ staticIndex i ∧ staticIndex i < 96) ∧
  (∀ i j, i < 32 → j < 32 → staticIndex i = staticIndex j → i = j) ∧
  (∀ n, 64 ≤ n → n < 96 → ∃ i, i < 32 ∧ staticIndex i = n)

/-- PALETTE_WRITE stores the inverted composite's colour in the entry that offset bits 6:1 select and changes nothing
else; data outside 0..255 or a negative offset is BAD_OPERAND (R213). -/
def Obligations.PaletteWriteStoresColor : Prop :=
  ∀ (s : State) (offset data : Int), s.pass = none →
    (0 ≤ offset → 0 ≤ data → data ≤ 255 →
      let code := paletteNumber offset.toNat data.toNat
      let n := offset.toNat / 2 % 64
      ∃ t color, exec (.paletteWrite offset data) s = .next t ∧ t = { s with pal := t.pal } ∧
        t.palette n = some color ∧ (∀ m, m ≠ n → t.palette m = s.palette m) ∧
        color.r.toNat = 12 * (code >>> 7 &&& 3) * (code &&& 7) ∧
        color.g.toNat = 12 * (code >>> 5 &&& 3) * (code &&& 7) ∧
        color.b.toNat = 12 * (code >>> 3 &&& 3) * (code &&& 7)) ∧
    (offset < 0 ∨ data < 0 ∨ data > 255 → exec (.paletteWrite offset data) s = .refused .badOperand)

/-- The value a palette write leaves in the entry it selects depends on its operands alone: the dynamic palette has no
hidden state (R214). -/
def Obligations.PaletteHasNoHiddenState : Prop :=
  ∀ (s s' t t' : State) (offset data : Int), exec (.paletteWrite offset data) s = .next t →
    exec (.paletteWrite offset data) s' = .next t' →
    t.palette (offset.toNat / 2 % 64) = t'.palette (offset.toNat / 2 % 64)

/-- PALETTE_COLOR returns the entry and changes nothing; an entry never written records UNWRITTEN_PALETTE; an index
outside 0..95 is BAD_INDEX (R215). -/
def Obligations.PaletteColorReturnsEntry : Prop :=
  ∀ (s : State) (index : Int), s.pass = none →
    (index < 0 ∨ index > 95 → exec (.paletteColor index) s = .refused .badIndex) ∧
    (∀ color, 0 ≤ index → index ≤ 95 → s.palette index.toNat = some color →
      exec (.paletteColor index) s = .next { s with observed := s.observed ++ [.color color] }) ∧
    (0 ≤ index → index ≤ 95 → s.palette index.toNat = none →
      exec (.paletteColor index) s =
        .next { s with faults := addFault s.faults (.unwrittenPalette index.toNat) })

/-! ### The scanline compositor -/

/-- COMPOSITE_SCANLINE returns the display row with the overlay on it and changes nothing else, whatever the tile source
holds: each pixel shows its cell's tile pixel where the pen is not 0 (R230 to R235). -/
def Obligations.CompositeScanlineOverlays : Prop :=
  ∀ (s : State) (y : Nat) (v : BitVec 1) (a : Byte) (row : List Byte), s.pass = none → y ≤ 255 →
    s.bufsel = some v → s.alphamap = some a → rowIs s (~~~v) y row →
    ∃ out : List Byte,
      exec (.compositeScanline y) s = .next { s with observed := s.observed ++ [.composite out] } ∧
      out.length = 256 ∧ ∀ (x : Nat) (h : x < out.length) (h' : x < row.length),
        out[x] = compositePixel s a y x row[x]

/-- COMPOSITE_SCANLINE stops where RENDERED_SCANLINE does, and then, with a row that can be read, on an alphamap without
a value (R230, R274). -/
def Obligations.CompositeScanlineStops : Prop :=
  ∀ (s : State) (y : Int), s.pass = none →
    (y < 0 ∨ y > 255 → exec (.compositeScanline y) s = .refused .badRow) ∧
    (0 ≤ y → y ≤ 255 → s.bufsel = none →
      exec (.compositeScanline y) s = .next { s with faults := addFault s.faults .bufselUnset }) ∧
    (∀ v x, 0 ≤ y → y ≤ 255 → s.bufsel = some v → firstUnwritten s (~~~v) y x →
      exec (.compositeScanline y) s =
        .next { s with faults := addFault s.faults (.unwrittenPixel (~~~v) y.toNat x) }) ∧
    (∀ v row, 0 ≤ y → y ≤ 255 → s.bufsel = some v → rowIs s (~~~v) y row → s.alphamap = none →
      exec (.compositeScanline y) s = .next { s with faults := addFault s.faults .alphamapUnset })

/-! ### Host writes -/

/-- HOST_WRITE_CMD stores the word and changes no other word and no other state; an index or a word out of range is
BAD_OPERAND (R250). -/
def Obligations.HostWriteCmdStoresWord : Prop :=
  ∀ (s : State) (i w : Int), s.pass = none →
    (0 ≤ i → i ≤ 2047 → 0 ≤ w → w ≤ 0xFFFF → ∃ t, exec (.hostWriteCmd i w) s = .next t ∧
      t = { s with cmd := t.cmd } ∧ ((t.cmdWord i.toNat).toNat : Int) = w ∧
      ∀ k, k ≠ i.toNat → t.cmdWord k = s.cmdWord k) ∧
    (i < 0 ∨ i > 2047 ∨ w < 0 ∨ w > 0xFFFF → exec (.hostWriteCmd i w) s = .refused .badOperand)

/-- HOST_WRITE_VRAM stores the byte and changes no other byte and no other state; an index or a byte out of range is
BAD_OPERAND (R251). -/
def Obligations.HostWriteVramStoresByte : Prop :=
  ∀ (s : State) (i b : Int), s.pass = none →
    (0 ≤ i → i ≤ 1023 → 0 ≤ b → b ≤ 0xFF → ∃ t, exec (.hostWriteVram i b) s = .next t ∧
      t = { s with videoram := t.videoram } ∧ ((t.vram i.toNat).toNat : Int) = b ∧
      ∀ k, k ≠ i.toNat → t.vram k = s.vram k) ∧
    (i < 0 ∨ i > 1023 ∨ b < 0 ∨ b > 0xFF → exec (.hostWriteVram i b) s = .refused .badOperand)

/-- HOST_SET_BUFSEL stores the bit and moves no pixel; any other value is BAD_OPERAND (R252). -/
def Obligations.HostSetBufselStoresBit : Prop :=
  ∀ (s : State) (v : Int), s.pass = none →
    (v = 0 → exec (.hostSetBufsel v) s = .next { s with bufsel := some 0#1 }) ∧
    (v = 1 → exec (.hostSetBufsel v) s = .next { s with bufsel := some 1#1 }) ∧
    (v ≠ 0 → v ≠ 1 → exec (.hostSetBufsel v) s = .refused .badOperand)

/-- HOST_SET_ALPHAMAP stores the byte; a value out of range is BAD_OPERAND; only bit 0 reaches the bank bits (R253). -/
def Obligations.HostSetAlphamapStoresByte : Prop :=
  ∀ (s : State) (v : Int), s.pass = none →
    (0 ≤ v → v ≤ 255 → ∃ a : Byte, (a.toNat : Int) = v ∧
      exec (.hostSetAlphamap v) s = .next { s with alphamap := some a } ∧
      params.alphaBank a = if v % 2 = 1 then 4#8 else 0#8) ∧
    (v < 0 ∨ v > 255 → exec (.hostSetAlphamap v) s = .refused .badOperand)

/-! ### Rules of the whole machine -/

/-- Which operation writes what (R25 to R29, R196): command memory, videoram, the clip rectangle, the buffer select and
the alphamap each change by one host operation alone, and the PROM by none. -/
def Obligations.OneWriterPerRegister : Prop :=
  ∀ (i : Instr) (s t : State), exec i s = .next t →
    t.colorProm = s.colorProm ∧
    (t.cmd = s.cmd ∨ ∃ k w, i = .hostWriteCmd k w) ∧
    (t.videoram = s.videoram ∨ ∃ k b, i = .hostWriteVram k b) ∧
    (t.clip = s.clip ∨ ∃ x y x' y', i = .setClip x y x' y') ∧
    (t.bufsel = s.bufsel ∨ ∃ v, i = .hostSetBufsel v) ∧
    (t.alphamap = s.alphamap ∨ ∃ v, i = .hostSetAlphamap v)

/-- Only BUILD_STATIC_PALETTE writes entries 64..95, and only PALETTE_WRITE entries 0..63 (R30). -/
def Obligations.PaletteWritersAreSeparate : Prop :=
  ∀ (i : Instr) (s t : State) (n : Nat), exec i s = .next t →
    (64 ≤ n → t.palette n = s.palette n ∨ i = .buildStaticPalette) ∧
    (n < 64 → t.palette n = s.palette n ∨ ∃ offset data, i = .paletteWrite offset data)

/-- A buffer changes only by CLEAR_BUFFER of it, by a pass that draws into it, or by a record of such a pass, and the
other buffer does not change then: no read accessor and no host write touches a cell (R60, R197). -/
def Obligations.OnlyClearAndPassesDraw : Prop :=
  ∀ (i : Instr) (s t : State) (b : BitVec 1), exec i s = .next t → t.buf b ≠ s.buf b →
    t.buf (~~~b) = s.buf (~~~b) ∧
      (i = .clearBuffer b.toNat ∨ (i = .triggerRun ∧ ∃ v, s.bufsel = some v ∧ b = drawIndex params v) ∨
        i.context.isSome = true ∧ ∃ q, s.pass = some q ∧ q.target = b)

/-- The fault set starts empty, and no operation, no record and no step removes a fault (R32). -/
def Obligations.FaultsAreNeverRemoved : Prop :=
  State.reset.faults = [] ∧
  (∀ (i : Instr) (s t : State), exec i s = .next t → ∀ f ∈ s.faults, f ∈ t.faults) ∧
  ∀ s t : State, step s = .next t → ∀ f ∈ s.faults, f ∈ t.faults

/-- The host has no move inside a pass (R255, X10, X11): MODEL'S CHOICE of a refusal, log entry 13. -/
def Obligations.NoHostMoveInsidePass : Prop :=
  ∀ (i : Instr) (s : State) (q : Pass), i.context = none → s.pass = some q → exec i s = .refused .passInProgress

/-- The state at start-up (R35): no cell, no palette entry, no clip rectangle, no buffer select and no alphamap holds a
value, the fault set is empty, no working register holds anything outside a pass, and the walker starts every pass at
index 0. -/
def Obligations.StartUpValues : Prop :=
  (∀ (b : BitVec 1) (x y : Int), State.reset.cell params b x y = none) ∧ (∀ n, State.reset.palette n = none) ∧
  State.reset.clip = none ∧ State.reset.bufsel = none ∧ State.reset.alphamap = none ∧ State.reset.faults = [] ∧
  State.reset.pass = none ∧ ∀ s v, (Pass.start params s v).i = 0 ∧ (Pass.start params s v).phase = .table

/-- The state at start-up meets the invariant. -/
def Obligations.StartUpMeetsInvariant : Prop := State.reset.inv

/-- Every step keeps the invariant: canonical memories, a legal clip rectangle, cells of six bits, a fault set without
repeats, and a pass that reads command memory as it stands with pointers that fit (R22, R24, R26, R32, R52, R192). The
steps inside a pass are MODEL'S CHOICE, log entries 1 and 14. -/
def Obligations.StepKeepsInvariant : Prop :=
  ∀ s t : State, s.inv → step s = .next t → t.inv

/-- What the clean-start premise gives a claim (R258): a clip rectangle; if it reads static entries, each holds the
colour of its PROM byte (R210); if it reads rows that a pass may not cover, every row of both buffers can be read (R195). -/
def Obligations.CleanStartGivesReads : Prop :=
  ∀ (reads : ClaimReads) (ops : List Instr) (t : State), cleanStart reads ops t →
    t.clip.isSome = true ∧
    (reads.staticEntries = true → ∀ i, i < 32 → t.palette (staticIndex i) = some (staticColor (t.prom i))) ∧
    (reads.uncoveredRows = true → ∀ (b : BitVec 1) (y : Int), 0 ≤ y → y ≤ 255 → t.rowWritten b y)
end

