-- ==== Sys2Proof/Laws/State.lean ====
section
/-! SUPPORT. One lemma per field per update of the state, and the field reads of each update. -/

namespace Sys2Proof.Machine

/-! ### writeCmd -/

@[simp] theorem State.writeCmd_cmd (s : State) (i : Nat) (w : Word) : (s.writeCmd i w).cmd = Store.write 0#16 s.cmd i w := rfl
@[simp] theorem State.writeCmd_videoram (s : State) (i : Nat) (w : Word) : (s.writeCmd i w).videoram = s.videoram := rfl
@[simp] theorem State.writeCmd_colorProm (s : State) (i : Nat) (w : Word) : (s.writeCmd i w).colorProm = s.colorProm := rfl
@[simp] theorem State.writeCmd_buf0 (s : State) (i : Nat) (w : Word) : (s.writeCmd i w).buf0 = s.buf0 := rfl
@[simp] theorem State.writeCmd_buf1 (s : State) (i : Nat) (w : Word) : (s.writeCmd i w).buf1 = s.buf1 := rfl
@[simp] theorem State.writeCmd_clip (s : State) (i : Nat) (w : Word) : (s.writeCmd i w).clip = s.clip := rfl
@[simp] theorem State.writeCmd_bufsel (s : State) (i : Nat) (w : Word) : (s.writeCmd i w).bufsel = s.bufsel := rfl
@[simp] theorem State.writeCmd_alphamap (s : State) (i : Nat) (w : Word) : (s.writeCmd i w).alphamap = s.alphamap := rfl
@[simp] theorem State.writeCmd_pal (s : State) (i : Nat) (w : Word) : (s.writeCmd i w).pal = s.pal := rfl
@[simp] theorem State.writeCmd_faults (s : State) (i : Nat) (w : Word) : (s.writeCmd i w).faults = s.faults := rfl
@[simp] theorem State.writeCmd_pass (s : State) (i : Nat) (w : Word) : (s.writeCmd i w).pass = s.pass := rfl
@[simp] theorem State.writeCmd_pending (s : State) (i : Nat) (w : Word) : (s.writeCmd i w).pending = s.pending := rfl
@[simp] theorem State.writeCmd_observed (s : State) (i : Nat) (w : Word) : (s.writeCmd i w).observed = s.observed := rfl

/-! ### writeVram -/

@[simp] theorem State.writeVram_cmd (s : State) (i : Nat) (b : Byte) : (s.writeVram i b).cmd = s.cmd := rfl
@[simp] theorem State.writeVram_videoram (s : State) (i : Nat) (b : Byte) : (s.writeVram i b).videoram = Store.write 0#8 s.videoram i b := rfl
@[simp] theorem State.writeVram_colorProm (s : State) (i : Nat) (b : Byte) : (s.writeVram i b).colorProm = s.colorProm := rfl
@[simp] theorem State.writeVram_buf0 (s : State) (i : Nat) (b : Byte) : (s.writeVram i b).buf0 = s.buf0 := rfl
@[simp] theorem State.writeVram_buf1 (s : State) (i : Nat) (b : Byte) : (s.writeVram i b).buf1 = s.buf1 := rfl
@[simp] theorem State.writeVram_clip (s : State) (i : Nat) (b : Byte) : (s.writeVram i b).clip = s.clip := rfl
@[simp] theorem State.writeVram_bufsel (s : State) (i : Nat) (b : Byte) : (s.writeVram i b).bufsel = s.bufsel := rfl
@[simp] theorem State.writeVram_alphamap (s : State) (i : Nat) (b : Byte) : (s.writeVram i b).alphamap = s.alphamap := rfl
@[simp] theorem State.writeVram_pal (s : State) (i : Nat) (b : Byte) : (s.writeVram i b).pal = s.pal := rfl
@[simp] theorem State.writeVram_faults (s : State) (i : Nat) (b : Byte) : (s.writeVram i b).faults = s.faults := rfl
@[simp] theorem State.writeVram_pass (s : State) (i : Nat) (b : Byte) : (s.writeVram i b).pass = s.pass := rfl
@[simp] theorem State.writeVram_pending (s : State) (i : Nat) (b : Byte) : (s.writeVram i b).pending = s.pending := rfl
@[simp] theorem State.writeVram_observed (s : State) (i : Nat) (b : Byte) : (s.writeVram i b).observed = s.observed := rfl

/-! ### setClip -/

@[simp] theorem State.setClip_cmd (s : State) (c : Clip) : (s.setClip c).cmd = s.cmd := rfl
@[simp] theorem State.setClip_videoram (s : State) (c : Clip) : (s.setClip c).videoram = s.videoram := rfl
@[simp] theorem State.setClip_colorProm (s : State) (c : Clip) : (s.setClip c).colorProm = s.colorProm := rfl
@[simp] theorem State.setClip_buf0 (s : State) (c : Clip) : (s.setClip c).buf0 = s.buf0 := rfl
@[simp] theorem State.setClip_buf1 (s : State) (c : Clip) : (s.setClip c).buf1 = s.buf1 := rfl
@[simp] theorem State.setClip_clip (s : State) (c : Clip) : (s.setClip c).clip = some c := rfl
@[simp] theorem State.setClip_bufsel (s : State) (c : Clip) : (s.setClip c).bufsel = s.bufsel := rfl
@[simp] theorem State.setClip_alphamap (s : State) (c : Clip) : (s.setClip c).alphamap = s.alphamap := rfl
@[simp] theorem State.setClip_pal (s : State) (c : Clip) : (s.setClip c).pal = s.pal := rfl
@[simp] theorem State.setClip_faults (s : State) (c : Clip) : (s.setClip c).faults = s.faults := rfl
@[simp] theorem State.setClip_pass (s : State) (c : Clip) : (s.setClip c).pass = s.pass := rfl
@[simp] theorem State.setClip_pending (s : State) (c : Clip) : (s.setClip c).pending = s.pending := rfl
@[simp] theorem State.setClip_observed (s : State) (c : Clip) : (s.setClip c).observed = s.observed := rfl

/-! ### setBufsel -/

@[simp] theorem State.setBufsel_cmd (s : State) (v : BitVec 1) : (s.setBufsel v).cmd = s.cmd := rfl
@[simp] theorem State.setBufsel_videoram (s : State) (v : BitVec 1) : (s.setBufsel v).videoram = s.videoram := rfl
@[simp] theorem State.setBufsel_colorProm (s : State) (v : BitVec 1) : (s.setBufsel v).colorProm = s.colorProm := rfl
@[simp] theorem State.setBufsel_buf0 (s : State) (v : BitVec 1) : (s.setBufsel v).buf0 = s.buf0 := rfl
@[simp] theorem State.setBufsel_buf1 (s : State) (v : BitVec 1) : (s.setBufsel v).buf1 = s.buf1 := rfl
@[simp] theorem State.setBufsel_clip (s : State) (v : BitVec 1) : (s.setBufsel v).clip = s.clip := rfl
@[simp] theorem State.setBufsel_bufsel (s : State) (v : BitVec 1) : (s.setBufsel v).bufsel = some v := rfl
@[simp] theorem State.setBufsel_alphamap (s : State) (v : BitVec 1) : (s.setBufsel v).alphamap = s.alphamap := rfl
@[simp] theorem State.setBufsel_pal (s : State) (v : BitVec 1) : (s.setBufsel v).pal = s.pal := rfl
@[simp] theorem State.setBufsel_faults (s : State) (v : BitVec 1) : (s.setBufsel v).faults = s.faults := rfl
@[simp] theorem State.setBufsel_pass (s : State) (v : BitVec 1) : (s.setBufsel v).pass = s.pass := rfl
@[simp] theorem State.setBufsel_pending (s : State) (v : BitVec 1) : (s.setBufsel v).pending = s.pending := rfl
@[simp] theorem State.setBufsel_observed (s : State) (v : BitVec 1) : (s.setBufsel v).observed = s.observed := rfl

/-! ### setAlphamap -/

@[simp] theorem State.setAlphamap_cmd (s : State) (v : Byte) : (s.setAlphamap v).cmd = s.cmd := rfl
@[simp] theorem State.setAlphamap_videoram (s : State) (v : Byte) : (s.setAlphamap v).videoram = s.videoram := rfl
@[simp] theorem State.setAlphamap_colorProm (s : State) (v : Byte) : (s.setAlphamap v).colorProm = s.colorProm := rfl
@[simp] theorem State.setAlphamap_buf0 (s : State) (v : Byte) : (s.setAlphamap v).buf0 = s.buf0 := rfl
@[simp] theorem State.setAlphamap_buf1 (s : State) (v : Byte) : (s.setAlphamap v).buf1 = s.buf1 := rfl
@[simp] theorem State.setAlphamap_clip (s : State) (v : Byte) : (s.setAlphamap v).clip = s.clip := rfl
@[simp] theorem State.setAlphamap_bufsel (s : State) (v : Byte) : (s.setAlphamap v).bufsel = s.bufsel := rfl
@[simp] theorem State.setAlphamap_alphamap (s : State) (v : Byte) : (s.setAlphamap v).alphamap = some v := rfl
@[simp] theorem State.setAlphamap_pal (s : State) (v : Byte) : (s.setAlphamap v).pal = s.pal := rfl
@[simp] theorem State.setAlphamap_faults (s : State) (v : Byte) : (s.setAlphamap v).faults = s.faults := rfl
@[simp] theorem State.setAlphamap_pass (s : State) (v : Byte) : (s.setAlphamap v).pass = s.pass := rfl
@[simp] theorem State.setAlphamap_pending (s : State) (v : Byte) : (s.setAlphamap v).pending = s.pending := rfl
@[simp] theorem State.setAlphamap_observed (s : State) (v : Byte) : (s.setAlphamap v).observed = s.observed := rfl

/-! ### writePal -/

@[simp] theorem State.writePal_cmd (s : State) (n : Nat) (c : Rgb) : (s.writePal n c).cmd = s.cmd := rfl
@[simp] theorem State.writePal_videoram (s : State) (n : Nat) (c : Rgb) : (s.writePal n c).videoram = s.videoram := rfl
@[simp] theorem State.writePal_colorProm (s : State) (n : Nat) (c : Rgb) : (s.writePal n c).colorProm = s.colorProm := rfl
@[simp] theorem State.writePal_buf0 (s : State) (n : Nat) (c : Rgb) : (s.writePal n c).buf0 = s.buf0 := rfl
@[simp] theorem State.writePal_buf1 (s : State) (n : Nat) (c : Rgb) : (s.writePal n c).buf1 = s.buf1 := rfl
@[simp] theorem State.writePal_clip (s : State) (n : Nat) (c : Rgb) : (s.writePal n c).clip = s.clip := rfl
@[simp] theorem State.writePal_bufsel (s : State) (n : Nat) (c : Rgb) : (s.writePal n c).bufsel = s.bufsel := rfl
@[simp] theorem State.writePal_alphamap (s : State) (n : Nat) (c : Rgb) : (s.writePal n c).alphamap = s.alphamap := rfl
@[simp] theorem State.writePal_pal (s : State) (n : Nat) (c : Rgb) : (s.writePal n c).pal = Store.put s.pal n c := rfl
@[simp] theorem State.writePal_faults (s : State) (n : Nat) (c : Rgb) : (s.writePal n c).faults = s.faults := rfl
@[simp] theorem State.writePal_pass (s : State) (n : Nat) (c : Rgb) : (s.writePal n c).pass = s.pass := rfl
@[simp] theorem State.writePal_pending (s : State) (n : Nat) (c : Rgb) : (s.writePal n c).pending = s.pending := rfl
@[simp] theorem State.writePal_observed (s : State) (n : Nat) (c : Rgb) : (s.writePal n c).observed = s.observed := rfl

/-! ### observe -/

@[simp] theorem State.observe_cmd (s : State) (o : Observation) : (s.observe o).cmd = s.cmd := rfl
@[simp] theorem State.observe_videoram (s : State) (o : Observation) : (s.observe o).videoram = s.videoram := rfl
@[simp] theorem State.observe_colorProm (s : State) (o : Observation) : (s.observe o).colorProm = s.colorProm := rfl
@[simp] theorem State.observe_buf0 (s : State) (o : Observation) : (s.observe o).buf0 = s.buf0 := rfl
@[simp] theorem State.observe_buf1 (s : State) (o : Observation) : (s.observe o).buf1 = s.buf1 := rfl
@[simp] theorem State.observe_clip (s : State) (o : Observation) : (s.observe o).clip = s.clip := rfl
@[simp] theorem State.observe_bufsel (s : State) (o : Observation) : (s.observe o).bufsel = s.bufsel := rfl
@[simp] theorem State.observe_alphamap (s : State) (o : Observation) : (s.observe o).alphamap = s.alphamap := rfl
@[simp] theorem State.observe_pal (s : State) (o : Observation) : (s.observe o).pal = s.pal := rfl
@[simp] theorem State.observe_faults (s : State) (o : Observation) : (s.observe o).faults = s.faults := rfl
@[simp] theorem State.observe_pass (s : State) (o : Observation) : (s.observe o).pass = s.pass := rfl
@[simp] theorem State.observe_pending (s : State) (o : Observation) : (s.observe o).pending = s.pending := rfl
@[simp] theorem State.observe_observed (s : State) (o : Observation) : (s.observe o).observed = s.observed ++ [o] := rfl

/-! ### setPass -/

@[simp] theorem State.setPass_cmd (s : State) (p : Option Pass) : (s.setPass p).cmd = s.cmd := rfl
@[simp] theorem State.setPass_videoram (s : State) (p : Option Pass) : (s.setPass p).videoram = s.videoram := rfl
@[simp] theorem State.setPass_colorProm (s : State) (p : Option Pass) : (s.setPass p).colorProm = s.colorProm := rfl
@[simp] theorem State.setPass_buf0 (s : State) (p : Option Pass) : (s.setPass p).buf0 = s.buf0 := rfl
@[simp] theorem State.setPass_buf1 (s : State) (p : Option Pass) : (s.setPass p).buf1 = s.buf1 := rfl
@[simp] theorem State.setPass_clip (s : State) (p : Option Pass) : (s.setPass p).clip = s.clip := rfl
@[simp] theorem State.setPass_bufsel (s : State) (p : Option Pass) : (s.setPass p).bufsel = s.bufsel := rfl
@[simp] theorem State.setPass_alphamap (s : State) (p : Option Pass) : (s.setPass p).alphamap = s.alphamap := rfl
@[simp] theorem State.setPass_pal (s : State) (p : Option Pass) : (s.setPass p).pal = s.pal := rfl
@[simp] theorem State.setPass_faults (s : State) (p : Option Pass) : (s.setPass p).faults = s.faults := rfl
@[simp] theorem State.setPass_pass (s : State) (p : Option Pass) : (s.setPass p).pass = p := rfl
@[simp] theorem State.setPass_pending (s : State) (p : Option Pass) : (s.setPass p).pending = s.pending := rfl
@[simp] theorem State.setPass_observed (s : State) (p : Option Pass) : (s.setPass p).observed = s.observed := rfl

/-! ### setPending -/

@[simp] theorem State.setPending_cmd (s : State) (ops : List Instr) : (s.setPending ops).cmd = s.cmd := rfl
@[simp] theorem State.setPending_videoram (s : State) (ops : List Instr) : (s.setPending ops).videoram = s.videoram := rfl
@[simp] theorem State.setPending_colorProm (s : State) (ops : List Instr) : (s.setPending ops).colorProm = s.colorProm := rfl
@[simp] theorem State.setPending_buf0 (s : State) (ops : List Instr) : (s.setPending ops).buf0 = s.buf0 := rfl
@[simp] theorem State.setPending_buf1 (s : State) (ops : List Instr) : (s.setPending ops).buf1 = s.buf1 := rfl
@[simp] theorem State.setPending_clip (s : State) (ops : List Instr) : (s.setPending ops).clip = s.clip := rfl
@[simp] theorem State.setPending_bufsel (s : State) (ops : List Instr) : (s.setPending ops).bufsel = s.bufsel := rfl
@[simp] theorem State.setPending_alphamap (s : State) (ops : List Instr) : (s.setPending ops).alphamap = s.alphamap := rfl
@[simp] theorem State.setPending_pal (s : State) (ops : List Instr) : (s.setPending ops).pal = s.pal := rfl
@[simp] theorem State.setPending_faults (s : State) (ops : List Instr) : (s.setPending ops).faults = s.faults := rfl
@[simp] theorem State.setPending_pass (s : State) (ops : List Instr) : (s.setPending ops).pass = s.pass := rfl
@[simp] theorem State.setPending_pending (s : State) (ops : List Instr) : (s.setPending ops).pending = ops := rfl
@[simp] theorem State.setPending_observed (s : State) (ops : List Instr) : (s.setPending ops).observed = s.observed := rfl

/-! ### raise -/

@[simp] theorem State.raise_cmd (s : State) (f : Fault) : (s.raise f).cmd = s.cmd := rfl
@[simp] theorem State.raise_videoram (s : State) (f : Fault) : (s.raise f).videoram = s.videoram := rfl
@[simp] theorem State.raise_colorProm (s : State) (f : Fault) : (s.raise f).colorProm = s.colorProm := rfl
@[simp] theorem State.raise_buf0 (s : State) (f : Fault) : (s.raise f).buf0 = s.buf0 := rfl
@[simp] theorem State.raise_buf1 (s : State) (f : Fault) : (s.raise f).buf1 = s.buf1 := rfl
@[simp] theorem State.raise_clip (s : State) (f : Fault) : (s.raise f).clip = s.clip := rfl
@[simp] theorem State.raise_bufsel (s : State) (f : Fault) : (s.raise f).bufsel = s.bufsel := rfl
@[simp] theorem State.raise_alphamap (s : State) (f : Fault) : (s.raise f).alphamap = s.alphamap := rfl
@[simp] theorem State.raise_pal (s : State) (f : Fault) : (s.raise f).pal = s.pal := rfl
@[simp] theorem State.raise_faults (s : State) (f : Fault) : (s.raise f).faults = addFault s.faults f := rfl
@[simp] theorem State.raise_pass (s : State) (f : Fault) : (s.raise f).pass = none := rfl
@[simp] theorem State.raise_pending (s : State) (f : Fault) : (s.raise f).pending = s.pending := rfl
@[simp] theorem State.raise_observed (s : State) (f : Fault) : (s.raise f).observed = s.observed := rfl

/-! ### setBuf -/

@[simp] theorem State.setBuf_cmd (s : State) (b : BitVec 1) (c : Canvas) : (s.setBuf b c).cmd = s.cmd := by
  unfold State.setBuf; split <;> rfl
@[simp] theorem State.setBuf_videoram (s : State) (b : BitVec 1) (c : Canvas) : (s.setBuf b c).videoram = s.videoram := by
  unfold State.setBuf; split <;> rfl
@[simp] theorem State.setBuf_colorProm (s : State) (b : BitVec 1) (c : Canvas) : (s.setBuf b c).colorProm = s.colorProm := by
  unfold State.setBuf; split <;> rfl
@[simp] theorem State.setBuf_clip (s : State) (b : BitVec 1) (c : Canvas) : (s.setBuf b c).clip = s.clip := by
  unfold State.setBuf; split <;> rfl
@[simp] theorem State.setBuf_bufsel (s : State) (b : BitVec 1) (c : Canvas) : (s.setBuf b c).bufsel = s.bufsel := by
  unfold State.setBuf; split <;> rfl
@[simp] theorem State.setBuf_alphamap (s : State) (b : BitVec 1) (c : Canvas) : (s.setBuf b c).alphamap = s.alphamap := by
  unfold State.setBuf; split <;> rfl
@[simp] theorem State.setBuf_pal (s : State) (b : BitVec 1) (c : Canvas) : (s.setBuf b c).pal = s.pal := by
  unfold State.setBuf; split <;> rfl
@[simp] theorem State.setBuf_faults (s : State) (b : BitVec 1) (c : Canvas) : (s.setBuf b c).faults = s.faults := by
  unfold State.setBuf; split <;> rfl
@[simp] theorem State.setBuf_pass (s : State) (b : BitVec 1) (c : Canvas) : (s.setBuf b c).pass = s.pass := by
  unfold State.setBuf; split <;> rfl
@[simp] theorem State.setBuf_pending (s : State) (b : BitVec 1) (c : Canvas) : (s.setBuf b c).pending = s.pending := by
  unfold State.setBuf; split <;> rfl
@[simp] theorem State.setBuf_observed (s : State) (b : BitVec 1) (c : Canvas) : (s.setBuf b c).observed = s.observed := by
  unfold State.setBuf; split <;> rfl

/-- A buffer index is 0 or 1. -/
theorem index_cases (b : BitVec 1) : b = 0#1 ∨ b = 1#1 := by
  revert b; decide

@[simp] theorem State.buf_zero (s : State) : s.buf 0#1 = s.buf0 := rfl
@[simp] theorem State.buf_one (s : State) : s.buf 1#1 = s.buf1 := rfl

@[simp] theorem State.setBuf_buf_same (s : State) (b : BitVec 1) (c : Canvas) : (s.setBuf b c).buf b = c := by
  rcases index_cases b with rfl | rfl <;> rfl

theorem State.setBuf_buf_other (s : State) {b d : BitVec 1} (c : Canvas) (h : d ≠ b) :
    (s.setBuf b c).buf d = s.buf d := by
  rcases index_cases b with rfl | rfl <;> rcases index_cases d with rfl | rfl <;> first | rfl | exact absurd rfl h

/-- What a buffer holds after one buffer was replaced. -/
theorem State.setBuf_buf (s : State) (b d : BitVec 1) (c : Canvas) :
    (s.setBuf b c).buf d = if d = b then c else s.buf d := by
  split
  · next h => subst h; simp
  · next h => exact s.setBuf_buf_other c h

@[simp] theorem State.setBuf_self (s : State) (b : BitVec 1) : s.setBuf b (s.buf b) = s := by
  rcases index_cases b with rfl | rfl <;> rfl

/-! ### drawOn -/

@[simp] theorem State.drawOn_cmd (P : Params) (s : State) (b : BitVec 1) (c : Clip) (k : BitVec 6)
    (l : List (Int × Int)) : (s.drawOn P b c k l).cmd = s.cmd := State.setBuf_cmd ..
@[simp] theorem State.drawOn_videoram (P : Params) (s : State) (b : BitVec 1) (c : Clip) (k : BitVec 6)
    (l : List (Int × Int)) : (s.drawOn P b c k l).videoram = s.videoram := State.setBuf_videoram ..
@[simp] theorem State.drawOn_colorProm (P : Params) (s : State) (b : BitVec 1) (c : Clip) (k : BitVec 6)
    (l : List (Int × Int)) : (s.drawOn P b c k l).colorProm = s.colorProm := State.setBuf_colorProm ..
@[simp] theorem State.drawOn_clip (P : Params) (s : State) (b : BitVec 1) (c : Clip) (k : BitVec 6)
    (l : List (Int × Int)) : (s.drawOn P b c k l).clip = s.clip := State.setBuf_clip ..
@[simp] theorem State.drawOn_bufsel (P : Params) (s : State) (b : BitVec 1) (c : Clip) (k : BitVec 6)
    (l : List (Int × Int)) : (s.drawOn P b c k l).bufsel = s.bufsel := State.setBuf_bufsel ..
@[simp] theorem State.drawOn_alphamap (P : Params) (s : State) (b : BitVec 1) (c : Clip) (k : BitVec 6)
    (l : List (Int × Int)) : (s.drawOn P b c k l).alphamap = s.alphamap := State.setBuf_alphamap ..
@[simp] theorem State.drawOn_pal (P : Params) (s : State) (b : BitVec 1) (c : Clip) (k : BitVec 6)
    (l : List (Int × Int)) : (s.drawOn P b c k l).pal = s.pal := State.setBuf_pal ..
@[simp] theorem State.drawOn_faults (P : Params) (s : State) (b : BitVec 1) (c : Clip) (k : BitVec 6)
    (l : List (Int × Int)) : (s.drawOn P b c k l).faults = s.faults := State.setBuf_faults ..
@[simp] theorem State.drawOn_pass (P : Params) (s : State) (b : BitVec 1) (c : Clip) (k : BitVec 6)
    (l : List (Int × Int)) : (s.drawOn P b c k l).pass = s.pass := State.setBuf_pass ..
@[simp] theorem State.drawOn_pending (P : Params) (s : State) (b : BitVec 1) (c : Clip) (k : BitVec 6)
    (l : List (Int × Int)) : (s.drawOn P b c k l).pending = s.pending := State.setBuf_pending ..
@[simp] theorem State.drawOn_observed (P : Params) (s : State) (b : BitVec 1) (c : Clip) (k : BitVec 6)
    (l : List (Int × Int)) : (s.drawOn P b c k l).observed = s.observed := State.setBuf_observed ..

/-- What a buffer holds after drawing: the drawn-on buffer is plotted, the other one is as before (R197). -/
theorem State.drawOn_buf (P : Params) (s : State) (b d : BitVec 1) (c : Clip) (k : BitVec 6) (l : List (Int × Int)) :
    (s.drawOn P b c k l).buf d = if d = b then (s.buf b).plots P c k l else s.buf d :=
  s.setBuf_buf b d _

/-- Drawing changes the two buffers' fields alone. -/
theorem State.drawOn_frame (P : Params) (s : State) (b : BitVec 1) (c : Clip) (k : BitVec 6) (l : List (Int × Int)) :
    s.drawOn P b c k l = { s with buf0 := (s.drawOn P b c k l).buf0, buf1 := (s.drawOn P b c k l).buf1 } := by
  rcases index_cases b with rfl | rfl <;> rfl

/-! ### buf and cell under the updates that touch no buffer -/

@[simp] theorem State.writeCmd_buf (s : State) (i : Nat) (w : Word) (d : BitVec 1) : (s.writeCmd i w).buf d = s.buf d := rfl
@[simp] theorem State.writeCmd_cell (P : Params) (s : State) (i : Nat) (w : Word) (d : BitVec 1) (x y : Int) :
    (s.writeCmd i w).cell P d x y = s.cell P d x y := rfl
@[simp] theorem State.writeVram_buf (s : State) (i : Nat) (b : Byte) (d : BitVec 1) : (s.writeVram i b).buf d = s.buf d := rfl
@[simp] theorem State.writeVram_cell (P : Params) (s : State) (i : Nat) (b : Byte) (d : BitVec 1) (x y : Int) :
    (s.writeVram i b).cell P d x y = s.cell P d x y := rfl
@[simp] theorem State.setClip_buf (s : State) (c : Clip) (d : BitVec 1) : (s.setClip c).buf d = s.buf d := rfl
@[simp] theorem State.setClip_cell (P : Params) (s : State) (c : Clip) (d : BitVec 1) (x y : Int) :
    (s.setClip c).cell P d x y = s.cell P d x y := rfl
@[simp] theorem State.setBufsel_buf (s : State) (v : BitVec 1) (d : BitVec 1) : (s.setBufsel v).buf d = s.buf d := rfl
@[simp] theorem State.setBufsel_cell (P : Params) (s : State) (v : BitVec 1) (d : BitVec 1) (x y : Int) :
    (s.setBufsel v).cell P d x y = s.cell P d x y := rfl
@[simp] theorem State.setAlphamap_buf (s : State) (v : Byte) (d : BitVec 1) : (s.setAlphamap v).buf d = s.buf d := rfl
@[simp] theorem State.setAlphamap_cell (P : Params) (s : State) (v : Byte) (d : BitVec 1) (x y : Int) :
    (s.setAlphamap v).cell P d x y = s.cell P d x y := rfl
@[simp] theorem State.writePal_buf (s : State) (n : Nat) (c : Rgb) (d : BitVec 1) : (s.writePal n c).buf d = s.buf d := rfl
@[simp] theorem State.writePal_cell (P : Params) (s : State) (n : Nat) (c : Rgb) (d : BitVec 1) (x y : Int) :
    (s.writePal n c).cell P d x y = s.cell P d x y := rfl
@[simp] theorem State.observe_buf (s : State) (o : Observation) (d : BitVec 1) : (s.observe o).buf d = s.buf d := rfl
@[simp] theorem State.observe_cell (P : Params) (s : State) (o : Observation) (d : BitVec 1) (x y : Int) :
    (s.observe o).cell P d x y = s.cell P d x y := rfl
@[simp] theorem State.setPass_buf (s : State) (p : Option Pass) (d : BitVec 1) : (s.setPass p).buf d = s.buf d := rfl
@[simp] theorem State.setPass_cell (P : Params) (s : State) (p : Option Pass) (d : BitVec 1) (x y : Int) :
    (s.setPass p).cell P d x y = s.cell P d x y := rfl
@[simp] theorem State.setPending_buf (s : State) (ops : List Instr) (d : BitVec 1) : (s.setPending ops).buf d = s.buf d := rfl
@[simp] theorem State.setPending_cell (P : Params) (s : State) (ops : List Instr) (d : BitVec 1) (x y : Int) :
    (s.setPending ops).cell P d x y = s.cell P d x y := rfl
@[simp] theorem State.raise_buf (s : State) (f : Fault) (d : BitVec 1) : (s.raise f).buf d = s.buf d := rfl
@[simp] theorem State.raise_cell (P : Params) (s : State) (f : Fault) (d : BitVec 1) (x y : Int) :
    (s.raise f).cell P d x y = s.cell P d x y := rfl

end Sys2Proof.Machine
end

