-- ==== Sys2Proof/Laws/Store.lean ====
section
/-! SUPPORT. What storage by index does: reads after writes, and the canonical form kept. -/

namespace Sys2Proof.Machine

variable {α : Type}

@[simp] theorem Store.get_nil (a : Nat) : Store.get ([] : Store α) a = none := rfl

theorem Store.get_cons (b : Nat) (v : α) (m : Store α) (a : Nat) :
    Store.get ((b, v) :: m) a = if b = a then some v else Store.get m a := rfl

/-- Reading an index after listing a value for one. -/
theorem Store.get_put (m : Store α) (a b : Nat) (v : α) :
    Store.get (Store.put m a v) b = if a = b then some v else Store.get m b := by
  induction m with
  | nil => simp [Store.put, Store.get_cons]
  | cons e rest ih =>
    obtain ⟨k, w⟩ := e
    simp only [Store.put]
    split
    · simp only [Store.get_cons]
    · split
      · next h => subst h; simp only [Store.get_cons]; split <;> rfl
      · next h =>
        simp only [Store.get_cons, ih]
        split
        · next hk => subst hk; rw [if_neg h]
        · rfl

/-- Reading an index after unlisting one. -/
theorem Store.get_erase (m : Store α) (a b : Nat) :
    Store.get (Store.erase m a) b = if a = b then none else Store.get m b := by
  induction m with
  | nil => simp [Store.erase]
  | cons e rest ih =>
    obtain ⟨k, w⟩ := e
    simp only [Store.erase, List.filter_cons] at ih ⊢
    by_cases hk : k = a
    · subst hk
      simp only [bne_self_eq_false, Bool.false_eq_true, if_false, ih, Store.get_cons]
      split <;> rfl
    · simp only [bne_iff_ne, ne_eq, hk, not_false_eq_true, if_true, Store.get_cons, ih]
      split
      · next h => subst h; rw [if_neg (Ne.symm hk)]
      · rfl

/-- A read after a write: the value written at its index, the value from before elsewhere. -/
theorem Store.read_write [DecidableEq α] (d : α) (m : Store α) (a b : Nat) (v : α) :
    Store.read d (Store.write d m a v) b = if a = b then v else Store.read d m b := by
  unfold Store.read Store.write
  split
  · next h =>
    subst h
    rw [Store.get_erase]
    split <;> rfl
  · rw [Store.get_put]
    split <;> rfl

theorem Store.rising_mono {hi lo lo' : Nat} (h : lo' ≤ lo) (m : Store α) (hm : Store.rising hi lo m = true) :
    Store.rising hi lo' m = true := by
  cases m with
  | nil => rfl
  | cons e rest =>
    simp only [Store.rising, Bool.and_eq_true, decide_eq_true_eq] at hm ⊢
    exact ⟨⟨by omega, hm.1.2⟩, hm.2⟩

/-- Listing a value keeps the rising order. -/
theorem Store.rising_put {hi lo a : Nat} (m : Store α) (v : α) (hlo : lo ≤ a) (hhi : a < hi)
    (hm : Store.rising hi lo m = true) : Store.rising hi lo (Store.put m a v) = true := by
  induction m generalizing lo with
  | nil => simp [Store.put, Store.rising, hlo, hhi]
  | cons e rest ih =>
    obtain ⟨k, w⟩ := e
    simp only [Store.rising, Bool.and_eq_true, decide_eq_true_eq] at hm
    simp only [Store.put]
    split
    · simp only [Store.rising, Bool.and_eq_true, decide_eq_true_eq]
      exact ⟨⟨hlo, hhi⟩, ⟨by omega, hm.1.2⟩, hm.2⟩
    · split
      · next h =>
        subst h
        simp only [Store.rising, Bool.and_eq_true, decide_eq_true_eq]
        exact ⟨⟨hlo, hhi⟩, hm.2⟩
      · simp only [Store.rising, Bool.and_eq_true, decide_eq_true_eq]
        exact ⟨hm.1, ih (by omega) hm.2⟩

/-- Dropping entries keeps the rising order. -/
theorem Store.rising_filter {hi lo : Nat} (p : Nat × α → Bool) (m : Store α) (hm : Store.rising hi lo m = true) :
    Store.rising hi lo (m.filter p) = true := by
  induction m generalizing lo with
  | nil => rfl
  | cons e rest ih =>
    simp only [Store.rising, Bool.and_eq_true, decide_eq_true_eq] at hm
    rw [List.filter_cons]
    split
    · simp only [Store.rising, Bool.and_eq_true, decide_eq_true_eq]
      exact ⟨hm.1, ih hm.2⟩
    · exact Store.rising_mono (by omega) _ (ih hm.2)

/-- A write below the bound keeps the rising order. -/
theorem Store.rising_write [DecidableEq α] {hi lo a : Nat} (d : α) (m : Store α) (v : α) (hlo : lo ≤ a) (hhi : a < hi)
    (hm : Store.rising hi lo m = true) : Store.rising hi lo (Store.write d m a v) = true := by
  unfold Store.write
  split
  · exact Store.rising_filter _ m hm
  · exact Store.rising_put m v hlo hhi hm

theorem Store.mem_put {m : Store α} {a : Nat} {v : α} {e : Nat × α} (he : e ∈ Store.put m a v) :
    e = (a, v) ∨ e ∈ m := by
  induction m with
  | nil => exact .inl (by simpa [Store.put] using he)
  | cons f rest ih =>
    obtain ⟨k, w⟩ := f
    simp only [Store.put] at he
    split at he
    · simpa using he
    · split at he
      · simp only [List.mem_cons] at he ⊢
        tauto
      · simp only [List.mem_cons] at he ⊢
        rcases he with rfl | he
        · exact .inr (.inl rfl)
        · rcases ih he with h | h
          · exact .inl h
          · exact .inr (.inr h)

theorem Store.lists_iff [DecidableEq α] (d : α) (m : Store α) :
    Store.lists d m = true ↔ ∀ e ∈ m, e.2 ≠ d := by
  simp [Store.lists]

/-- A write lists no entry that an unlisted index reads as. -/
theorem Store.lists_write [DecidableEq α] (d : α) (m : Store α) (a : Nat) (v : α) (hm : Store.lists d m = true) :
    Store.lists d (Store.write d m a v) = true := by
  rw [Store.lists_iff] at hm ⊢
  intro e he
  unfold Store.write at he
  split at he
  · exact hm e (List.mem_of_mem_filter he)
  · next h =>
    rcases Store.mem_put he with rfl | he
    · exact h
    · exact hm e he

/-- A listed value is the value of some entry. -/
theorem Store.mem_of_get {m : Store α} {a : Nat} {v : α} (h : Store.get m a = some v) : (a, v) ∈ m := by
  induction m with
  | nil => simp at h
  | cons e rest ih =>
    obtain ⟨k, w⟩ := e
    rw [Store.get_cons] at h
    split at h
    · next hk => subst hk; cases h; exact List.mem_cons_self
    · exact List.mem_cons_of_mem _ (ih h)

/-- In rising order nothing is listed below the first index. -/
theorem Store.get_below {hi lo a : Nat} {m : Store α} (hm : Store.rising hi lo m = true) (ha : a < lo) :
    Store.get m a = none := by
  induction m generalizing lo with
  | nil => rfl
  | cons e rest ih =>
    obtain ⟨k, w⟩ := e
    simp only [Store.rising, Bool.and_eq_true, decide_eq_true_eq] at hm
    rw [Store.get_cons, if_neg (by omega)]
    exact ih hm.2 (by omega)

/-- In rising order nothing is listed at or above the bound. -/
theorem Store.get_above {hi lo a : Nat} {m : Store α} (hm : Store.rising hi lo m = true) (ha : hi ≤ a) :
    Store.get m a = none := by
  induction m generalizing lo with
  | nil => rfl
  | cons e rest ih =>
    obtain ⟨k, w⟩ := e
    simp only [Store.rising, Bool.and_eq_true, decide_eq_true_eq] at hm
    rw [Store.get_cons, if_neg (by omega)]
    exact ih hm.2

/-- Canonical stores that list the same values are the same data. -/
theorem Store.ext_get {hi lo : Nat} {m m' : Store α} (hm : Store.rising hi lo m = true)
    (hm' : Store.rising hi lo m' = true) (h : ∀ a, Store.get m a = Store.get m' a) : m = m' := by
  induction m generalizing lo m' with
  | nil =>
    cases m' with
    | nil => rfl
    | cons e rest =>
      have := h e.1
      simp [Store.get] at this
  | cons e rest ih =>
    obtain ⟨k, w⟩ := e
    cases m' with
    | nil =>
      have := h k
      simp [Store.get] at this
    | cons e' rest' =>
      obtain ⟨k', w'⟩ := e'
      simp only [Store.rising, Bool.and_eq_true, decide_eq_true_eq] at hm hm'
      have hk : k = k' := by
        by_contra hne
        rcases Nat.lt_or_gt_of_ne hne with hlt | hlt
        · have hb := h k
          rw [Store.get_cons, if_pos rfl, Store.get_cons, if_neg (Ne.symm hne),
            Store.get_below hm'.2 (by omega)] at hb
          cases hb
        · have hb := h k'
          rw [Store.get_cons, if_neg hne, Store.get_cons, if_pos rfl,
            Store.get_below hm.2 (by omega)] at hb
          cases hb
      subst hk
      have hw : w = w' := by
        have hb := h k
        rw [Store.get_cons, if_pos rfl, Store.get_cons, if_pos rfl] at hb
        exact Option.some.inj hb
      subst hw
      rw [ih hm.2 hm'.2 fun a => ?_]
      by_cases ha : a = k
      · subst ha
        rw [Store.get_below hm.2 (by omega), Store.get_below hm'.2 (by omega)]
      · have hb := h a
        rwa [Store.get_cons, if_neg (Ne.symm ha), Store.get_cons, if_neg (Ne.symm ha)] at hb

/-- Canonical memories that read the same everywhere are the same data. -/
theorem Store.ext_read [DecidableEq α] {d : α} {hi lo : Nat} {m m' : Store α} (hm : Store.rising hi lo m = true)
    (hm' : Store.rising hi lo m' = true) (hd : Store.lists d m = true) (hd' : Store.lists d m' = true)
    (h : ∀ a, Store.read d m a = Store.read d m' a) : m = m' := by
  rw [Store.lists_iff] at hd hd'
  refine Store.ext_get hm hm' fun a => ?_
  have ha := h a
  unfold Store.read at ha
  cases hg : Store.get m a with
  | none =>
    cases hg' : Store.get m' a with
    | none => rfl
    | some v =>
      rw [hg, hg'] at ha
      exact absurd ha.symm (hd' _ (Store.mem_of_get hg'))
  | some v =>
    cases hg' : Store.get m' a with
    | none =>
      rw [hg, hg'] at ha
      exact absurd ha (hd _ (Store.mem_of_get hg))
    | some v' =>
      rw [hg, hg'] at ha
      exact congrArg some ha

end Sys2Proof.Machine
end

