-- ==== Sys2Proof/Laws/Canvas.lean ====
section
/-! SUPPORT. What a canvas buffer does: reads after writes, drawing a list of pixels, the canonical form kept. -/

namespace Sys2Proof.Machine

/-- Cells that cover a range stand in rising order. -/
theorem Canvas.covers_rising {n k : Nat} {m : List Host.Cell} (h : Canvas.covers n k m = true) :
    k ≤ n ∧ Store.rising n k m = true := by
  induction m generalizing k with
  | nil =>
    simp only [Canvas.covers, beq_iff_eq] at h
    exact ⟨by omega, rfl⟩
  | cons e rest ih =>
    obtain ⟨a, v⟩ := e
    simp only [Canvas.covers, Bool.and_eq_true, beq_iff_eq] at h
    obtain ⟨rfl, h⟩ := h
    have := ih h
    simp only [Store.rising, Bool.and_eq_true, decide_eq_true_eq]
    exact ⟨by omega, ⟨⟨by omega, by omega⟩, this.2⟩⟩

/-- Cells that cover a range list a value for each index of it, and dropping the zeros drops only those. -/
theorem Canvas.covers_get {n k a : Nat} {m : List Host.Cell} (h : Canvas.covers n k m = true) (hk : k ≤ a)
    (hn : a < n) : ∃ v, Store.get m a = some v ∧
      (Store.get (m.filter fun e => e.2 != 0#8) a).or (some 0#8) = some v := by
  induction m generalizing k with
  | nil =>
    simp only [Canvas.covers, beq_iff_eq] at h
    omega
  | cons e rest ih =>
    obtain ⟨b, w⟩ := e
    have hr := (Canvas.covers_rising h).2
    simp only [Canvas.covers, Bool.and_eq_true, beq_iff_eq] at h
    simp only [Store.rising, Bool.and_eq_true, decide_eq_true_eq] at hr
    obtain ⟨rfl, h⟩ := h
    by_cases hba : b = a
    · subst hba
      refine ⟨w, by simp [Store.get_cons], ?_⟩
      rw [List.filter_cons]
      split
      · simp [Store.get_cons]
      · next hw =>
        rw [Store.get_below (Store.rising_filter _ rest hr.2) (Nat.lt_succ_self b)]
        simpa using Eq.symm (by simpa using hw)
    · obtain ⟨v, hv, hf⟩ := ih h (by omega)
      refine ⟨v, by rw [Store.get_cons, if_neg hba, hv], ?_⟩
      rw [List.filter_cons]
      split
      · rw [Store.get_cons, if_neg hba, hf]
      · exact hf

/-- Rising cells that list every index of a range cover it. -/
theorem Canvas.covers_of_get {n k : Nat} {m : List Host.Cell} (hr : Store.rising n k m = true) (hk : k ≤ n)
    (h : ∀ a, k ≤ a → a < n → Store.get m a ≠ none) : Canvas.covers n k m = true := by
  induction m generalizing k with
  | nil =>
    simp only [Canvas.covers, beq_iff_eq]
    by_contra hne
    exact h k le_rfl (by omega) rfl
  | cons e rest ih =>
    obtain ⟨b, w⟩ := e
    simp only [Store.rising, Bool.and_eq_true, decide_eq_true_eq] at hr
    have hb : b = k := by
      by_contra hne
      refine h k le_rfl (by omega) ?_
      rw [Store.get_cons, if_neg hne]
      exact Store.get_below hr.2 (by omega)
    subst hb
    simp only [Canvas.covers, beq_self_eq_true, Bool.true_and]
    refine ih hr.2 (by omega) fun a ha hn => ?_
    have := h a (by omega) hn
    rwa [Store.get_cons, if_neg (by omega)] at this

/-- Putting listed cells into canonical form changes no cell. -/
theorem Canvas.get_ofCells (n : Nat) (m : List Host.Cell) (a : Nat) :
    (Canvas.ofCells n m).get n a = if a < n then Store.get m a else none := by
  unfold Canvas.ofCells
  split
  · next h =>
    unfold Canvas.get Canvas.unlisted
    split
    · next ha =>
      obtain ⟨v, hv, hf⟩ := Canvas.covers_get h (Nat.zero_le a) ha
      rw [hv]
      simpa using hf
    · rfl
  · unfold Canvas.get Canvas.unlisted
    simp

/-- A cell after a write of one: the value written at its index, the cell from before elsewhere. -/
theorem Canvas.get_put (n : Nat) (c : Canvas) (a b : Nat) (v : Byte) :
    (c.put n a v).get n b = if a < n ∧ a = b then some v else c.get n b := by
  unfold Canvas.put
  by_cases ha : a < n
  · rw [if_pos ha]
    split
    · next hf =>
      have key (m : List Host.Cell) : (Store.get m b).or (some 0#8) = some (Store.read 0#8 m b) := by
        unfold Store.read
        cases Store.get m b <;> rfl
      simp only [Canvas.get, Canvas.unlisted, hf, if_true, key, Store.read_write]
      by_cases hab : a = b
      · subst hab; simp [ha]
      · simp [hab]
    · next hf =>
      rw [Canvas.get_ofCells, Store.get_put]
      simp only [Canvas.get, Canvas.unlisted, hf]
      by_cases hab : a = b
      · subst hab; simp [ha]
      · simp [hab]
  · rw [if_neg ha, if_neg (fun h => ha h.1)]

/-- Every cell of a cleared buffer holds 0 (R190). -/
theorem Canvas.get_cleared (n a : Nat) : Canvas.cleared.get n a = if a < n then some 0#8 else none := by
  simp [Canvas.get, Canvas.cleared, Canvas.unlisted]

@[simp] theorem Canvas.wf_cleared (n : Nat) : Canvas.cleared.wf n = true := rfl

/-- A write keeps the canonical form. -/
theorem Canvas.wf_put {n : Nat} {c : Canvas} (a : Nat) (v : Byte) (h : c.wf n = true) : (c.put n a v).wf n = true := by
  unfold Canvas.put
  split
  · next ha =>
    simp only [Canvas.wf, Bool.and_eq_true] at h ⊢
    split
    · next hf =>
      rw [if_pos hf] at h
      exact ⟨Store.rising_write _ _ _ (Nat.zero_le a) ha h.1, by simpa using Store.lists_write _ _ a v h.2⟩
    · have hr := Store.rising_put _ v (Nat.zero_le a) ha h.1
      unfold Canvas.ofCells
      split
      · exact ⟨Store.rising_filter _ _ hr, by simp [Store.lists_iff]⟩
      · next hc => exact ⟨hr, by simpa using hc⟩
  · exact h

/-- Canonical buffers with the same cells are the same data. -/
theorem Canvas.ext_get {n : Nat} {c c' : Canvas} (h : c.wf n = true) (h' : c'.wf n = true)
    (hg : ∀ a, a < n → c.get n a = c'.get n a) : c = c' := by
  obtain ⟨f, m⟩ := c
  obtain ⟨f', m'⟩ := c'
  simp only [Canvas.wf, Bool.and_eq_true] at h h'
  simp only [Canvas.get, Canvas.unlisted] at hg
  have full_of {g g' : Bool} {l l' : List Host.Cell} (hl' : Store.rising n 0 l' = true)
      (hc' : (if g' = true then Store.lists 0#8 l' else !Canvas.covers n 0 l') = true) (hgt : g = true)
      (heq : ∀ a, a < n → (if a < n then (Store.get l a).or (if g = true then some 0#8 else none) else none)
        = (if a < n then (Store.get l' a).or (if g' = true then some 0#8 else none) else none)) : g' = true := by
    by_contra hne
    rw [if_neg hne] at hc'
    have hcov := Canvas.covers_of_get hl' (Nat.zero_le n) fun a _ ha hn => by
      have := heq a ha
      rw [if_pos ha, if_pos ha, if_pos hgt, if_neg hne, hn] at this
      cases hga : Store.get l a <;> simp [hga] at this
    simp [hcov] at hc'
  have hff : f = f' := by
    cases f with
    | true => exact (full_of h'.1 h'.2 rfl hg).symm
    | false =>
      cases f' with
      | false => rfl
      | true => exact absurd (full_of h.1 h.2 rfl fun a ha => (hg a ha).symm) (by simp)
  subst hff
  congr 1
  cases f with
  | true =>
    simp only [if_true] at h h' hg
    refine Store.ext_read h.1 h'.1 h.2 h'.2 fun a => ?_
    by_cases ha : a < n
    · have := hg a ha
      simp only [if_pos ha] at this
      unfold Store.read
      cases hx : Store.get m a <;> cases hy : Store.get m' a <;> simp_all
    · have ha : n ≤ a := by omega
      unfold Store.read
      rw [Store.get_above h.1 ha, Store.get_above h'.1 ha]
  | false =>
    refine Store.ext_get h.1 h'.1 fun a => ?_
    by_cases ha : a < n
    · have := hg a ha
      simpa [ha] using this
    · rw [Store.get_above h.1 (by omega), Store.get_above h'.1 (by omega)]

/-! ### Pixels -/

/-- Two pixels with the same index are the same pixel. -/
theorem cellAddr_inj {P : Params} {x y x' y' : Int} {a : Nat} (h : cellAddr P x y = some a)
    (h' : cellAddr P x' y' = some a) : x = x' ∧ y = y' := by
  unfold cellAddr at h h'
  split at h <;> split at h' <;> simp only [Option.some.injEq, reduceCtorEq] at h h'
  simp only [Config.canvasW] at *
  omega

/-- A pixel of the canvas has an index below the number of cells. -/
theorem cellAddr_lt {P : Params} {x y : Int} {a : Nat} (h : cellAddr P x y = some a) : a < canvasCells P := by
  unfold cellAddr at h
  split at h
  · simp only [Option.some.injEq] at h
    simp only [Config.canvasW, canvasCells] at *
    omega
  · cases h

/-- A pixel inside a legal clip rectangle is on the canvas (R191, R26). -/
theorem cellAddr_of_legal {P : Params} {c : Clip} {x y : Int} (hc : c.legal P = true) (h : c.contains x y = true) :
    (cellAddr P x y).isSome = true := by
  simp only [Clip.legal, Clip.contains, Bool.and_eq_true, decide_eq_true_eq] at hc h
  unfold cellAddr
  rw [if_pos (by simp only [Config.canvasW]; omega)]
  rfl

/-- A cell after WritePixel (R191). -/
theorem Canvas.get_plot (P : Params) (clip : Clip) (k : BitVec 6) (c : Canvas) (xy : Int × Int) (a : Nat) :
    (c.plot P clip k xy).get (canvasCells P) a =
      if clip.contains xy.1 xy.2 = true ∧ cellAddr P xy.1 xy.2 = some a then some (cellValue k)
      else c.get (canvasCells P) a := by
  unfold Canvas.plot
  split
  · next hc =>
    split
    · next b hb =>
      rw [Canvas.get_put]
      have := cellAddr_lt hb
      simp [hc, hb, this]
    · next hb => simp [hb]
  · next hc => rw [if_neg (fun h => hc h.1)]

/-- A cell after the pixels of a list were plotted: the colour where one of them is the cell's and inside the clip
rectangle, else the cell from before (R191, R295). -/
theorem Canvas.get_plots (P : Params) (clip : Clip) (k : BitVec 6) (c : Canvas) (l : List (Int × Int)) (a : Nat) :
    (c.plots P clip k l).get (canvasCells P) a =
      if ∃ xy ∈ l, clip.contains xy.1 xy.2 = true ∧ cellAddr P xy.1 xy.2 = some a then some (cellValue k)
      else c.get (canvasCells P) a := by
  unfold Canvas.plots
  induction l generalizing c with
  | nil => simp
  | cons xy rest ih =>
    rw [List.foldl_cons, ih, Canvas.get_plot]
    by_cases hr : ∃ z ∈ rest, clip.contains z.1 z.2 = true ∧ cellAddr P z.1 z.2 = some a
    · rw [if_pos hr, if_pos ?_]
      obtain ⟨z, hz, h⟩ := hr
      exact ⟨z, List.mem_cons_of_mem _ hz, h⟩
    · rw [if_neg hr]
      by_cases hx : clip.contains xy.1 xy.2 = true ∧ cellAddr P xy.1 xy.2 = some a
      · rw [if_pos hx, if_pos ⟨xy, List.mem_cons_self, hx⟩]
      · rw [if_neg hx, if_neg]
        rintro ⟨z, hz, h⟩
        rcases List.mem_cons.1 hz with rfl | hz
        · exact hx h
        · exact hr ⟨z, hz, h⟩

/-- Plotting keeps the canonical form. -/
theorem Canvas.wf_plots {P : Params} (clip : Clip) (k : BitVec 6) {c : Canvas} (l : List (Int × Int))
    (h : c.wf (canvasCells P) = true) : (c.plots P clip k l).wf (canvasCells P) = true := by
  unfold Canvas.plots
  induction l generalizing c with
  | nil => exact h
  | cons xy rest ih =>
    refine ih ?_
    unfold Canvas.plot
    split
    · split
      · exact Canvas.wf_put _ _ h
      · exact h
    · exact h

/-- A cell after drawing on a buffer: the colour in the buffer drawn on where a pixel of the list is the cell's, inside
the clip rectangle and on the canvas; else the cell from before (R191, R197). -/
theorem State.cell_drawOn (P : Params) (s : State) (b d : BitVec 1) (clip : Clip) (k : BitVec 6)
    (l : List (Int × Int)) (x y : Int) :
    (s.drawOn P b clip k l).cell P d x y =
      if d = b ∧ (x, y) ∈ l ∧ clip.contains x y = true ∧ (cellAddr P x y).isSome = true then some (cellValue k)
      else s.cell P d x y := by
  unfold State.cell
  rw [State.drawOn_buf]
  cases ha : cellAddr P x y with
  | none => simp
  | some a =>
    simp only
    split
    · next hd =>
      subst hd
      rw [Canvas.get_plots]
      refine if_congr ⟨?_, ?_⟩ rfl rfl
      · rintro ⟨⟨x', y'⟩, hm, hc, h'⟩
        obtain ⟨rfl, rfl⟩ := cellAddr_inj ha h'
        exact ⟨rfl, hm, hc, rfl⟩
      · rintro ⟨-, hm, hc, -⟩
        exact ⟨(x, y), hm, hc, ha⟩
    · next hd => simp [hd]

/-- The two buffers have separate cells. -/
theorem State.cell_setBuf (P : Params) (s : State) (b d : BitVec 1) (c : Canvas) (x y : Int) :
    (s.setBuf b c).cell P d x y =
      if d = b then (match cellAddr P x y with | some a => c.get (canvasCells P) a | none => none)
      else s.cell P d x y := by
  unfold State.cell
  rw [State.setBuf_buf]
  cases cellAddr P x y <;> by_cases h : d = b <;> simp [h]

end Sys2Proof.Machine
end

