-- ==== Sys2Proof/Laws/Decode.lean ====
section
/-! SUPPORT. The fields of a word as numbers, and that a word is its fields. -/

namespace Sys2Proof

theorem entryType_toNat (w : Word) : (entryType w).toNat = w.toNat / 4096 := by
  have := w.isLt
  simp only [entryType, BitVec.extractLsb'_toNat, Nat.shiftRight_eq_div_pow]
  omega

theorem entryIgnored_toNat (w : Word) : (entryIgnored w).toNat = w.toNat / 2048 % 2 := by
  simp only [entryIgnored, BitVec.extractLsb'_toNat, Nat.shiftRight_eq_div_pow]

theorem wordAddr_toNat (w : Word) : (wordAddr w).toNat = w.toNat % 2048 := by
  simp only [wordAddr, BitVec.extractLsb'_toNat, Nat.shiftRight_eq_div_pow]
  omega

theorem headerIgnored_toNat (w : Word) : (headerIgnored w).toNat = w.toNat / 2048 := by
  have := w.isLt
  simp only [headerIgnored, BitVec.extractLsb'_toNat, Nat.shiftRight_eq_div_pow]
  omega

theorem entryWord_toNat (t : BitVec 4) (ign : BitVec 1) (addr : BitVec 11) :
    (entryWord t ign addr).toNat = t.toNat * 4096 + ign.toNat * 2048 + addr.toNat := by
  have h1 := addr.isLt
  have h2 := ign.isLt
  change (t ++ ign ++ addr).toNat = _
  rw [BitVec.toNat_append, BitVec.toNat_append, ← Nat.shiftLeft_add_eq_or_of_lt h1,
    ← Nat.shiftLeft_add_eq_or_of_lt h2]
  simp only [Nat.shiftLeft_eq]
  omega

theorem headerWord_toNat (ign : BitVec 5) (sec : BitVec 11) :
    (headerWord ign sec).toNat = ign.toNat * 2048 + sec.toNat := by
  have h1 := sec.isLt
  change (ign ++ sec).toNat = _
  rw [BitVec.toNat_append, ← Nat.shiftLeft_add_eq_or_of_lt h1]
  simp only [Nat.shiftLeft_eq]

@[simp] theorem entryType_entryWord (t : BitVec 4) (ign : BitVec 1) (addr : BitVec 11) :
    entryType (entryWord t ign addr) = t := by
  have h1 := addr.isLt
  have h2 := ign.isLt
  apply BitVec.eq_of_toNat_eq
  rw [entryType_toNat, entryWord_toNat]
  omega

@[simp] theorem entryIgnored_entryWord (t : BitVec 4) (ign : BitVec 1) (addr : BitVec 11) :
    entryIgnored (entryWord t ign addr) = ign := by
  have h1 := addr.isLt
  have h2 := ign.isLt
  apply BitVec.eq_of_toNat_eq
  rw [entryIgnored_toNat, entryWord_toNat]
  omega

@[simp] theorem wordAddr_entryWord (t : BitVec 4) (ign : BitVec 1) (addr : BitVec 11) :
    wordAddr (entryWord t ign addr) = addr := by
  have h1 := addr.isLt
  apply BitVec.eq_of_toNat_eq
  rw [wordAddr_toNat, entryWord_toNat]
  omega

@[simp] theorem headerIgnored_headerWord (ign : BitVec 5) (sec : BitVec 11) :
    headerIgnored (headerWord ign sec) = ign := by
  have h1 := sec.isLt
  apply BitVec.eq_of_toNat_eq
  rw [headerIgnored_toNat, headerWord_toNat]
  omega

@[simp] theorem wordAddr_headerWord (ign : BitVec 5) (sec : BitVec 11) : wordAddr (headerWord ign sec) = sec := by
  have h1 := sec.isLt
  apply BitVec.eq_of_toNat_eq
  rw [wordAddr_toNat, headerWord_toNat]
  omega

/-- A word is its type, its bit 11 and its address (R71). -/
theorem entryWord_fields (w : Word) : entryWord (entryType w) (entryIgnored w) (wordAddr w) = w := by
  apply BitVec.eq_of_toNat_eq
  rw [entryWord_toNat, entryType_toNat, entryIgnored_toNat, wordAddr_toNat]
  omega

/-- A header's first word is its bits 15:11 and its secondary pointer (R76). -/
theorem headerWord_fields (w : Word) : headerWord (headerIgnored w) (wordAddr w) = w := by
  apply BitVec.eq_of_toNat_eq
  rw [headerWord_toNat, headerIgnored_toNat, wordAddr_toNat]
  omega

/-- Only the last type with all other bits set is the terminator's word (R71, R82). -/
theorem entryWord_eq_ones {t : BitVec 4} {ign : BitVec 1} {addr : BitVec 11} :
    entryWord t ign addr = 0xFFFF#16 ↔ t = 0xF#4 ∧ ign = 1#1 ∧ addr = 0x7FF#11 := by
  have h0 := t.isLt
  have h1 := addr.isLt
  have h2 := ign.isLt
  rw [← BitVec.toNat_inj, ← BitVec.toNat_inj, ← BitVec.toNat_inj, ← BitVec.toNat_inj, entryWord_toNat]
  simp only [BitVec.toNat_ofNat]
  omega

/-- An entry's word is decoded by its type (R82), unless it is the terminator. -/
theorem decodeEntry_entryWord (t : BitVec 4) (ign : BitVec 1) (addr : BitVec 11)
    (h : ¬(t = 0xF#4 ∧ ign = 1#1 ∧ addr = 0x7FF#11)) :
    decodeEntry (entryWord t ign addr) = entryOfType t ign addr := by
  unfold decodeEntry
  rw [if_neg (fun e => h (entryWord_eq_ones.1 e))]
  simp only [entryType_entryWord, entryIgnored_entryWord, wordAddr_entryWord]

theorem encode_decodeEntry_length (w : Word) : (encode (decodeEntry w)).length = 1 := by
  unfold decodeEntry entryOfType
  split
  · rfl
  · split <;> rfl

/-- A record takes the words of its encoding and leaves the others (R70, R74 to R77). -/
theorem decode_length {ctx : Context} {ws rest : List Word} {i : Instr} (h : decode ctx ws = .ok (i, rest)) :
    ws.length = (encode i).length + rest.length := by
  cases ctx
  case table =>
    match ws, h with
    | w :: rest', h =>
      simp only [decode, Except.ok.injEq, Prod.mk.injEq] at h
      obtain ⟨rfl, rfl⟩ := h
      rw [encode_decodeEntry_length, List.length_cons, Nat.add_comm]
  case points =>
    match ws, h with
    | [x], h =>
      simp only [decode] at h
      split at h <;> cases h
      rfl
    | x :: yc :: rest', h =>
      simp only [decode] at h
      split at h <;> cases h <;> simp only [encode, List.length_cons, List.length_nil] <;> omega
  case vectors =>
    match ws, h with
    | [ey], h | [ey, _], h | [ey, _, _], h =>
      simp only [decode] at h
      split at h <;> cases h
      rfl
    | ey :: syc :: slope :: sx :: rest', h =>
      simp only [decode] at h
      split at h <;> cases h <;> simp only [encode, List.length_cons, List.length_nil] <;> omega
  case header =>
    match ws, h with
    | w0 :: x1 :: x2 :: syc :: rest', h =>
      cases h
      simp only [encode, List.length_cons, List.length_nil]
      omega
  case edges =>
    match ws, h with
    | slope :: endY :: rest', h =>
      simp only [decode] at h
      split at h <;> cases h <;> simp only [encode, List.length_cons, List.length_nil] <;> omega

end Sys2Proof
end

