-- ==== Sys2Proof/Laws/Ops.lean ====
section
/-! SUPPORT. One lemma for each shared shape of a meaning: when it answers a next state, and which. -/

namespace Sys2Proof.Machine

/-! ### The fault set -/

theorem mem_addFault {l : List Fault} {f g : Fault} : g ∈ addFault l f ↔ g ∈ l ∨ g = f := by
  unfold addFault
  split
  · next h => exact ⟨.inl, fun hg => hg.elim id fun e => e ▸ h⟩
  · simp

/-- The fault set holds no reason twice (R32). -/
theorem nodup_addFault {l : List Fault} (f : Fault) (h : l.Nodup) : (addFault l f).Nodup := by
  unfold addFault
  split
  · exact h
  · next hf => exact List.nodup_append.2 ⟨h, List.nodup_singleton f, by
      intro a ha b hb hab
      rw [List.mem_singleton] at hb
      subst hb hab
      exact hf ha⟩

/-! ### Host operations -/

theorem hostOp_idle {s : State} (k : Result) (h : s.pass = none) : hostOp s k = k := by simp [hostOp, h]

theorem hostOp_next {s t : State} {k : Result} (h : hostOp s k = .next t) : s.pass = none ∧ k = .next t := by
  unfold hostOp at h
  split at h
  · cases h
  · next hp => exact ⟨hp, h⟩

/-- What a read accessor leaves: the observed value, or the recorded fault (R257, R270). -/
theorem returnValue_next {s t : State} {o : Host.Outcome Observation Fault Refusal} (h : returnValue s o = .next t) :
    (∃ v, o = .next v ∧ t = s.observe v) ∨ ∃ f, o = .fault f ∧ t = s.raise f := by
  unfold returnValue at h
  split at h
  · next v => cases h; exact .inl ⟨v, rfl, rfl⟩
  · next f => cases h; exact .inr ⟨f, rfl, rfl⟩
  · cases h

/-! ### Records in their lists -/

theorem inTable_eq {s : State} {q : Pass} (k : Pass → Result) (h : s.pass = some q) (hp : q.phase = .table) :
    inTable s k = k q := by simp [inTable, h, hp]

theorem inTable_next {s t : State} {k : Pass → Result} (h : inTable s k = .next t) :
    ∃ q, s.pass = some q ∧ q.phase = .table ∧ k q = .next t := by
  unfold inTable at h
  split at h
  · cases h
  · next q hq =>
    split at h
    · next hp => exact ⟨q, hq, hp, h⟩
    · cases h

theorem inPoints_eq {s : State} {q : Pass} {p : Nat} (k : Pass → Nat → Result) (h : s.pass = some q)
    (hp : q.phase = .points p) : inPoints s k = k q p := by simp [inPoints, h, hp]

theorem inPoints_next {s t : State} {k : Pass → Nat → Result} (h : inPoints s k = .next t) :
    ∃ q p, s.pass = some q ∧ q.phase = .points p ∧ k q p = .next t := by
  unfold inPoints at h
  split at h
  · cases h
  · next q hq =>
    split at h
    · next p hp => exact ⟨q, p, hq, hp, h⟩
    · cases h

theorem inVectors_eq {s : State} {q : Pass} {p : Nat} (k : Pass → Nat → Result) (h : s.pass = some q)
    (hp : q.phase = .vectors p) : inVectors s k = k q p := by simp [inVectors, h, hp]

theorem inVectors_next {s t : State} {k : Pass → Nat → Result} (h : inVectors s k = .next t) :
    ∃ q p, s.pass = some q ∧ q.phase = .vectors p ∧ k q p = .next t := by
  unfold inVectors at h
  split at h
  · cases h
  · next q hq =>
    split at h
    · next p hp => exact ⟨q, p, hq, hp, h⟩
    · cases h

theorem inPull_eq {s : State} {q : Pass} {g : Poly} {stage : PolyPhase} (k : Pass → Poly → PolyPhase → Result)
    (h : s.pass = some q) (hp : q.phase = .polygon g stage) (hr : stage ≠ .row) : inPull s k = k q g stage := by
  cases stage <;> simp_all [inPull]

theorem inPull_next {s t : State} {k : Pass → Poly → PolyPhase → Result} (h : inPull s k = .next t) :
    ∃ q g stage, s.pass = some q ∧ q.phase = .polygon g stage ∧ stage ≠ .row ∧ k q g stage = .next t := by
  unfold inPull at h
  split at h
  · cases h
  · next q hq =>
    split at h
    · cases h
    · next g stage hr hp => exact ⟨q, g, stage, hq, hp, fun e => hr e, h⟩
    · cases h

theorem polyHeader_eq {P : Params} {s : State} {q : Pass} {a : Nat} (sec : BitVec 11) (x1 x2 syc : Word)
    (h : s.pass = some q) (hp : q.phase = .header a) :
    polyHeader P sec x1 x2 syc s =
      .next (s.setPass (some { q with phase := .polygon (Poly.start P a sec x1 x2 syc) .firstA })) := by
  simp [polyHeader, h, hp]

theorem polyHeader_next {P : Params} {s t : State} {sec : BitVec 11} {x1 x2 syc : Word}
    (h : polyHeader P sec x1 x2 syc s = .next t) :
    ∃ q a, s.pass = some q ∧ q.phase = .header a ∧
      t = s.setPass (some { q with phase := .polygon (Poly.start P a sec x1 x2 syc) .firstA }) := by
  unfold polyHeader at h
  split at h
  · cases h
  · next q hq =>
    split at h
    · next a hp => cases h; exact ⟨q, a, hq, hp, rfl⟩
    · cases h

/-! ### What one step of a pass can do -/

/-- What drawing leaves: with a clip rectangle the pixels in the draw target and the pass's next phase; without one
CLIP_UNSET, and the pass ended (R109, R169, R191). -/
theorem drawThen_cases (P : Params) (s : State) (q : Pass) (k : BitVec 6) (l : Clip → List (Int × Int)) (next : Phase) :
    (s.clip = none ∧ drawThen P s q k l next = s.raise .clipUnset) ∨
      ∃ c, s.clip = some c ∧ drawThen P s q k l next =
        (s.drawOn P q.target c k (l c)).setPass (some { q with phase := next }) := by
  unfold drawThen
  cases h : s.clip with
  | none => exact .inl ⟨rfl, rfl⟩
  | some c => exact .inr ⟨c, rfl, rfl⟩

/-- Everything a step of the pass q can make of the state s: the pass moves on or ends, or a fault is recorded, or
pixels are drawn in the draw target, inside the clip rectangle, and the pass moves on within its object. The snapshot
and the target never change. -/
def PassMove (P : Params) (s : State) (q : Pass) (t : State) : Prop :=
  t = s.setPass none ∨
    (∃ q', t = s.setPass (some q') ∧ q'.snap = q.snap ∧ q'.target = q.target) ∨
    (∃ f, t = s.raise f) ∨
    ∃ c k l next, s.clip = some c ∧ t = (s.drawOn P q.target c k l).setPass (some { q with phase := next })

theorem PassMove.end {P : Params} {s : State} {q : Pass} : PassMove P s q (s.setPass none) := .inl rfl

theorem PassMove.phase {P : Params} {s : State} {q : Pass} (ph : Phase) :
    PassMove P s q (s.setPass (some { q with phase := ph })) := .inr (.inl ⟨_, rfl, rfl, rfl⟩)

theorem PassMove.endObject {P : Params} {s : State} {q : Pass} : PassMove P s q (endObject s q) :=
  .inr (.inl ⟨_, rfl, rfl, rfl⟩)

theorem PassMove.raise {P : Params} {s : State} {q : Pass} (f : Fault) : PassMove P s q (s.raise f) :=
  .inr (.inr (.inl ⟨f, rfl⟩))

theorem PassMove.draw {P : Params} {s : State} {q : Pass} (k : BitVec 6) (l : Clip → List (Int × Int)) (next : Phase) :
    PassMove P s q (drawThen P s q k l next) := by
  rcases drawThen_cases P s q k l next with ⟨-, h⟩ | ⟨c, hc, h⟩
  · rw [h]; exact .raise _
  · exact .inr (.inr (.inr ⟨c, k, l c, next, hc, h⟩))

theorem startObject_move {P : Params} {s t : State} {ph : Phase} (h : startObject s ph = .next t) :
    ∃ q, s.pass = some q ∧ PassMove P s q t := by
  obtain ⟨q, hq, -, hk⟩ := inTable_next h
  cases hk
  exact ⟨q, hq, .phase ph⟩

theorem reservedObject_move {P : Params} {s t : State} {ty : BitVec 4} {ign : BitVec 1} {addr : BitVec 11}
    (h : reservedObject P ty ign addr s = .next t) : ∃ q, s.pass = some q ∧ PassMove P s q t := by
  obtain ⟨q, hq, -, hk⟩ := inTable_next h
  refine ⟨q, hq, ?_⟩
  split at hk
  · cases hk; exact .raise _
  · cases hk; exact .endObject

/-- Everything a record can do. -/
theorem recordEffect_move {P : Params} {s t : State} {i : Instr} (h : recordEffect P i s = .next t) :
    ∃ q, s.pass = some q ∧ PassMove P s q t := by
  cases i <;> simp only [recordEffect, reduceCtorEq] at h
  case objEnd =>
    obtain ⟨q, hq, -, hk⟩ := inTable_next h
    cases hk
    exact ⟨q, hq, .end⟩
  case objPolygon | objPoint | objVector => exact startObject_move h
  case ptEnd =>
    obtain ⟨q, p, hq, -, hk⟩ := inPoints_next h
    cases hk
    exact ⟨q, hq, .endObject⟩
  case ptPair =>
    obtain ⟨q, p, hq, -, hk⟩ := inPoints_next h
    cases hk
    exact ⟨q, hq, .draw ..⟩
  case vecEnd =>
    obtain ⟨q, p, hq, -, hk⟩ := inVectors_next h
    cases hk
    exact ⟨q, hq, .endObject⟩
  case vecSeg =>
    obtain ⟨q, p, hq, -, hk⟩ := inVectors_next h
    cases hk
    exact ⟨q, hq, .draw ..⟩
  case polyHdr =>
    obtain ⟨q, a, hq, -, rfl⟩ := polyHeader_next h
    exact ⟨q, hq, .phase _⟩
  case edgeEnd =>
    obtain ⟨q, g, st, hq, -, -, hk⟩ := inPull_next h
    cases hk
    exact ⟨q, hq, .endObject⟩
  case edgeSeg =>
    obtain ⟨q, g, st, hq, -, -, hk⟩ := inPull_next h
    cases hk
    exact ⟨q, hq, .phase _⟩
  all_goals exact reservedObject_move h

/-- A record's meaning is what it does inside a pass. -/
theorem exec_record {i : Instr} {ctx : Context} (h : i.context = some ctx) (s : State) :
    exec i s = recordEffect params i s := by
  cases i <;> first | rfl | cases h

/-- What is read is a record of the list being read (R83). -/
theorem decode_context {ctx : Context} {ws rest : List Word} {i : Instr} (h : decode ctx ws = .ok (i, rest)) :
    i.context = some ctx := by
  unfold decode at h
  split at h
  · cases h
    unfold decodeEntry entryOfType
    split
    · rfl
    · split <;> rfl
  all_goals first
    | (cases h; done)
    | (cases h; rfl)
    | (split at h
       · cases h; rfl
       · first
         | (cases h; rfl)
         | (split at h
            · cases h; rfl
            · cases h))

theorem readRecord_record {P : Params} {q : Pass} {ctx : Context} {p : Nat} {i : Instr}
    (h : readRecord P q ctx p = .record i) : i.context = some ctx := by
  unfold readRecord at h
  split at h
  · next i' rest hd =>
    cases h
    exact decode_context hd
  · cases h

/-- The list the phase reads. -/
def Phase.context : Phase → Context
  | .table => .table
  | .points _ => .points
  | .vectors _ => .vectors
  | .header _ => .header
  | .polygon _ _ => .edges

theorem nextTurn_record {P : Params} {q : Pass} {i : Instr} (h : nextTurn P q = .record i) :
    i.context = some q.phase.context ∧ ∀ g, q.phase ≠ .polygon g .row := by
  unfold nextTurn at h
  split at h
  · next hp =>
    rw [hp]
    split at h
    · split at h
      · next hr =>
        cases h
        exact ⟨readRecord_record hr, by simp⟩
      · cases h
    · cases h
  all_goals
    next hp =>
    rw [hp]
    first
    | exact ⟨readRecord_record h, by simp⟩
    | cases h

/-- A record of the list being read always has its effect. -/
theorem recordEffect_total {P : Params} {s : State} {q : Pass} {i : Instr} (hq : s.pass = some q)
    (hc : i.context = some q.phase.context) (hr : ∀ g, q.phase ≠ .polygon g .row) :
    ∃ t, recordEffect P i s = .next t := by
  obtain ⟨snap, d, n, ph⟩ := q
  have hres (ty : BitVec 4) (ign : BitVec 1) (addr : BitVec 11) (hp : ph = .table) :
      ∃ t, reservedObject P ty ign addr s = .next t := by
    subst hp
    unfold reservedObject
    rw [inTable_eq _ hq rfl]
    split <;> exact ⟨_, rfl⟩
  cases i <;> cases ph <;> simp only [Instr.context, Phase.context, Option.some.injEq, reduceCtorEq] at hc <;>
    simp only [recordEffect]
  case objEnd.table => exact ⟨_, by unfold execObjEnd; exact inTable_eq _ hq rfl⟩
  case objPolygon.table | objPoint.table | objVector.table => exact ⟨_, inTable_eq _ hq rfl⟩
  case ptEnd.points => exact ⟨_, by unfold execPtEnd; exact inPoints_eq _ hq rfl⟩
  case ptPair.points => exact ⟨_, by unfold pointPair; exact inPoints_eq _ hq rfl⟩
  case vecEnd.vectors => exact ⟨_, by unfold execVecEnd; exact inVectors_eq _ hq rfl⟩
  case vecSeg.vectors => exact ⟨_, by unfold vectorSeg; exact inVectors_eq _ hq rfl⟩
  case polyHdr.header => exact ⟨_, polyHeader_eq _ _ _ _ hq rfl⟩
  case edgeEnd.polygon g st =>
    exact ⟨_, by unfold execEdgeEnd; exact inPull_eq _ hq rfl fun e => hr g (by rw [e])⟩
  case edgeSeg.polygon g st =>
    exact ⟨_, by unfold edgeSegment; exact inPull_eq _ hq rfl fun e => hr g (by rw [e])⟩
  all_goals exact hres _ _ _ rfl

/-- Everything one step of a pass can do. -/
theorem passStep_move {P : Params} {s t : State} {q : Pass} (hq : s.pass = some q)
    (h : passStep (recordEffect P) P s q = .next t) : PassMove P s q t := by
  unfold passStep at h
  split at h
  · obtain ⟨q', hq', hm⟩ := recordEffect_move h
    rw [hq] at hq'
    cases hq'
    exact hm
  · cases h; exact .endObject
  · cases h; exact .end
  · cases h; exact .draw ..

/-- A step of a pass always answers a next state. -/
theorem passStep_total {P : Params} {s : State} {q : Pass} (hq : s.pass = some q) :
    ∃ t, passStep (recordEffect P) P s q = .next t := by
  unfold passStep
  split
  · next i hi =>
    obtain ⟨hc, hr⟩ := nextTurn_record hi
    exact recordEffect_total hq hc hr
  all_goals exact ⟨_, rfl⟩

/-- The machine's step of a pass runs the records through exec. -/
theorem passStep_exec (s : State) (q : Pass) : passStep exec params s q = passStep (recordEffect params) params s q := by
  unfold passStep
  split
  · next i hi => exact exec_record (nextTurn_record hi).1 s
  all_goals rfl

/-- What every step of a pass keeps, the whole pass keeps. -/
theorem runPass_induct {P : Params} {M : State → Prop}
    (hstep : ∀ s q t, M s → s.pass = some q → passStep (recordEffect P) P s q = .next t → M t) {n : Nat}
    {s t : State} (hs : M s) (h : runPass P n s = .next t) : M t := by
  induction n generalizing s with
  | zero => cases h; exact hs
  | succ n ih =>
    unfold runPass at h
    split at h
    · cases h; exact hs
    · next q hq =>
      split at h
      · next u hu => exact ih (hstep _ _ _ hs hq hu) h
      · cases h
      · cases h

/-- What every move of a pass keeps, the whole pass keeps. -/
theorem runPass_induct_move {P : Params} {M : State → Prop}
    (hmove : ∀ s q t, M s → s.pass = some q → PassMove P s q t → M t) {n : Nat} {s t : State} (hs : M s)
    (h : runPass P n s = .next t) : M t :=
  runPass_induct (fun s q t hM hq ht => hmove s q t hM hq (passStep_move hq ht)) hs h

/-- TRIGGER_RUN answers BUFSEL_UNSET, or what the whole pass leaves (R100). -/
theorem triggerRun_next {P : Params} {s t : State} (h : triggerRun P s = .next t) :
    s.pass = none ∧ (s.bufsel = none ∧ t = s.raise .bufselUnset ∨
      ∃ v, s.bufsel = some v ∧ runPass P (passSteps P) (s.setPass (some (Pass.start P s v))) = .next t) := by
  obtain ⟨hp, hk⟩ := hostOp_next h
  refine ⟨hp, ?_⟩
  split at hk
  · next hb => cases hk; exact .inl ⟨hb, rfl⟩
  · next v hb => exact .inr ⟨v, hb, hk⟩

/-- A pass always answers a next state. -/
theorem runPass_total {P : Params} (n : Nat) (s : State) : ∃ t, runPass P n s = .next t := by
  induction n generalizing s with
  | zero => exact ⟨s, rfl⟩
  | succ n ih =>
    unfold runPass
    split
    · exact ⟨s, rfl⟩
    · next q hq =>
      obtain ⟨t, ht⟩ := passStep_total (P := P) hq
      rw [ht]
      exact ih t

end Sys2Proof.Machine
end

