-- ==== Sys2Proof/Laws/Exec.lean ====
section
/-! SUPPORT. Everything `exec` can do, said once: a move of a host operation, a whole pass, or a move of the pass in
progress; where a record that is read can lie; and the registers that a pass never touches. -/

namespace Sys2Proof.Machine

/-! ### Records of the snapshot -/

/-- The words read from the snapshot lie below the bound (R53). -/
theorem snapWords_length (P : Params) (q : Pass) (n p : Nat) (h : snapWords P q n p ≠ []) :
    p + (snapWords P q n p).length ≤ P.cmdWords := by
  induction n generalizing p with
  | zero => exact absurd rfl h
  | succ n ih =>
    unfold snapWords at h ⊢
    split at h
    · next hp =>
      rw [if_pos hp, List.length_cons]
      by_cases he : snapWords P q n (p + 1) = []
      · rw [he, List.length_nil]; omega
      · have := ih (p + 1) he; omega
    · exact absurd rfl h

/-- A record that is read lies below the bound (R53). -/
theorem readRecord_fits {P : Params} {q : Pass} {ctx : Context} {p : Nat} {i : Instr}
    (h : readRecord P q ctx p = .record i) : p + (encode i).length ≤ P.cmdWords := by
  unfold readRecord at h
  split at h
  · next i' rest hd =>
    cases h
    have hl := decode_length hd
    have hne : snapWords P q ctx.words p ≠ [] := by
      intro e
      rw [e] at hd
      cases ctx <;> cases hd
    have := snapWords_length P q ctx.words p hne
    omega
  · cases h

/-! ### What exec can do -/

/-- Everything a host operation other than TRIGGER_RUN can make of the state s (R190 to R195, R210 to R215, R230, R250 to
R253): a read accessor records a fault or a returned value; each writer writes its own register or memory. -/
def HostMove (i : Instr) (s t : State) : Prop :=
  (∃ f, t = s.raise f) ∨ (∃ o, t = s.observe o) ∨
  (∃ w, (w = 0 ∨ w = 1) ∧ i = .clearBuffer w ∧ t = s.setBuf (BitVec.ofInt 1 w) Canvas.cleared) ∨
  (∃ c, i = .setClip c.xmin c.ymin c.xmax c.ymax ∧ c.legal params = true ∧ t = s.setClip c) ∨
  (i = .buildStaticPalette ∧ t = (List.range 32).foldl buildStaticEntry s) ∨
  (∃ o d, i = .paletteWrite o d ∧ t = s.writePal (paletteEntry o.toNat) (dynamicColor o.toNat d.toNat)) ∨
  (∃ k w, i = .hostWriteCmd k w ∧ 0 ≤ k ∧ k < params.cmdWords ∧ t = s.writeCmd k.toNat (BitVec.ofInt 16 w)) ∨
  (∃ k w, i = .hostWriteVram k w ∧ 0 ≤ k ∧ k < 1024 ∧ t = s.writeVram k.toNat (BitVec.ofInt 8 w)) ∨
  (∃ v, i = .hostSetBufsel v ∧ t = s.setBufsel (BitVec.ofInt 1 v)) ∨
  (∃ v, i = .hostSetAlphamap v ∧ t = s.setAlphamap (BitVec.ofInt 8 v))

/-- A read accessor only records (R257, R270). -/
theorem returnValue_move {i : Instr} {s t : State} {o : Host.Outcome Observation Fault Refusal}
    (h : returnValue s o = .next t) : HostMove i s t := by
  rcases returnValue_next h with ⟨v, -, rfl⟩ | ⟨f, -, rfl⟩
  · exact .inr (.inl ⟨v, rfl⟩)
  · exact .inl ⟨f, rfl⟩

/-- What a host operation other than TRIGGER_RUN does, when it answers a next state. -/
theorem exec_host {i : Instr} {s t : State} (hc : i.context = none) (hi : i ≠ .triggerRun) (h : exec i s = .next t) :
    s.pass = none ∧ HostMove i s t := by
  cases i <;> simp only [Instr.context, reduceCtorEq, ne_eq, not_true_eq_false] at hc hi
  case clearBuffer w =>
    obtain ⟨hp, hk⟩ := hostOp_next h
    split at hk
    · next hw => cases hk; exact ⟨hp, .inr (.inr (.inl ⟨w, hw, rfl, rfl⟩))⟩
    · cases hk
  case setClip a b c d =>
    obtain ⟨hp, hk⟩ := hostOp_next h
    split at hk
    · next hw => cases hk; exact ⟨hp, .inr (.inr (.inr (.inl ⟨⟨a, b, c, d⟩, rfl, hw, rfl⟩)))⟩
    · cases hk
  case renderedScanline y => obtain ⟨hp, hk⟩ := hostOp_next h; exact ⟨hp, returnValue_move hk⟩
  case compositeScanline y => obtain ⟨hp, hk⟩ := hostOp_next h; exact ⟨hp, returnValue_move hk⟩
  case paletteColor y => obtain ⟨hp, hk⟩ := hostOp_next h; exact ⟨hp, returnValue_move hk⟩
  case buildStaticPalette => obtain ⟨hp, hk⟩ := hostOp_next h; cases hk; exact ⟨hp, .inr (.inr (.inr (.inr (.inl ⟨rfl, rfl⟩))))⟩
  case paletteWrite o d =>
    obtain ⟨hp, hk⟩ := hostOp_next h
    split at hk
    · cases hk
    · cases hk; exact ⟨hp, .inr (.inr (.inr (.inr (.inr (.inl ⟨o, d, rfl, rfl⟩)))))⟩
  case hostWriteCmd o d =>
    obtain ⟨hp, hk⟩ := hostOp_next h
    split at hk
    · cases hk
    · cases hk; exact ⟨hp, .inr (.inr (.inr (.inr (.inr (.inr (.inl ⟨o, d, rfl, by omega, by omega, rfl⟩))))))⟩
  case hostWriteVram o d =>
    obtain ⟨hp, hk⟩ := hostOp_next h
    split at hk
    · cases hk
    · cases hk; exact ⟨hp, .inr (.inr (.inr (.inr (.inr (.inr (.inr (.inl ⟨o, d, rfl, by omega, by omega, rfl⟩)))))))⟩
  case hostSetBufsel v =>
    obtain ⟨hp, hk⟩ := hostOp_next h
    split at hk
    · cases hk; exact ⟨hp, .inr (.inr (.inr (.inr (.inr (.inr (.inr (.inr (.inl ⟨v, rfl, rfl⟩))))))))⟩
    · cases hk
  case hostSetAlphamap v =>
    obtain ⟨hp, hk⟩ := hostOp_next h
    split at hk
    · cases hk
    · cases hk; exact ⟨hp, .inr (.inr (.inr (.inr (.inr (.inr (.inr (.inr (.inr ⟨v, rfl, rfl⟩))))))))⟩

/-- Everything exec can do, when it answers a next state. -/
theorem exec_cases {i : Instr} {s t : State} (h : exec i s = .next t) :
    (∃ ctx q, i.context = some ctx ∧ s.pass = some q ∧ PassMove params s q t) ∨
    (i = .triggerRun ∧ triggerRun params s = .next t) ∨ (i.context = none ∧ s.pass = none ∧ HostMove i s t) := by
  by_cases hi : i = .triggerRun
  · subst hi; exact .inr (.inl ⟨rfl, h⟩)
  · cases hc : i.context with
    | none => exact .inr (.inr ⟨rfl, exec_host hc hi h⟩)
    | some ctx =>
      rw [exec_record hc] at h
      obtain ⟨q, hq, hm⟩ := recordEffect_move h
      exact .inl ⟨ctx, q, rfl, hq, hm⟩

/-- The part of the state that a pass never touches: all but the buffers, the fault set and the pass itself. -/
def SameRegisters (s t : State) : Prop :=
  t.cmd = s.cmd ∧ t.videoram = s.videoram ∧ t.colorProm = s.colorProm ∧ t.clip = s.clip ∧ t.bufsel = s.bufsel ∧
    t.alphamap = s.alphamap ∧ t.pal = s.pal ∧ t.pending = s.pending ∧ t.observed = s.observed

theorem PassMove.registers {P : Params} {s t : State} {q : Pass} (hm : PassMove P s q t) : SameRegisters s t := by
  rcases hm with rfl | ⟨q', rfl, h1, h2⟩ | ⟨f, rfl⟩ | ⟨c, k, l, next, hc, rfl⟩ <;> simp [SameRegisters]

/-- A pass writes only its draw target. -/
theorem PassMove.buf {P : Params} {s t : State} {q : Pass} {b : BitVec 1} (hm : PassMove P s q t) (h : b ≠ q.target) :
    t.buf b = s.buf b := by
  rcases hm with rfl | ⟨q', rfl, h1, h2⟩ | ⟨f, rfl⟩ | ⟨c, k, l, next, hc, rfl⟩ <;> simp [State.drawOn_buf, h]

theorem PassMove.faults {P : Params} {s t : State} {q : Pass} (hm : PassMove P s q t) : ∀ f ∈ s.faults, f ∈ t.faults := by
  rcases hm with rfl | ⟨q', rfl, h1, h2⟩ | ⟨f, rfl⟩ | ⟨c, k, l, next, hc, rfl⟩ <;> simp +contextual [mem_addFault]

theorem triggerRun_registers {P : Params} {s t : State} (h : triggerRun P s = .next t) : SameRegisters s t := by
  obtain ⟨-, ⟨-, rfl⟩ | ⟨v, -, h⟩⟩ := triggerRun_next h
  · simp [SameRegisters]
  · refine runPass_induct_move (M := SameRegisters s) ?_ (by simp [SameRegisters]) h
    intro a q b ha _ hm
    have := hm.registers
    simp_all [SameRegisters]

/-! ### The palette's builder -/

/-- Building static entries changes the palette alone (R210). -/
theorem buildStaticEntries_eq (l : List Nat) (s : State) : ∃ p, l.foldl buildStaticEntry s = { s with pal := p } := by
  induction l generalizing s with
  | nil => exact ⟨s.pal, rfl⟩
  | cons a l ih => obtain ⟨p, hp⟩ := ih (buildStaticEntry s a); exact ⟨p, by rw [List.foldl_cons, hp]; rfl⟩

/-- Building static entries changes no other entry than those of their static indices (R212). -/
theorem buildStaticEntries_other (l : List Nat) (s : State) (n : Nat) (hn : ∀ i ∈ l, staticIndex i ≠ n) :
    (l.foldl buildStaticEntry s).palette n = s.palette n := by
  induction l generalizing s with
  | nil => rfl
  | cons a l ih =>
    rw [List.foldl_cons, ih _ (fun i hi => hn i (by simp [hi]))]
    have := hn a (by simp)
    simp only [State.palette, buildStaticEntry, State.writePal_pal, Store.get_put]
    rw [if_neg (by omega)]

end Sys2Proof.Machine
end

