-- ==== Sys2Proof/Laws/Memory.lean ====
section
/-! SUPPORT. Every operation on the state's memories keeps their canonical form, and the state at start-up has it. -/

namespace Sys2Proof.Machine

/-- The canonical form, part by part. -/
theorem Memory.wfFor_iff (P : Params) (s : State) : Memory.wfFor P s = true ↔
    Store.rising P.cmdWords 0 s.cmd = true ∧ Store.lists 0#16 s.cmd = true ∧
      Store.rising 1024 0 s.videoram = true ∧ Store.lists 0#8 s.videoram = true ∧
      Store.rising 32 0 s.colorProm = true ∧ Store.lists 0#8 s.colorProm = true ∧
      (∀ b, (s.buf b).wf (canvasCells P) = true) ∧ Store.rising 96 0 s.pal = true := by
  have hb : (∀ b, (s.buf b).wf (canvasCells P) = true) ↔
      s.buf0.wf (canvasCells P) = true ∧ s.buf1.wf (canvasCells P) = true :=
    ⟨fun h => ⟨h 0#1, h 1#1⟩, fun h b => by rcases index_cases b with rfl | rfl; exacts [h.1, h.2]⟩
  simp only [Memory.wfFor, Bool.and_eq_true, hb]
  tauto

/-- The state at start-up is canonical. -/
theorem Memory.wf_reset : Memory.wf State.reset = true := by decide

theorem Memory.wf_writeCmd {P : Params} {s : State} {i : Nat} (w : Word) (hi : i < P.cmdWords)
    (h : Memory.wfFor P s = true) : Memory.wfFor P (s.writeCmd i w) = true := by
  rw [Memory.wfFor_iff] at h ⊢
  exact ⟨Store.rising_write _ _ _ (Nat.zero_le i) hi h.1, Store.lists_write _ _ _ _ h.2.1, h.2.2⟩

theorem Memory.wf_writeVram {P : Params} {s : State} {i : Nat} (b : Byte) (hi : i < 1024)
    (h : Memory.wfFor P s = true) : Memory.wfFor P (s.writeVram i b) = true := by
  rw [Memory.wfFor_iff] at h ⊢
  exact ⟨h.1, h.2.1, Store.rising_write _ _ _ (Nat.zero_le i) hi h.2.2.1, Store.lists_write _ _ _ _ h.2.2.2.1,
    h.2.2.2.2⟩

theorem Memory.wf_writePal {P : Params} {s : State} {n : Nat} (c : Rgb) (hn : n < 96)
    (h : Memory.wfFor P s = true) : Memory.wfFor P (s.writePal n c) = true := by
  rw [Memory.wfFor_iff] at h ⊢
  obtain ⟨h1, h2, h3, h4, h5, h6, h7, h8⟩ := h
  exact ⟨h1, h2, h3, h4, h5, h6, h7, Store.rising_put _ _ (Nat.zero_le n) hn h8⟩

theorem Memory.wf_setBuf {P : Params} {s : State} (b : BitVec 1) {c : Canvas} (hc : c.wf (canvasCells P) = true)
    (h : Memory.wfFor P s = true) : Memory.wfFor P (s.setBuf b c) = true := by
  rw [Memory.wfFor_iff] at h ⊢
  obtain ⟨h1, h2, h3, h4, h5, h6, h7, h8⟩ := h
  refine ⟨by simpa, by simpa, by simpa, by simpa, by simpa, by simpa, fun d => ?_, by simpa⟩
  rw [State.setBuf_buf]
  split
  · exact hc
  · exact h7 d

theorem Memory.wf_drawOn {P : Params} {s : State} (b : BitVec 1) (c : Clip) (k : BitVec 6) (l : List (Int × Int))
    (h : Memory.wfFor P s = true) : Memory.wfFor P (s.drawOn P b c k l) = true :=
  Memory.wf_setBuf b (Canvas.wf_plots c k l (((Memory.wfFor_iff P s).1 h).2.2.2.2.2.2.1 b)) h

/-- The updates that touch no memory keep every memory as it was. -/
theorem Memory.wf_registers (P : Params) (s : State) (c : Clip) (v : BitVec 1) (a : Byte) (o : Observation)
    (p : Option Pass) (ops : List Instr) (f : Fault) :
    Memory.wfFor P (s.setClip c) = Memory.wfFor P s ∧ Memory.wfFor P (s.setBufsel v) = Memory.wfFor P s ∧
      Memory.wfFor P (s.setAlphamap a) = Memory.wfFor P s ∧ Memory.wfFor P (s.observe o) = Memory.wfFor P s ∧
      Memory.wfFor P (s.setPass p) = Memory.wfFor P s ∧ Memory.wfFor P (s.setPending ops) = Memory.wfFor P s ∧
      Memory.wfFor P (s.raise f) = Memory.wfFor P s :=
  ⟨rfl, rfl, rfl, rfl, rfl, rfl, rfl⟩

/-- A step of a pass keeps every memory canonical. -/
theorem Memory.wf_move {P : Params} {s t : State} {q : Pass} (hm : PassMove P s q t)
    (h : Memory.wfFor P s = true) : Memory.wfFor P t = true := by
  rcases hm with rfl | ⟨q', rfl, -⟩ | ⟨f, rfl⟩ | ⟨c, k, l, next, -, rfl⟩
  · exact h
  · exact h
  · exact h
  · exact Memory.wf_drawOn q.target c k l h

end Sys2Proof.Machine
end

