-- ==== Sys2Proof/Laws/Operands.lean ====
section
/-! SUPPORT. What the operand forms say: the clip test, the colour of a word, the pixels of a polygon row. -/

namespace Sys2Proof.Machine

/-- The clip test is the four inclusive bounds (R191). -/
theorem Clip.contains_iff (c : Clip) (x y : Int) :
    c.contains x y = true ↔ c.xmin ≤ x ∧ x ≤ c.xmax ∧ c.ymin ≤ y ∧ y ≤ c.ymax := by
  simp only [Clip.contains, Bool.and_eq_true, decide_eq_true_eq]
  tauto

/-- A legal rectangle, bound by bound (R26). -/
theorem Clip.legal_iff (P : Params) (c : Clip) :
    c.legal P = true ↔ 0 ≤ c.xmin ∧ c.xmax ≤ 255 ∧ 0 ≤ c.ymin ∧ c.ymax ≤ (P.canvasH : Int) - 1 := by
  simp only [Clip.legal, Bool.and_eq_true, decide_eq_true_eq]
  tauto

/-- A cell's colour byte is the low six bits of the word, zero-extended (R72, R192). -/
theorem cellValue_wordColor (w : Word) : cellValue (wordColor w) = (w &&& 0x3F#16).setWidth 8 := by
  apply BitVec.eq_of_toNat_eq
  simp only [cellValue, wordColor, BitVec.truncate_eq_setWidth, BitVec.toNat_setWidth, BitVec.extractLsb'_toNat,
    BitVec.toNat_and, BitVec.toNat_ofNat, Nat.shiftRight_zero]
  rw [show 63 % 2 ^ 16 = 2 ^ 6 - 1 from rfl, Nat.and_two_pow_sub_one_eq_mod]

/-- A drawn cell holds 0..63 (R192). -/
theorem cellValue_lt (c : BitVec 6) : (cellValue c).toNat < 64 := by
  have := c.isLt
  simp only [cellValue, BitVec.truncate_eq_setWidth, BitVec.toNat_setWidth]
  omega

theorem mem_intsFrom {n : Nat} {a x : Int} : x ∈ intsFrom n a ↔ a ≤ x ∧ x < a + n := by
  induction n generalizing a with
  | zero => simp only [intsFrom, List.not_mem_nil, false_iff]; omega
  | succ n ih => simp only [intsFrom, List.mem_cons, ih]; omega

theorem length_intsFrom (n : Nat) (a : Int) : (intsFrom n a).length = n := by
  induction n generalizing a with
  | zero => rfl
  | succ n ih => simp [intsFrom, ih]

/-- The pixels of a polygon row: in the vertical clip range, above the span's lower end up to its upper end (R169). -/
theorem mem_rowPixels (P : Params) (c : Clip) (y : Int) (xa xb : BitVec Config.xaccWidth) (px py : Int) :
    (px, py) ∈ rowPixels P c y xa xb ↔
      py = y ∧ c.ymin ≤ y ∧ y ≤ c.ymax ∧ (spanEnds P c xa xb).1 < px ∧ px ≤ (spanEnds P c xa xb).2 := by
  unfold rowPixels
  split
  · simp only [List.not_mem_nil, false_iff]
    omega
  · simp only [List.mem_map, mem_intsFrom, Prod.mk.injEq]
    constructor
    · rintro ⟨z, hz, rfl, rfl⟩
      omega
    · rintro ⟨rfl, h⟩
      exact ⟨px, by omega, rfl, rfl⟩

/-- An edge with a segment has ended when y exceeds the segment's terminal row (R168). -/
@[simp] theorem Edge.ended_some (P : Params) (ptr : Nat) (x : BitVec Config.xaccWidth) (g : Segment) (y : Int) :
    Edge.ended P ⟨ptr, x, some g⟩ y = decide (y > pixel P g.endY) := rfl

/-- An edge with a segment advances its X by the slope (R168). -/
@[simp] theorem Edge.advance_some (ptr : Nat) (x : BitVec Config.xaccWidth) (g : Segment) :
    Edge.advance ⟨ptr, x, some g⟩ = ⟨ptr, advanceX x g.slope, some g⟩ := rfl

end Sys2Proof.Machine
end

