-- ==== Sys2Proof/Laws/PerInstr.lean ====
section
/-! SUPPORT. What holds of every instruction as syntax: an encoded record has between one word and as many as its
format has, and only a terminator has fewer; a host operation has no words (R70, R83, R86). -/

namespace Sys2Proof.Laws

/-- The terminators, whose first word ends their list (R103, R121, R141). -/
def isWordTerminator : Instr → Bool
  | .ptEnd => true
  | .vecEnd => true
  | _ => false

/-- The length of an instruction's encoding (R70, R83): none for a host operation, one word for the terminator of a
point or vector list, otherwise the length of the record's format. -/
def RecordLength.Statement (i : Instr) : Prop :=
  (encode i).length =
    match i.context with
    | none => 0
    | some ctx => if isWordTerminator i then 1 else ctx.words

theorem RecordLength.objEnd : RecordLength.Statement .objEnd := rfl
theorem RecordLength.objPolygon (ign : BitVec 1) (addr : BitVec 11) : RecordLength.Statement (.objPolygon ign addr) := rfl
theorem RecordLength.objPoint (ign : BitVec 1) (addr : BitVec 11) : RecordLength.Statement (.objPoint ign addr) := rfl
theorem RecordLength.objVector (ign : BitVec 1) (addr : BitVec 11) : RecordLength.Statement (.objVector ign addr) := rfl
theorem RecordLength.objReserved0 (ign : BitVec 1) (addr : BitVec 11) : RecordLength.Statement (.objReserved0 ign addr) := rfl
theorem RecordLength.objReserved1 (ign : BitVec 1) (addr : BitVec 11) : RecordLength.Statement (.objReserved1 ign addr) := rfl
theorem RecordLength.objReserved2 (ign : BitVec 1) (addr : BitVec 11) : RecordLength.Statement (.objReserved2 ign addr) := rfl
theorem RecordLength.objReserved3 (ign : BitVec 1) (addr : BitVec 11) : RecordLength.Statement (.objReserved3 ign addr) := rfl
theorem RecordLength.objReserved5 (ign : BitVec 1) (addr : BitVec 11) : RecordLength.Statement (.objReserved5 ign addr) := rfl
theorem RecordLength.objReserved6 (ign : BitVec 1) (addr : BitVec 11) : RecordLength.Statement (.objReserved6 ign addr) := rfl
theorem RecordLength.objReserved7 (ign : BitVec 1) (addr : BitVec 11) : RecordLength.Statement (.objReserved7 ign addr) := rfl
theorem RecordLength.objReserved9 (ign : BitVec 1) (addr : BitVec 11) : RecordLength.Statement (.objReserved9 ign addr) := rfl
theorem RecordLength.objReservedA (ign : BitVec 1) (addr : BitVec 11) : RecordLength.Statement (.objReservedA ign addr) := rfl
theorem RecordLength.objReservedB (ign : BitVec 1) (addr : BitVec 11) : RecordLength.Statement (.objReservedB ign addr) := rfl
theorem RecordLength.objReservedD (ign : BitVec 1) (addr : BitVec 11) : RecordLength.Statement (.objReservedD ign addr) := rfl
theorem RecordLength.objReservedE (ign : BitVec 1) (addr : BitVec 11) : RecordLength.Statement (.objReservedE ign addr) := rfl
theorem RecordLength.objReservedF (ign : BitVec 1) (addr : BitVec 11) : RecordLength.Statement (.objReservedF ign addr) := rfl
theorem RecordLength.ptEnd : RecordLength.Statement .ptEnd := rfl
theorem RecordLength.ptPair (x yc : Word) : RecordLength.Statement (.ptPair x yc) := rfl
theorem RecordLength.vecEnd : RecordLength.Statement .vecEnd := rfl
theorem RecordLength.vecSeg (ey syc slope sx : Word) : RecordLength.Statement (.vecSeg ey syc slope sx) := rfl
theorem RecordLength.polyHdr (ign : BitVec 5) (sec : BitVec 11) (x1 x2 syc : Word) : RecordLength.Statement (.polyHdr ign sec x1 x2 syc) := rfl
theorem RecordLength.edgeEnd : RecordLength.Statement .edgeEnd := rfl
theorem RecordLength.edgeSeg (slope endY : Word) : RecordLength.Statement (.edgeSeg slope endY) := rfl
theorem RecordLength.triggerRun : RecordLength.Statement .triggerRun := rfl
theorem RecordLength.clearBuffer (which : Int) : RecordLength.Statement (.clearBuffer which) := rfl
theorem RecordLength.setClip (xmin ymin xmax ymax : Int) : RecordLength.Statement (.setClip xmin ymin xmax ymax) := rfl
theorem RecordLength.renderedScanline (y : Int) : RecordLength.Statement (.renderedScanline y) := rfl
theorem RecordLength.buildStaticPalette : RecordLength.Statement .buildStaticPalette := rfl
theorem RecordLength.paletteWrite (offset data : Int) : RecordLength.Statement (.paletteWrite offset data) := rfl
theorem RecordLength.paletteColor (index : Int) : RecordLength.Statement (.paletteColor index) := rfl
theorem RecordLength.compositeScanline (y : Int) : RecordLength.Statement (.compositeScanline y) := rfl
theorem RecordLength.hostWriteCmd (idx w : Int) : RecordLength.Statement (.hostWriteCmd idx w) := rfl
theorem RecordLength.hostWriteVram (idx b : Int) : RecordLength.Statement (.hostWriteVram idx b) := rfl
theorem RecordLength.hostSetBufsel (v : Int) : RecordLength.Statement (.hostSetBufsel v) := rfl
theorem RecordLength.hostSetAlphamap (v : Int) : RecordLength.Statement (.hostSetAlphamap v) := rfl

end Sys2Proof.Laws
end

