-- ==== Sys2Proof/Laws/Run.lean ====
section
/-! SUPPORT. What a run of host operations keeps, and that each of its operations has been made. -/

namespace Sys2Proof.Machine

/-- A run is its first operation and the run of the others (R257). -/
theorem runOps_cons {op : Instr} {rest : List Instr} {s t : State} (h : runOps (op :: rest) s = .next t) :
    ∃ u, exec op s = .next u ∧ runOps rest u = .next t := by
  unfold runOps at h
  split at h
  · next u hu => exact ⟨u, hu, h⟩
  · cases h
  · cases h

/-- What every operation keeps, a run keeps. -/
theorem runOps_induct {M : State → Prop} {ops : List Instr}
    (hexec : ∀ op s t, op ∈ ops → M s → exec op s = .next t → M t) {s t : State} (hs : M s)
    (h : runOps ops s = .next t) : M t := by
  induction ops generalizing s with
  | nil => cases h; exact hs
  | cons op rest ih =>
    obtain ⟨u, hu, hr⟩ := runOps_cons h
    exact ih (fun o a b ho => hexec o a b (List.mem_cons_of_mem _ ho)) (hexec op s u List.mem_cons_self hs hu) hr

/-- What an operation of a run establishes and every operation keeps, holds after the run. -/
theorem runOps_made {M : State → Prop} {ops : List Instr} {op : Instr} (hop : op ∈ ops)
    (hmade : ∀ s t, exec op s = .next t → M t) (hexec : ∀ o s t, o ∈ ops → M s → exec o s = .next t → M t)
    {s t : State} (h : runOps ops s = .next t) : M t := by
  induction ops generalizing s with
  | nil => cases hop
  | cons o rest ih =>
    obtain ⟨u, hu, hr⟩ := runOps_cons h
    have hrest (o' : Instr) (a b : State) (ho : o' ∈ rest) : M a → exec o' a = .next b → M b :=
      hexec o' a b (List.mem_cons_of_mem _ ho)
    rcases List.mem_cons.1 hop with rfl | hmem
    · exact runOps_induct hrest (hmade s u hu) hr
    · exact ih hmem hrest hr

end Sys2Proof.Machine
end

