-- ==== Sys2Proof/Tests/Slice0.lean ====
section
/-! SUPPORT. Tests. Expected results are taken from the spec: the encodings of 30_encoding.md and the vectors and programs
of 95_test_vectors.md, whose names stand in the comments. The last part shows, for each obligation with hypotheses, a
state and operands that meet them, clause by clause and at the boundaries of their ranges. -/

open Sys2Proof Sys2Proof.Machine Sys2Proof.Claims

namespace Sys2Proof.Tests

/-! ### States -/

/-- Command memory from chunks of words, each at its index. -/
def image (chunks : List (Nat × List Word)) : Store Word :=
  chunks.foldl (fun m c => writeWords c.2 c.1 m) []

/-- The start state of the vectors (95_test_vectors.md, first paragraph). -/
def start (cmd : Store Word) : State :=
  { State.reset with
    cmd := cmd, clip := some ⟨0, 0, 255, 255⟩, bufsel := some 0#1, alphamap := some 0#8,
    buf0 := Canvas.cleared, buf1 := Canvas.cleared }

/-- A pass over a snapshot, drawing into buffer 0, that is to read its next record as the phase says. -/
def passOf (snap : Store Word) (i : Nat) (ph : Phase) : Pass := ⟨snap, 0#1, i, ph⟩

/-- The start state with that pass in progress. -/
def passing (snap : Store Word) (i : Nat) (ph : Phase) : State :=
  { start snap with pass := some (passOf snap i ph) }

/-- A polygon whose edges have pulled a segment each: A ends at row 3, B at row 5; X 10 and 20; colour 7; row y. -/
def polygon (y : Int) : Poly :=
  { color := 7#6, y := y, a := ⟨10, 0x4500#16, some ⟨0x0080#16, 0x4180#16⟩⟩,
    b := ⟨20, 0x4A00#16, some ⟨0x0000#16, 0x4280#16⟩⟩ }

/-- Whether the outcome is a next state of which something holds. -/
def gives (o : Result) (f : State → Bool) : Bool :=
  match o with
  | .next t => f t
  | .fault _ => false
  | .refused _ => false

/-- Whether the outcome is the refusal r. -/
def refuses (o : Result) (r : Refusal) : Bool :=
  match o with
  | .next _ => false
  | .fault _ => false
  | .refused r' => r' == r

/-! ### Well-formedness: an ill-formed term for each check, refused -/

theorem test_wf_objReservedF : (Instr.objReservedF 1 0x7FF).wellFormed = false := by decide
theorem test_wf_ptPair : (Instr.ptPair 0xFFFF 0x4000).wellFormed = false := by decide
theorem test_wf_vecSeg : (Instr.vecSeg 0xFFFF 0x4000 0 0).wellFormed = false := by decide
theorem test_wf_edgeSeg : (Instr.edgeSeg 0xFFFF 0xFFFF).wellFormed = false := by decide
/-- R77: slope −1 with another endY, and endY 0xFFFF with another slope, are ordinary segments. -/
theorem test_wf_neighbours :
    (Instr.edgeSeg 0xFFFF 0xFFFE).wellFormed = true ∧ (Instr.edgeSeg 0xFFFE 0xFFFF).wellFormed = true ∧
      (Instr.objReservedF 0 0x7FF).wellFormed = true ∧ (Instr.ptPair 0xFFFE 0xFFFF).wellFormed = true := by decide

/-! ### Decoding: for each record a word written out from its encoding (R71, R74 to R77) -/

-- ENTRY: type in bits 15:12, bit 11 ignored, address in bits 10:0.
theorem test_dec_objEnd : decodeEntry 0b1111111111111111#16 = .objEnd := by decide
theorem test_dec_objPolygon : decodeEntry 0b0100001000000001#16 = .objPolygon 0 0x201 := by decide
theorem test_dec_objPoint : decodeEntry 0b1000100000000100#16 = .objPoint 1 0x004 := by decide
theorem test_dec_objVector : decodeEntry 0b1100011111111101#16 = .objVector 0 0x7FD := by decide
theorem test_dec_objReserved0 : decodeEntry 0b0000000100100011#16 = .objReserved0 0 0x123 := by decide
theorem test_dec_objReserved1 : decodeEntry 0b0001100000000001#16 = .objReserved1 1 0x001 := by decide
theorem test_dec_objReserved2 : decodeEntry 0b0010010000000000#16 = .objReserved2 0 0x400 := by decide
theorem test_dec_objReserved3 : decodeEntry 0b0011000000000011#16 = .objReserved3 0 0x003 := by decide
theorem test_dec_objReserved5 : decodeEntry 0b0101111111111111#16 = .objReserved5 1 0x7FF := by decide
theorem test_dec_objReserved6 : decodeEntry 0b0110000001000000#16 = .objReserved6 0 0x040 := by decide
theorem test_dec_objReserved7 : decodeEntry 0b0111001000000000#16 = .objReserved7 0 0x200 := by decide
theorem test_dec_objReserved9 : decodeEntry 0b1001000000001001#16 = .objReserved9 0 0x009 := by decide
theorem test_dec_objReservedA : decodeEntry 0b1010100000000000#16 = .objReservedA 1 0x000 := by decide
theorem test_dec_objReservedB : decodeEntry 0b1011000000010000#16 = .objReservedB 0 0x010 := by decide
theorem test_dec_objReservedD : decodeEntry 0b1101010101010101#16 = .objReservedD 0 0x555 := by decide
theorem test_dec_objReservedE : decodeEntry 0b1110000000000001#16 = .objReservedE 0 0x001 := by decide
theorem test_dec_objReservedF : decodeEntry 0b1111111111111110#16 = .objReservedF 1 0x7FE := by decide
-- PT: x, then yColor with the row in bits 15:7 and the colour in bits 5:0; a first word 0xFFFF is the whole terminator.
theorem test_dec_ptEnd : decode .points [0xFFFF, 0x1234] = .ok (.ptEnd, [0x1234]) := rfl
theorem test_dec_ptPair : decode .points [0b0100010100000000, 0b0100000110001001] = .ok (.ptPair 0x4500 0x4189, []) := rfl
-- VEC: endY, startYColor, slope, startX.
theorem test_dec_vecEnd : decode .vectors [0xFFFF] = .ok (.vecEnd, []) := rfl
theorem test_dec_vecSeg : decode .vectors [0x4000, 0x4005, 0xFEC0, 0x4500, 0xFFFF] =
    .ok (.vecSeg 0x4000 0x4005 0xFEC0 0x4500, [0xFFFF]) := rfl
-- PHDR: the secondary pointer in bits 10:0, bits 15:11 ignored; startX1, startX2, startYColor.
theorem test_dec_polyHdr : decode .header [0b1010100000001100, 0x4500, 0x4A00, 0x4007] =
    .ok (.polyHdr 0b10101 0x00C 0x4500 0x4A00 0x4007, []) := rfl
-- EDGE: slope, edgeEndY.
theorem test_dec_edgeEnd : decode .edges [0xFFFF, 0xFFFF, 0x0000] = .ok (.edgeEnd, [0x0000]) := rfl
theorem test_dec_edgeSeg : decode .edges [0xFFFF, 0x4180] = .ok (.edgeSeg 0xFFFF 0x4180, []) := rfl
/-- The statements of R87 that PROG-3 uses, and the words it gives for them. -/
theorem test_enc_prog3 :
    encode (.objPolygon 0 0x10) = [0x4010] ∧ encode (.polyHdr 0 0x1A 0x4500 0x4A00 0x4007) = [0x001A, 0x4500, 0x4A00, 0x4007] ∧
      encode (.edgeSeg 0 0x4180) = [0x0000, 0x4180] ∧ encode .edgeEnd = [0xFFFF, 0xFFFF] ∧
      encode (.ptPair 0x4780 0x4101) = [0x4780, 0x4101] := by decide

/-! ### Operand forms -/

/-- V-T, both columns. -/
theorem test_pixelTransform :
    ([0x0000, 0x3F80, 0x4000, 0x407F, 0x4080, 0x7F80, 0x8000, 0xBF80, 0xC000, 0xFF80, 0xFFFF] : List Word).map
        (fun w => (pixel params w, pixel { params with rawSigned := true } w)) =
      [(-128, -128), (-1, -1), (0, 0), (0, 0), (1, 1), (127, 127), (128, -384), (255, -257), (256, -256), (383, -129),
        (383, -129)] := by decide

/-- The cells of V-LINE-2, V-LINE-4 and the unclipped part of V-LINE-7, in order. -/
theorem test_segmentPixels :
    segmentPixels params 0x4100 0x4002 0x0003 0x4000 = [(0, 0), (1, 0), (2, 1), (3, 1), (4, 2), (5, 2)] ∧
      segmentPixels params 0x4180 0x4380 0xFFFF 0x4000 = [(0, 7), (1, 6), (2, 5), (2, 4), (3, 3)] ∧
      (segmentPixels params 0x4300 0x4000 0xFFFF 0x4100).take 3 = [(2, 0), (1, 1), (0, 2)] ∧
      (segmentPixels params 0x4300 0x4000 0xFFFF 0x4100).length = 8 := by decide +kernel

/-- V-LINE-5: the end X wraps. V-LINE-8: the other mode gives V-LINE-2's words another line. -/
theorem test_lineEndX :
    lineEndX params 0x4000 0x4000 0x0100 0xFF80 = 0x0080#16 ∧ lineEndX params 0x4100 0x4002 0x0003 0x4000 = 0x42FD#16 ∧
      segmentPixels { params with lineDyMode := .pixel } 0x4100 0x4002 0x0003 0x4000 = [(0, 0), (0, 1), (0, 2)] := by
  decide

/-- V-PAL: static colours, static indices and dynamic writes. -/
theorem test_staticColor :
    ([0x00, 0xFF, 0x41, 0x5A, 0xFC, 0x17, 0x83, 0xAA] : List Byte).map staticColor =
      [⟨0, 0, 0⟩, ⟨252, 252, 252⟩, ⟨28, 0, 0⟩, ⟨56, 56, 112⟩, ⟨0, 0, 0⟩, ⟨0, 84, 84⟩, ⟨168, 0, 0⟩, ⟨112, 112, 112⟩] := by
  decide
theorem test_staticIndex : [0, 1, 2, 3, 4, 5, 6, 7, 9, 18, 30, 31].map staticIndex =
    [64, 68, 66, 70, 65, 69, 67, 71, 76, 82, 91, 95] := by decide
theorem test_dynamicColor :
    [(0, 0xFF), (1, 0x00), (2, 0x00), (5, 0xA5), (6, 0x3C), (0x7F, 0x12), (0x80, 0x00)].map
        (fun e => (paletteEntry e.1, dynamicColor e.1 e.2)) =
      [(0, ⟨0, 0, 0⟩), (0, ⟨216, 216, 216⟩), (1, ⟨252, 252, 252⟩), (2, ⟨48, 48, 96⟩), (3, ⟨252, 0, 0⟩),
        (63, ⟨72, 48, 72⟩), (0, ⟨252, 252, 252⟩)] := by decide

/-! ### One step of each instruction -/

/-- V-WALK-1. -/
theorem test_objEnd : gives (exec .objEnd (passing [] 0 .table)) (fun t => t.pass.isNone && t.faults == []) = true := by
  decide
/-- R106: the address is the header's index. -/
theorem test_objPolygon : gives (exec (.objPolygon 1 0x7FD) (passing [] 3 .table))
    (fun t => t.pass == some (passOf [] 3 (.header 2045))) = true := by decide
/-- V-WALK-5: bit 11 changes nothing. -/
theorem test_objPoint : gives (exec (.objPoint 1 4) (passing [] 0 .table))
    (fun t => t.pass == some (passOf [] 0 (.points 4))) = true := by decide
theorem test_objVector : gives (exec (.objVector 0 8) (passing [] 0 .table))
    (fun t => t.pass == some (passOf [] 0 (.vectors 8))) = true := by decide
/-- V-WALK-4: the fault names the entry's index and word. -/
theorem test_objReserved0 : gives (exec (.objReserved0 0 0x123) (passing [] 0 .table))
    (fun t => t.faults == [.reservedObjectType 0 0x0123#16] && t.pass.isNone) = true := by decide
/-- R108: each reserved type, with the word it stands for. -/
theorem test_objReserved_words :
    ([(.objReserved1 0 5, 0x1005), (.objReserved2 0 5, 0x2005), (.objReserved3 0 5, 0x3005), (.objReserved5 0 5, 0x5005),
      (.objReserved6 0 5, 0x6005), (.objReserved7 0 5, 0x7005), (.objReserved9 0 5, 0x9005), (.objReservedA 0 5, 0xA005),
      (.objReservedB 0 5, 0xB005), (.objReservedD 0 5, 0xD005), (.objReservedE 0 5, 0xE005),
      (.objReservedF 1 5, 0xF805)] : List (Instr × Word)).all (fun e =>
        gives (exec e.1 (passing [] 7 .table)) fun t => t.faults == [.reservedObjectType 7 e.2] && t.pass.isNone) = true := by
  decide
theorem test_ptEnd : gives (exec .ptEnd (passing [] 4 (.points 12)))
    (fun t => t.pass == some (passOf [] 5 .table) && t.buf0 == Canvas.cleared) = true := by decide
/-- V-PT-1, first pair: (10, 3) gets 9. -/
theorem test_ptPair : gives (exec (.ptPair 0x4500 0x4189) (passing [] 0 (.points 4)))
    (fun t => t.cell params 0 10 3 == some 9#8 && t.buf0.cells.length == 1
      && t.pass == some (passOf [] 0 (.points 6))) = true := by decide
/-- V-PT-1, third pair: (383, 0) is outside the clip rectangle. -/
theorem test_ptPair_clipped : gives (exec (.ptPair 0xFF80 0x4001) (passing [] 0 (.points 4)))
    (fun t => t.buf0 == Canvas.cleared && t.faults == []) = true := by decide
theorem test_vecEnd : gives (exec .vecEnd (passing [] 2046 (.vectors 12)))
    (fun t => t.pass == some (passOf [] 2047 .table)) = true := by decide
/-- V-LINE-1 (E2): (0..10, 0) get 5. -/
theorem test_vecSeg : gives (exec (.vecSeg 0x4000 0x4005 0xFEC0 0x4000) (passing [] 0 (.vectors 4)))
    (fun t => t.buf0.cells == (List.range 11).map (fun x => (x, 5#8))
      && t.pass == some (passOf [] 0 (.vectors 8))) = true := by decide +kernel
/-- V-LINE-3: (7, 3..7) get 4. -/
theorem test_vecSeg_vertical : gives (exec (.vecSeg 0x4380 0x4184 0x0000 0x4380) (passing [] 0 (.vectors 4)))
    (fun t => t.buf0.cells == (List.range 5).map (fun k => (256 * (k + 3) + 7, 4#8))) = true := by decide +kernel
/-- V-POLY-1, the header. -/
theorem test_polyHdr : gives (exec (.polyHdr 0 0xC 0x4500 0x4A00 0x4007) (passing [] 0 (.header 4)))
    (fun t => t.pass == some (passOf [] 0 (.polygon
      { color := 7, y := 0, a := ⟨8, 0x4500, none⟩, b := ⟨12, 0x4A00, none⟩ } .firstA))) = true := by decide
/-- V-POLY-5: the first pull of A finds the terminator; nothing is drawn. -/
theorem test_edgeEnd : gives (exec .edgeEnd (passing [] 0 (.polygon (polygon 0) .firstA)))
    (fun t => t.pass == some (passOf [] 1 .table) && t.buf0 == Canvas.cleared) = true := by decide
/-- V-POLY-3, row 3: A's pull loads the segment and does not advance A's X; B steps and the row follows. -/
theorem test_edgeSeg : gives (exec (.edgeSeg 0x0100 0x4280) (passing [] 0 (.polygon (polygon 4) .pullA)))
    (fun t => t.pass == some (passOf [] 0 (.polygon
      { polygon 4 with a := ⟨12, 0x4500, some ⟨0x0100, 0x4280⟩⟩ } .row))) = true := by decide
/-- V-POLY-4: one row under the clip rectangle (12, 0, 18, 255), in both clip modes. -/
theorem test_fillRow_clip :
    let s := { passing [] 0 (.polygon (polygon 0) .row) with clip := some ⟨12, 0, 18, 255⟩ }
    let q := passOf [] 0 (.polygon (polygon 0) .row)
    (fillRow params s q (polygon 0)).buf0.cells = [(13, 7), (14, 7), (15, 7), (16, 7), (17, 7), (18, 7)] ∧
      (fillRow { params with polyHClipMode := .perPixel } s q (polygon 0)).buf0.cells =
        [(12, 7), (13, 7), (14, 7), (15, 7), (16, 7), (17, 7), (18, 7)] := by decide +kernel

/-- The command image of PROG-3. -/
def prog3 : State := start (image
  [(0, [0x4010, 0x8030, 0xFFFF]), (0x10, [0x001A, 0x4500, 0x4A00, 0x4007, 0x0000, 0x4180, 0xFFFF, 0xFFFF]),
   (0x1A, [0x0000, 0x4180, 0xFFFF, 0xFFFF]), (0x30, [0x4780, 0x4101, 0x4500, 0x4102, 0xFFFF])])

/-- PROG-3: 41 cells that are not 0; the point over the polygon; column 10 is drawn by the point alone. -/
theorem test_triggerRun : gives (exec .triggerRun prog3) (fun t =>
    t.buf0.cells.length == 41 && t.cell params 0 10 2 == some 2#8 && t.cell params 0 15 2 == some 1#8
      && t.cell params 0 10 3 == some 0#8 && t.cell params 0 20 3 == some 7#8 && t.buf1 == Canvas.cleared
      && t.faults == [] && t.pass.isNone) = true := by decide +kernel
/-- V-POLY-3: a segment change does not advance X on the row of the pull: 114 cells. -/
theorem test_triggerRun_pull : gives (exec .triggerRun (start (image
    [(0, [0x4004, 0xFFFF, 0, 0, 0x000E, 0x4500, 0x4F00, 0x4009, 0x0000, 0x4100, 0x0100, 0x4280, 0xFFFF, 0xFFFF,
      0x0000, 0x4280, 0xFFFF, 0xFFFF])]))) (fun t =>
    t.buf0.cells.length == 114 && t.cell params 0 11 3 == some 9#8 && t.cell params 0 12 4 == some 0#8
      && t.cell params 0 13 4 == some 9#8 && t.faults == []) = true := by decide +kernel
/-- V-CANVAS-1 and V-CANVAS-2. -/
theorem test_clearBuffer : gives (exec (.clearBuffer 0) { State.reset with clip := some ⟨5, 5, 10, 10⟩ })
    (fun t => t.cell params 0 255 255 == some 0#8 && t.cell params 1 0 0 == none) = true := by decide
theorem test_clearBuffer_bad : refuses (exec (.clearBuffer 2) State.reset) .badOperand = true := by decide
/-- V-CANVAS-3. -/
theorem test_setClip : gives (exec (.setClip 10 0 5 255) State.reset) (fun t => t.clip == some ⟨10, 0, 5, 255⟩) = true := by
  decide
theorem test_setClip_bad : refuses (exec (.setClip 0 0 256 255) State.reset) .badClip = true := by decide
/-- V-CANVAS-4 and V-CANVAS-5. -/
theorem test_renderedScanline : gives (exec (.renderedScanline 0) { State.reset with bufsel := some 0#1 })
    (fun t => t.faults == [.unwrittenPixel 1 0 0] && t.observed == []) = true := by decide
theorem test_renderedScanline_row : refuses (exec (.renderedScanline 256) (start [])) .badRow = true ∧
    gives (exec (.renderedScanline 255) (start [])) (fun t => t.observed == [.scanline (List.replicate 256 0)]) = true := by
  decide +kernel
/-- PROG-4, steps 1 and 6: PROM[5] = 0x5A gives entry 69. -/
theorem test_buildStaticPalette : gives (exec .buildStaticPalette { State.reset with colorProm := [(5, 0x5A#8)] })
    (fun t => t.palette 69 == some ⟨56, 56, 112⟩ && t.palette 95 == some ⟨0, 0, 0⟩ && t.palette 63 == none) = true := by
  decide +kernel
/-- V-PAL-1's second write, and V-PAL-2. -/
theorem test_paletteWrite : gives (exec (.paletteWrite 1 0) { State.reset with pal := [(0, ⟨0, 0, 0⟩)] })
    (fun t => t.pal == [(0, ⟨216, 216, 216⟩)]) = true := by decide
theorem test_paletteWrite_bad : refuses (exec (.paletteWrite 0 0x100) State.reset) .badOperand = true := by decide
theorem test_paletteColor : gives (exec (.paletteColor 5) State.reset) (fun t => t.faults == [.unwrittenPalette 5]) = true := by
  decide
theorem test_paletteColor_bad : refuses (exec (.paletteColor 96) State.reset) .badIndex = true := by decide

/-- The test tile source of V-COMP: an assumption of the vector, not of the hardware. -/
def vectorTile (code : BitVec 6) (_row col : BitVec 3) : BitVec 2 := if code = 1#6 ∧ col.toNat < 4 then 1#2 else 0#2

/-- V-COMP-2: columns 8..11 show the tile, every other column the canvas byte. -/
theorem test_compositeScanline : gives (compositeScanline { params with tilePen := vectorTile } 0
      { start [] with videoram := [(1, 0x41#8)] })
    (fun t => t.observed == [.composite (List.replicate 8 0 ++ List.replicate 4 69 ++ List.replicate 244 0)]) = true := by
  decide +kernel
/-- V-COMP-3: alphamap 1 selects the other bank, 0xFE does not. -/
theorem test_overlayPixel_bank :
    [1#8, 0xFE#8].map (fun a => overlayPixel { params with tilePen := vectorTile } a 0x41#8 0#8 0 8) = [85#8, 69#8] := by
  decide
theorem test_hostWriteCmd : gives (exec (.hostWriteCmd 2047 0xFFFF) State.reset) (fun t => t.cmd == [(2047, 0xFFFF#16)]) = true := by
  decide
theorem test_hostWriteCmd_bad : refuses (exec (.hostWriteCmd 2048 0) State.reset) .badOperand = true := by decide
theorem test_hostWriteVram : gives (exec (.hostWriteVram 1 0x41) State.reset) (fun t => t.videoram == [(1, 0x41#8)]) = true := by
  decide
theorem test_hostWriteVram_bad : refuses (exec (.hostWriteVram 1023 0x100) State.reset) .badOperand = true := by decide
theorem test_hostSetBufsel : gives (exec (.hostSetBufsel 1) State.reset) (fun t => t.bufsel == some 1#1) = true := by decide
theorem test_hostSetBufsel_bad : refuses (exec (.hostSetBufsel 2) State.reset) .badOperand = true := by decide
theorem test_hostSetAlphamap : gives (exec (.hostSetAlphamap 255) State.reset) (fun t => t.alphamap == some 0xFF#8) = true := by
  decide
theorem test_hostSetAlphamap_bad : refuses (exec (.hostSetAlphamap (-1)) State.reset) .badOperand = true := by decide

/-- A record placed by withFetchWord is the first one that step runs (log entry 16). -/
theorem test_withFetchWord :
    step (State.reset.withFetchWord 16 0x8123) = exec (.objPoint 0 0x123) (State.reset.withFetchWord 16 0x8123) ∧
      gives (step (State.reset.withFetchWord 32 0x44800080)) (fun t => t.pass.isSome && t.faults == []) = true ∧
      gives (step (State.reset.withFetchWord 64 0x4000FEC040054000)) (fun t => t.faults == [.clipUnset]) = true := by
  refine ⟨rfl, ?_, ?_⟩ <;> decide

/-! ### Witnesses of the obligations' hypotheses -/

theorem test_hyps_DecodeEncodeRoundTrip :
    (Instr.objReservedF 1 0x7FE).wellFormed = true ∧ (Instr.objReservedF 1 0x7FE).context = some .table ∧
      (Instr.vecSeg 0xFFFE 0xFFFF 0xFFFF 0xFFFF).wellFormed = true ∧
      (Instr.vecSeg 0xFFFE 0xFFFF 0xFFFF 0xFFFF).context = some .vectors := by decide

theorem test_hyps_EncodeDecodeRoundTrip :
    decode .points [0xFFFF, 0x4000] = .ok (.ptEnd, [0x4000]) ∧
      decode .edges [0xFFFF, 0xFFFE] = .ok (.edgeSeg 0xFFFF 0xFFFE, []) := ⟨rfl, rfl⟩

/-- One word for each clause, the last of the reserved words among them. -/
theorem test_hyps_ObjectTypeMap :
    0x4FFF#16 &&& 0xF000#16 = 0x4000#16 ∧ 0x8000#16 &&& 0xF000#16 = 0x8000#16 ∧ 0xC7FF#16 &&& 0xF000#16 = 0xC000#16 ∧
      (.objReservedF 1 0x7FE, 0xF#4) ∈ reservedEntries 1 0x7FE ∧ 0xFFFE#16 ≠ 0xFFFF#16 ∧
      0xFFFE#16 &&& 0xF000#16 = (0xF#4).setWidth 16 <<< 12 := by decide

theorem test_hyps_PixelTransform :
    params.rawSigned = false ∧ ({ params with rawSigned := true } : Params).rawSigned = true := ⟨rfl, rfl⟩

theorem test_hyps_RawEncodesPixel : (-128 : Int) ≤ -128 ∧ (383 : Int) ≤ 383 ∧
    pixel params (rawOfPixel (-128)) = -128 ∧ pixel params (rawOfPixel 383) = 383 := by decide

theorem test_hyps_LineCountModes :
    params.lineDyMode = .raw ∧ ({ params with lineDyMode := .pixel } : Params).lineDyMode = .pixel := ⟨rfl, rfl⟩

/-- A segment of each kind: flat, steep and diagonal, with its last index. -/
theorem test_hyps_StepperPlotsSegment :
    (10 < (bresenham 0 0 10 0).length ∧ (0 - 0 : Int).natAbs ≤ (10 - 0 : Int).natAbs) ∧
      (4 < (bresenham 0 7 3 3).length ∧ (3 - 0 : Int).natAbs ≤ (3 - 7 : Int).natAbs) ∧
      (2 < (bresenham 2 2 0 0).length ∧ (0 - 2 : Int).natAbs ≤ (0 - 2 : Int).natAbs) := by decide

/-- Rows at both ends of the vertical clip range; spans clamped away on the left and on the right. -/
theorem test_hyps_SpanExcludesLeftEnd :
    let c : Clip := ⟨12, 3, 18, 9⟩
    params.polyHClipMode = .clamp ∧ ({ params with polyHClipMode := .perPixel } : Params).polyHClipMode = .perPixel ∧
      (c.ymin ≤ 3 ∧ (3 : Int) ≤ c.ymax) ∧ (c.ymin ≤ 9 ∧ (9 : Int) ≤ c.ymax) ∧
      min (max (pixel params 0x4500#16) (pixel params 0x4600#16)) c.xmax ≤ c.xmin ∧
      c.xmax ≤ max (min (pixel params 0x4900#16) (pixel params 0x4A00#16)) c.xmin := by decide

theorem test_hyps_ObjEndEndsPass :
    ∃ q, (passing [] 0 .table).pass = some q ∧ q.phase = .table := ⟨_, rfl, rfl⟩

theorem test_hyps_EntriesStartRenderers :
    ∃ q, (passing [] 2046 .table).pass = some q ∧ q.phase = .table := ⟨_, rfl, rfl⟩

theorem test_hyps_ReservedTypesFault :
    ∃ q, (passing [] 5 .table).pass = some q ∧ q.phase = .table ∧ (.objReserved0 0 0x123, 0x0#4) ∈ reservedEntries 0 0x123 ∧
      (.objReservedF 1 0x7FE, 0xF#4) ∈ reservedEntries 1 0x7FE := ⟨_, rfl, rfl, by decide, by decide⟩

theorem test_hyps_TerminatorsEndObject :
    (∃ q, (passing [] 0 (.points 4)).pass = some q ∧ q.phase = .points 4) ∧
      (∃ q, (passing [] 0 (.vectors 4)).pass = some q ∧ q.phase = .vectors 4) ∧
      ∀ stage, stage ≠ .row →
        ∃ q, (passing [] 0 (.polygon (polygon 0) stage)).pass = some q ∧ q.phase = .polygon (polygon 0) stage :=
  ⟨⟨_, rfl, rfl⟩, ⟨_, rfl, rfl⟩, fun _ _ => ⟨_, rfl, rfl⟩⟩

theorem start_clipLegal (snap : Store Word) (i : Nat) (ph : Phase) : (passing snap i ph).clipLegal := by
  rintro c ⟨⟩
  rfl

/-- A pair inside the clip rectangle, at its corner (255, 255). -/
theorem test_hyps_PointPairWritesCell :
    let s := passing [] 0 (.points 4)
    (∃ q, s.pass = some q ∧ q.phase = .points 4) ∧ s.clip = some ⟨0, 0, 255, 255⟩ ∧ s.clipLegal ∧
      inside ⟨0, 0, 255, 255⟩ (pixel params 0xBF80#16) (pixel params 0xBFBF#16) :=
  ⟨⟨_, rfl, rfl⟩, rfl, start_clipLegal _ _ _, by decide⟩

theorem test_hyps_VectorSegmentDrawsLine :
    let s := passing [] 0 (.vectors 4)
    (∃ q, s.pass = some q ∧ q.phase = .vectors 4) ∧ s.clip = some ⟨0, 0, 255, 255⟩ ∧ s.clipLegal :=
  ⟨⟨_, rfl, rfl⟩, rfl, start_clipLegal _ _ _⟩

theorem test_hyps_PolygonHeaderStartsEdges :
    ∃ q, (passing [] 0 (.header 2044)).pass = some q ∧ q.phase = .header 2044 := ⟨_, rfl, rfl⟩

theorem test_hyps_EdgeSegmentLoads :
    ∀ stage ∈ [PolyPhase.firstA, .firstB, .pullA, .pullB],
      ∃ q, (passing [] 0 (.polygon (polygon 4) stage)).pass = some q ∧ q.phase = .polygon (polygon 4) stage :=
  fun _ _ => ⟨_, rfl, rfl⟩

/-- Edge A ends at row 3 and edge B at row 5, or the other way round: each clause at the rows where it begins or ends. -/
theorem test_hyps_EdgeStepRule :
    let first : Segment := ⟨0x0080, 0x4180⟩
    let second : Segment := ⟨0x0000, 0x4280⟩
    let swapped : Poly := { polygon 4 with a := (polygon 4).b, b := (polygon 4).a }
    ((polygon 4).a.seg = some first ∧ (polygon 4).b.seg = some second ∧ (polygon 4).y > pixel params first.endY) ∧
      (swapped.a.seg = some second ∧ swapped.b.seg = some first ∧ swapped.y ≤ pixel params second.endY ∧
        swapped.y > pixel params first.endY) ∧
      ((polygon 3).a.seg = some first ∧ (polygon 3).b.seg = some second ∧ (polygon 3).y ≤ pixel params first.endY ∧
        (polygon 3).y ≤ pixel params second.endY) ∧
      ((polygon 5).b.seg = some second ∧ (polygon 5).y ≤ pixel params second.endY) ∧
      (polygon 6).b.seg = some second ∧ (polygon 6).y > pixel params second.endY := by decide

theorem test_hyps_RowFillBothModes :
    State.reset.clip = none ∧ (start []).clip = some ⟨0, 0, 255, 255⟩ ∧
      (⟨0, 0, 255, 255⟩ : Clip).legal params = true ∧ params.polyHClipMode = .clamp ∧
      (⟨0, 0, 255, 255⟩ : Clip).legal { params with polyHClipMode := .perPixel } = true := by decide

theorem test_hyps_DrawingNeedsClip :
    let s (ph : Phase) : State := { passing [] 0 ph with clip := none }
    (∃ q, (s (.points 4)).pass = some q ∧ q.phase = .points 4 ∧ (s (.points 4)).clip = none) ∧
      ∃ q, (s (.vectors 4)).pass = some q ∧ q.phase = .vectors 4 ∧ (s (.vectors 4)).clip = none :=
  ⟨⟨_, rfl, rfl, rfl⟩, ⟨_, rfl, rfl, rfl⟩⟩

/-- For each list the record that ends at the last word of command memory, index 2047. -/
theorem test_hyps_StepRunsDecodedRecord :
    let snap := image [(2044, [0x8004, 0x4500, 0x4189, 0x4000])]
    let q (ph : Phase) := passOf snap 2046 ph
    (2046 < 2047 ∧ decode .table (snapWords params (q .table) 1 2046) = .ok (.objPolygon 0 0x189, [])) ∧
      decode .points (snapWords params (q (.points 2046)) 2 2046) = .ok (.ptPair 0x4189 0x4000, []) ∧
      decode .vectors (snapWords params (q (.vectors 2044)) 4 2044) = .ok (.vecSeg 0x8004 0x4500 0x4189 0x4000, []) ∧
      decode .header (snapWords params (q (.header 2044)) 4 2044) = .ok (.polyHdr 0x10 4 0x4500 0x4189 0x4000, []) ∧
      decode .edges (snapWords params (q .table) 2 2046) = .ok (.edgeSeg 0x4189 0x4000, []) := by decide

theorem test_hyps_StepTakesHostOperation :
    State.reset.pass = none ∧ State.reset.pending = [] ∧
      (State.reset.setPending [.hostSetBufsel 1, .triggerRun]).pass = none ∧
      (State.reset.setPending [.hostSetBufsel 1, .triggerRun]).pending = .hostSetBufsel 1 :: [.triggerRun] := by decide

/-- Each record at the first index where it does not fit, and a terminator at the last word. -/
theorem test_hyps_RecordsEndAtBound :
    2048 ≤ 2047 + 1 ∧ 2048 ≤ 2045 + 3 ∧ Store.read 0#16 (image [(2047, [0xFFFF])]) 2047 = 0xFFFF#16 ∧
      (∀ ph ∈ [Phase.points 2047, .vectors 2045, .vectors 2047, .header 2045],
        ∃ q, (passing (image [(2047, [0xFFFF])]) 0 ph).pass = some q ∧ q.phase = ph) ∧
      (∀ stage ∈ [PolyPhase.firstA, .pullA, .firstB, .pullB],
        let g : Poly := { polygon 4 with a := ⟨2047, 0, none⟩, b := ⟨2047, 0, none⟩ }
        ∃ q, (passing [] 0 (.polygon g stage)).pass = some q ∧ q.phase = .polygon g stage ∧
          2048 ≤ g.a.ptr + 1 ∧ 2048 ≤ g.b.ptr + 1) :=
  ⟨by decide, by decide, by decide, fun _ _ => ⟨_, rfl, rfl⟩, fun _ _ => ⟨_, rfl, rfl, by decide, by decide⟩⟩

/-- Two snapshots that differ at index 2048 only. -/
theorem test_hyps_NoWordAboveBoundIsRead :
    (∀ k, k < 2048 → Store.read 0#16 (passOf [(2048, 7#16)] 0 .table).snap k = Store.read 0#16 ([] : Store Word) k) ∧
      Store.read 0#16 [(2048, 7#16)] 2048 ≠ Store.read 0#16 ([] : Store Word) 2048 := by
  refine ⟨fun k hk => ?_, by decide⟩
  simp only [passOf, Store.read, Store.get]
  rw [if_neg (by omega)]

theorem test_hyps_WalkerStopsAtCap :
    ∃ q, (passing [] 2047 .table).pass = some q ∧ q.phase = .table ∧ 2047 ≤ q.i := ⟨_, rfl, rfl, le_refl _⟩

/-- What `gives` says. -/
theorem exists_of_gives {o : Result} {f : State → Bool} (h : gives o f = true) : ∃ t, o = .next t ∧ f t = true := by
  unfold gives at h
  split at h
  · exact ⟨_, rfl, h⟩
  · cases h
  · cases h

theorem test_hyps_TriggerNeedsBufsel : State.reset.pass = none ∧ State.reset.bufsel = none := ⟨rfl, rfl⟩

theorem test_hyps_EmptyTableDrawsNothing :
    let s := start (image [(0, [0xFFFF])])
    s.pass = none ∧ s.bufsel = some 0#1 ∧ s.cmdWord 0 = 0xFFFF#16 := by decide

theorem test_hyps_TriggerRunCompletes : prog3.pass = none ∧ prog3.bufsel = some 0#1 := ⟨rfl, rfl⟩

theorem test_hyps_TriggerRunIsWalk :
    prog3.pass = none ∧ prog3.bufsel = some 0#1 ∧ prog3.clip = some ⟨0, 0, 255, 255⟩ := ⟨rfl, rfl, rfl⟩

/-- V-PT-6: a point drawn before any SET_CLIP. -/
theorem test_hyps_UnclippedPassWritesNothing :
    let s := { start (image [(0, [0x8004, 0xFFFF, 0, 0, 0x4500, 0x4189, 0xFFFF])]) with clip := none }
    s.clip = none ∧ ∃ t, exec .triggerRun s = .next t ∧
      (t.faults == [.clipUnset] && t.buf0 == Canvas.cleared) = true :=
  ⟨rfl, exists_of_gives (by decide +kernel)⟩

/-- V-WALK-4. -/
theorem test_hyps_PassRecordsOneFault :
    ∃ t, exec .triggerRun (start (image [(0, [0x0123, 0xFFFF])])) = .next t ∧
      (t.faults == [.reservedObjectType 0 0x0123]) = true :=
  exists_of_gives (by decide +kernel)

theorem test_hyps_PassStepKeepsDisplayTarget :
    let s := passing (image [(4, [0x4500, 0x4189])]) 0 (.points 4)
    (∃ q, s.pass = some q) ∧ ∃ t, step s = .next t ∧ (t.cell params 0 10 3 == some 9#8) = true :=
  ⟨⟨_, rfl⟩, exists_of_gives (by decide)⟩

/-- Both buffers, and the operands next to them. -/
theorem test_hyps_ClearBufferZeroFills :
    State.reset.pass = none ∧ ((0 : Int) = 0 ∨ (0 : Int) = 1) ∧ ((1 : Int) = 0 ∨ (1 : Int) = 1) ∧
      ((2 : Int) ≠ 0 ∧ (2 : Int) ≠ 1) ∧ ((-1 : Int) ≠ 0 ∧ (-1 : Int) ≠ 1) := by decide

/-- The largest rectangle, and one that leaves the canvas by one pixel. -/
theorem test_hyps_SetClipStoresRectangle :
    State.reset.pass = none ∧ ((0 : Int) ≤ 0 ∧ (255 : Int) ≤ 255) ∧ ((-1 : Int) < 0 ∨ (255 : Int) > 255) ∧
      ((0 : Int) < 0 ∨ (256 : Int) > 255) := by decide

/-- A state whose buffer 1 holds values 1 in row 255 up to column 254. -/
def partRow : State :=
  { start [] with buf1 := ⟨false, (List.range 255).map fun x => (256 * 255 + x, 1#8)⟩ }

theorem partRow_firstUnwritten : firstUnwritten partRow (~~~0#1) 255 255 := by
  unfold firstUnwritten
  decide +kernel

/-- A row of a cleared buffer 1. -/
theorem cleared_row {s : State} (h1 : s.buf1 = Canvas.cleared) {y : Nat} (h : y < 256) :
    rowIs s 1#1 y (List.replicate 256 0#8) := by
  refine ⟨List.length_replicate .., fun x hx => ?_⟩
  rw [List.length_replicate] at hx
  have ha : cellAddr params x y = some (256 * y + x) :=
    if_pos ⟨by omega, by show (x : Int) < 256; omega, by omega, by show (y : Int) < 256; omega⟩
  have hb : s.buf 1#1 = Canvas.cleared := h1
  simp only [State.cell, ha, hb, List.getElem_replicate]
  exact (Canvas.get_cleared _ _).trans (if_pos (by show 256 * y + x < 256 * 256; omega))

/-- Rows 0 and 255, the rows next to them, and a row whose last cell is its first without a value. -/
theorem test_hyps_RenderedScanlineReturnsRow :
    ((-1 : Int) < 0 ∧ (256 : Int) > 255) ∧ (State.reset.pass = none ∧ State.reset.bufsel = none) ∧
      ((start []).pass = none ∧ (start []).bufsel = some 0#1 ∧ rowIs (start []) (~~~0#1) (0 : Nat) (List.replicate 256 0#8) ∧
        rowIs (start []) (~~~0#1) (255 : Nat) (List.replicate 256 0#8)) ∧
      partRow.pass = none ∧ partRow.bufsel = some 0#1 ∧ firstUnwritten partRow (~~~0#1) 255 255 :=
  ⟨by decide, ⟨rfl, rfl⟩, ⟨rfl, rfl, cleared_row rfl (by decide), cleared_row rfl (by decide)⟩, rfl, rfl,
    partRow_firstUnwritten⟩

theorem test_hyps_StaticColorFormula : (0xFC#8).toNat &&& 3 = 0 ∧ (0xFF#8).toNat &&& 3 ≠ 0 := by decide

theorem test_hyps_BuildStaticPaletteFills :
    State.reset.pass = none ∧ 31 < 32 ∧ (63 < 64 ∨ 96 ≤ 63) ∧ (96 < 64 ∨ 96 ≤ 96) ∧ (64 ≤ 64 ∧ 64 < 96) ∧
      64 ≤ 95 ∧ 95 < 96 := by decide

theorem test_hyps_StaticIndexIsBijection :
    0 < 32 ∧ 31 < 32 ∧ staticIndex 31 = staticIndex 31 ∧ 64 ≤ 64 ∧ 95 < 96 := by decide

theorem test_hyps_PaletteWriteStoresColor :
    State.reset.pass = none ∧ ((0 : Int) ≤ 0 ∧ (0 : Int) ≤ 255 ∧ (255 : Int) ≤ 255) ∧ (-1 : Int) < 0 ∧ (256 : Int) > 255 := by
  decide

/-- Two states that differ in the entry to be written. -/
theorem test_hyps_PaletteHasNoHiddenState :
    (∃ t, exec (.paletteWrite 5 0xA5) State.reset = .next t ∧ (t.palette 2 == some ⟨48, 48, 96⟩) = true) ∧
      ∃ t, exec (.paletteWrite 5 0xA5) { start [] with pal := [(2, ⟨1, 2, 3⟩)] } = .next t ∧
        (t.palette 2 == some ⟨48, 48, 96⟩) = true :=
  ⟨exists_of_gives (by decide), exists_of_gives (by decide)⟩

theorem test_hyps_PaletteColorReturnsEntry :
    let s : State := { State.reset with pal := [(95, ⟨1, 2, 3⟩)] }
    s.pass = none ∧ ((-1 : Int) < 0 ∧ (96 : Int) > 95) ∧
      ((95 : Int) ≤ 95 ∧ s.palette (95 : Int).toNat = some ⟨1, 2, 3⟩) ∧ (0 : Int) ≤ 0 ∧ s.palette (0 : Int).toNat = none := by
  decide

theorem test_hyps_CompositeScanlineOverlays :
    let s := start []
    s.pass = none ∧ 255 ≤ 255 ∧ s.bufsel = some 0#1 ∧ s.alphamap = some 0#8 ∧
      rowIs s (~~~0#1) (255 : Nat) (List.replicate 256 0#8) ∧ rowIs s (~~~0#1) (0 : Nat) (List.replicate 256 0#8) :=
  ⟨rfl, by decide, rfl, rfl, cleared_row rfl (by decide), cleared_row rfl (by decide)⟩

theorem test_hyps_CompositeScanlineStops :
    (State.reset.pass = none ∧ State.reset.bufsel = none) ∧
      (partRow.bufsel = some 0#1 ∧ firstUnwritten partRow (~~~0#1) 255 255) ∧
      ({ start [] with alphamap := none } : State).alphamap = none ∧
      rowIs { start [] with alphamap := none } (~~~0#1) (255 : Nat) (List.replicate 256 0#8) :=
  ⟨⟨rfl, rfl⟩, ⟨rfl, partRow_firstUnwritten⟩, rfl, cleared_row rfl (by decide)⟩

theorem test_hyps_HostWriteCmdStoresWord :
    State.reset.pass = none ∧ ((0 : Int) ≤ 2047 ∧ (2047 : Int) ≤ 2047 ∧ (0xFFFF : Int) ≤ 0xFFFF) ∧ (2048 : Int) > 2047 ∧
      (0x10000 : Int) > 0xFFFF ∧ (-1 : Int) < 0 := ⟨rfl, by omega, by omega, by omega, by omega⟩

theorem test_hyps_HostWriteVramStoresByte :
    State.reset.pass = none ∧ ((0 : Int) ≤ 1023 ∧ (1023 : Int) ≤ 1023 ∧ (0xFF : Int) ≤ 0xFF) ∧ (1024 : Int) > 1023 ∧
      (0x100 : Int) > 0xFF ∧ (-1 : Int) < 0 := by decide

theorem test_hyps_HostSetBufselStoresBit :
    State.reset.pass = none ∧ ((2 : Int) ≠ 0 ∧ (2 : Int) ≠ 1) ∧ (-1 : Int) ≠ 0 ∧ (-1 : Int) ≠ 1 := by decide

theorem test_hyps_HostSetAlphamapStoresByte :
    State.reset.pass = none ∧ ((0 : Int) ≤ 0 ∧ (255 : Int) ≤ 255) ∧ (-1 : Int) < 0 ∧ (256 : Int) > 255 := by decide

/-- A writer of each register answers a next state. -/
theorem test_hyps_OneWriterPerRegister :
    ∀ i ∈ [Instr.hostWriteCmd 5 7, .hostWriteVram 5 7, .setClip 0 0 5 5, .hostSetBufsel 1, .hostSetAlphamap 3],
      ∃ t, exec i State.reset = .next t ∧ (t != State.reset) = true := fun i hi => by
  have h : ([Instr.hostWriteCmd 5 7, .hostWriteVram 5 7, .setClip 0 0 5 5, .hostSetBufsel 1, .hostSetAlphamap 3].all
    fun i => gives (exec i State.reset) fun t => t != State.reset) = true := by decide
  exact exists_of_gives (List.all_eq_true.1 h i hi)

/-- Entries 63 and 64, each changed by its writer. -/
theorem test_hyps_PaletteWritersAreSeparate :
    (∃ t, exec (.paletteWrite 0x7F 0x12) State.reset = .next t ∧ (t.palette 63 != State.reset.palette 63) = true) ∧
      ∃ t, exec .buildStaticPalette State.reset = .next t ∧ (t.palette 64 != State.reset.palette 64) = true :=
  ⟨exists_of_gives (by decide), exists_of_gives (by decide +kernel)⟩

/-- A buffer changed by each of the three. -/
theorem test_hyps_OnlyClearAndPassesDraw :
    (∃ t, exec (.clearBuffer 1) State.reset = .next t ∧ (t.buf 1 != State.reset.buf 1) = true) ∧
      (∃ t, exec .triggerRun prog3 = .next t ∧ (t.buf 0 != prog3.buf 0) = true) ∧
      ∃ t, exec (.ptPair 0x4500 0x4189) (passing [] 0 (.points 4)) = .next t ∧
        (t.buf 0 != (passing [] 0 (.points 4)).buf 0) = true :=
  ⟨exists_of_gives (by decide), exists_of_gives (by decide +kernel), exists_of_gives (by decide)⟩

theorem test_hyps_FaultsAreNeverRemoved :
    let s : State := { (start []).setPending [.paletteColor 5] with faults := [.clipUnset] }
    Fault.clipUnset ∈ s.faults ∧ (∃ t, exec (.paletteColor 5) s = .next t ∧ (t.faults.length == 2) = true) ∧ ∃ t, step s = .next t ∧ (t.faults == [.clipUnset, .unwrittenPalette 5]) = true :=
  ⟨by decide, exists_of_gives (by decide), exists_of_gives (by decide)⟩

theorem test_hyps_NoHostMoveInsidePass :
    Instr.triggerRun.context = none ∧ (Instr.hostWriteCmd 0 0).context = none ∧ ∃ q, (passing [] 0 .table).pass = some q :=
  ⟨rfl, rfl, _, rfl⟩

/-- A state inside a pass that meets the invariant, and takes a step that writes a cell. -/
theorem test_hyps_StepKeepsInvariant :
    let s := passing (image [(4, [0x4500, 0x4189])]) 0 (.points 4)
    s.inv ∧ ∃ t, step s = .next t ∧ (t.cell params 0 10 3 == some 9#8) = true := by
  refine ⟨⟨by decide, start_clipLegal _ _ _, fun b x y v hv => ?_, by decide, ?_⟩, exists_of_gives (by decide)⟩
  · have hb : (passing (image [(4, [0x4500, 0x4189])]) 0 (.points 4)).buf b = Canvas.cleared := by
      rcases index_cases b with rfl | rfl <;> rfl
    unfold State.cell at hv
    rw [hb] at hv
    split at hv
    · rw [Canvas.get_cleared] at hv
      split at hv
      · cases hv; decide
      · cases hv
    · cases hv
  · rintro q ⟨⟩
    exact ⟨rfl, by decide, fun _ => by decide, show 4 ≤ 2048 by decide⟩

/-- The host's launch of R292, steps 1 to 4. -/
def launch : List Instr :=
  [.setClip 0 0 255 255, .buildStaticPalette, .clearBuffer 0, .clearBuffer 1, .hostSetBufsel 0, .hostSetAlphamap 0]

/-- The launch is a clean start for a claim that reads both; without the build and the clears it is one for a claim that
reads neither. -/
theorem test_hyps_CleanStartGivesReads :
    (∃ t, cleanStart ⟨true, true⟩ launch t) ∧
      ∃ t, cleanStart ⟨false, false⟩ [.setClip 0 0 255 255, .hostSetBufsel 0, .hostSetAlphamap 0] t := by
  have reset_start : State.reset.isStart := ⟨Memory.wf_reset, rfl⟩
  constructor
  · obtain ⟨t, ht, h⟩ := exists_of_gives (o := runOps launch State.reset)
      (f := fun t => t.bufsel.isSome && t.alphamap.isSome && t.faults == []) (by decide +kernel)
    simp only [Bool.and_eq_true, beq_iff_eq] at h
    exact ⟨t, ⟨_, reset_start, ht⟩, by decide, ⟨0, 0, 255, 255, by decide⟩, fun _ => by decide,
      fun _ => ⟨by decide, by decide⟩, h.1.1, h.1.2, h.2⟩
  · exact ⟨_, ⟨_, reset_start, rfl⟩, by decide, ⟨0, 0, 255, 255, by decide⟩, fun h => Bool.noConfusion h,
      fun h => Bool.noConfusion h, rfl, rfl, rfl⟩

/-- V-PAL-2: a run that reads an entry never written has no observation (R257); PROG-4, step 6, has one. -/
theorem test_observation :
    observation [.paletteColor 5] State.reset = none ∧ observation [.clearBuffer 2] State.reset = none ∧
      observation [.paletteWrite 14 0, .paletteColor 7] State.reset = some ([.color ⟨252, 252, 252⟩], []) := by
  decide

end Sys2Proof.Tests
end

section
/-! SUPPORT. What the pixel transform answers in numbers under each reading of a raw word. -/

namespace Sys2Proof.Machine

/-- A raw word read unsigned is its number (R142). -/
theorem rawValue_of_unsigned {P : Params} (h : P.rawSigned = false) {n : Nat} (w : BitVec n) :
    rawValue P w = w.toNat := by
  simp [rawValue, h]

/-- A raw word read signed is its two's complement (R142). -/
theorem rawValue_of_signed {P : Params} (h : P.rawSigned = true) {n : Nat} (w : BitVec n) :
    rawValue P w = w.toInt := by
  simp [rawValue, h]

/-- The pixel of a word read unsigned is a logical shift and an offset (R14). -/
theorem pixel_of_unsigned {P : Params} (h : P.rawSigned = false) {n : Nat} (w : BitVec n) :
    pixel P w = ((w.toNat >>> 7 : Nat) : Int) - 128 := by
  rw [pixel, rawValue_of_unsigned h, Nat.shiftRight_eq_div_pow]
  rfl

/-- The pixel of a word read signed is an arithmetic shift and an offset (R14). -/
theorem pixel_of_signed {P : Params} (h : P.rawSigned = true) {n : Nat} (w : BitVec n) :
    pixel P w = w.toInt >>> (7 : Nat) - 128 := by
  rw [pixel, rawValue_of_signed h, Int.shiftRight_eq_div_pow]
  rfl

/-- A 16-bit word read unsigned gives a pixel in -128..383 (R14). -/
theorem pixel_range_of_unsigned {P : Params} (h : P.rawSigned = false) (w : Word) :
    -128 ≤ pixel P w ∧ pixel P w ≤ 383 := by
  have hlt : w.toNat < 65536 := w.isLt
  rw [pixel, rawValue_of_unsigned h]
  omega

/-- A 16-bit word read signed gives a pixel in -384..127 (R14). -/
theorem pixel_range_of_signed {P : Params} (h : P.rawSigned = true) (w : Word) :
    -384 ≤ pixel P w ∧ pixel P w ≤ 127 := by
  have hge : -32768 ≤ w.toInt := BitVec.le_toInt w
  have hlt : w.toInt < 32768 := BitVec.toInt_lt
  rw [pixel, rawValue_of_signed h]
  omega

/-- `(p + 128) << 7` fits 16 bits for a pixel p of the range, so the raw word's number is not reduced (R15). -/
theorem toNat_rawOfPixel {p : Int} (hlo : -128 ≤ p) (hhi : p ≤ 383) :
    ((rawOfPixel p).toNat : Int) = (p + 128) * 128 := by
  rw [rawOfPixel, BitVec.toNat_ofInt, Int.toNat_of_nonneg (by omega)]
  omega

/-- With no pass in progress and no operation pending a step keeps the whole state (R12). -/
theorem step_of_idle {s : State} (hpass : s.pass = none) (hpend : s.pending = []) : step s = .next s := by
  rw [step, hpass]
  simp [hpend]

/-- With no pass in progress a step runs the first pending operation (R257, R284). -/
theorem step_of_pending {s : State} {op : Instr} {rest : List Instr} (hpass : s.pass = none)
    (hpend : s.pending = op :: rest) : step s = exec op (s.setPending rest) := by
  rw [step, hpass]
  simp [hpend]

/-- Settles O6: both readings are the division of the model written as a shift, and the word's own bounds give the range. -/
theorem pixelTransform : Obligations.PixelTransform := by
  intro P w
  refine ⟨fun h => ?_, fun h => ?_, rfl⟩
  · exact ⟨pixel_of_unsigned h w, pixel_range_of_unsigned h w⟩
  · exact ⟨pixel_of_signed h w, pixel_range_of_signed h w⟩

/-- Settles O7: the raw word's number is `(p + 128) * 128` without a reduction, which the transform divides back. -/
theorem rawEncodesPixel : Obligations.RawEncodesPixel := by
  intro p hlo hhi
  rw [pixel, rawValue_of_unsigned rfl, toNat_rawOfPixel hlo hhi]
  omega

/-- Settles O26, by whether an operation is pending. -/
theorem stepTakesHostOperation : Obligations.StepTakesHostOperation :=
  fun _ hpass => ⟨step_of_idle hpass, fun _ _ => step_of_pending hpass⟩

end Sys2Proof.Machine
end

section
/-! SUPPORT. What every operation keeps of the state: its registers' writers, its palette's writers, its fault set, and
the invariant of the machine. -/

namespace Sys2Proof.Machine

/-! ### What a step can be -/

/-- A step is a step of the pass in progress, or idling, or the host's next operation (R12, R284, R257). -/
theorem step_cases {s t : State} (h : step s = .next t) :
    (∃ q, s.pass = some q ∧ passStep (recordEffect params) params s q = .next t) ∨ t = s ∨
      ∃ op rest, s.pass = none ∧ exec op (s.setPending rest) = .next t := by
  cases hpass : s.pass with
  | some q =>
    rw [step, hpass] at h
    exact .inl ⟨q, rfl, passStep_exec s q ▸ h⟩
  | none =>
    cases hpend : s.pending with
    | nil =>
      rw [step_of_idle hpass hpend] at h
      cases h
      exact .inr (.inl rfl)
    | cons op rest =>
      rw [step_of_pending hpass hpend] at h
      exact .inr (.inr ⟨op, rest, rfl, h⟩)

/-! ### The writers of the registers -/

/-- The PROM is kept, and each other memory and register of the host interface is kept or the instruction is its one
writer (R25 to R31, R196). -/
def OneWriter (i : Instr) (s t : State) : Prop :=
  t.colorProm = s.colorProm ∧
    (t.cmd = s.cmd ∨ ∃ k w, i = .hostWriteCmd k w) ∧
    (t.videoram = s.videoram ∨ ∃ k b, i = .hostWriteVram k b) ∧
    (t.clip = s.clip ∨ ∃ x y x' y', i = .setClip x y x' y') ∧
    (t.bufsel = s.bufsel ∨ ∃ v, i = .hostSetBufsel v) ∧
    (t.alphamap = s.alphamap ∨ ∃ v, i = .hostSetAlphamap v)

/-- What a pass never touches has no writer in a pass. -/
theorem SameRegisters.oneWriter {i : Instr} {s t : State} (h : SameRegisters s t) : OneWriter i s t := by
  obtain ⟨hcmd, hvram, hprom, hclip, hbufsel, halpha, -, -, -⟩ := h
  exact ⟨hprom, .inl hcmd, .inl hvram, .inl hclip, .inl hbufsel, .inl halpha⟩

theorem HostMove.oneWriter {i : Instr} {s t : State} (h : HostMove i s t) : OneWriter i s t := by
  rcases h with ⟨f, rfl⟩ | ⟨o, rfl⟩ | ⟨w, -, -, rfl⟩ | ⟨c, rfl, -, rfl⟩ | ⟨-, rfl⟩ | ⟨o, d, -, rfl⟩ |
    ⟨k, w, rfl, -, -, rfl⟩ | ⟨k, w, rfl, -, -, rfl⟩ | ⟨v, rfl, rfl⟩ | ⟨v, rfl, rfl⟩
  case inr.inr.inr.inr.inl =>
    obtain ⟨p, hp⟩ := buildStaticEntries_eq (List.range 32) s
    simp [hp, OneWriter]
  all_goals simp [OneWriter]

/-- Settles O52, by what exec can do: a pass touches no register, and a host operation writes its own alone. -/
theorem oneWriterPerRegister : Obligations.OneWriterPerRegister := by
  intro i s t h
  rcases exec_cases h with ⟨-, q, -, -, hm⟩ | ⟨-, hrun⟩ | ⟨-, -, hm⟩
  · exact hm.registers.oneWriter
  · exact (triggerRun_registers hrun).oneWriter
  · exact hm.oneWriter

/-! ### The writers of the palette -/

/-- A static entry is one of 64..95 (R212). -/
theorem staticIndex_range {i : Nat} (hi : i < 32) : 64 ≤ staticIndex i ∧ staticIndex i < 96 := by
  unfold staticIndex
  omega

/-- A palette write selects one of the entries 0..63 (R213). -/
theorem paletteEntry_lt (offset : Nat) : paletteEntry offset < 64 := Nat.mod_lt _ (by decide)

theorem State.palette_writePal (s : State) (m n : Nat) (c : Rgb) :
    (s.writePal m c).palette n = if m = n then some c else s.palette n := Store.get_put ..

/-- An entry of 64..95 is kept or BUILD_STATIC_PALETTE is executed, an entry of 0..63 is kept or PALETTE_WRITE is (R30). -/
def SeparatePaletteWriters (i : Instr) (s t : State) (n : Nat) : Prop :=
  (64 ≤ n → t.palette n = s.palette n ∨ i = .buildStaticPalette) ∧
    (n < 64 → t.palette n = s.palette n ∨ ∃ offset data, i = .paletteWrite offset data)

theorem SeparatePaletteWriters.of_pal {i : Instr} {s t : State} (h : t.pal = s.pal) (n : Nat) :
    SeparatePaletteWriters i s t n := by
  simp [SeparatePaletteWriters, State.palette, h]

theorem SameRegisters.palette {i : Instr} {s t : State} (h : SameRegisters s t) (n : Nat) :
    SeparatePaletteWriters i s t n := by
  obtain ⟨-, -, -, -, -, -, hpal, -, -⟩ := h
  exact .of_pal hpal n

theorem HostMove.palette {i : Instr} {s t : State} (h : HostMove i s t) (n : Nat) :
    SeparatePaletteWriters i s t n := by
  rcases h with ⟨f, rfl⟩ | ⟨o, rfl⟩ | ⟨w, -, -, rfl⟩ | ⟨c, -, -, rfl⟩ | ⟨rfl, rfl⟩ | ⟨o, d, rfl, rfl⟩ |
    ⟨k, w, -, -, -, rfl⟩ | ⟨k, w, -, -, -, rfl⟩ | ⟨v, -, rfl⟩ | ⟨v, -, rfl⟩
  case inr.inr.inr.inr.inl =>
    refine ⟨fun _ => .inr rfl, fun hn => .inl (buildStaticEntries_other _ s n fun i hi => ?_)⟩
    have hge := (staticIndex_range (List.mem_range.1 hi)).1
    omega
  case inr.inr.inr.inr.inr.inl =>
    refine ⟨fun hn => .inl ?_, fun _ => .inr ⟨o, d, rfl⟩⟩
    have hlt := paletteEntry_lt o.toNat
    rw [State.palette_writePal, if_neg (by omega)]
  all_goals exact .of_pal (by simp) n

/-- Settles O53, by what exec can do: a pass keeps the palette, and of the host operations each of the two writers writes
in its own half alone. -/
theorem paletteWritersAreSeparate : Obligations.PaletteWritersAreSeparate := by
  intro i s t n h
  rcases exec_cases h with ⟨-, q, -, -, hm⟩ | ⟨-, hrun⟩ | ⟨-, -, hm⟩
  · exact hm.registers.palette n
  · exact (triggerRun_registers hrun).palette n
  · exact hm.palette n

/-! ### The fault set -/

theorem HostMove.faults {i : Instr} {s t : State} (h : HostMove i s t) : ∀ f ∈ s.faults, f ∈ t.faults := by
  rcases h with ⟨f, rfl⟩ | ⟨o, rfl⟩ | ⟨w, -, -, rfl⟩ | ⟨c, -, -, rfl⟩ | ⟨-, rfl⟩ | ⟨o, d, -, rfl⟩ |
    ⟨k, w, -, -, -, rfl⟩ | ⟨k, w, -, -, -, rfl⟩ | ⟨v, -, rfl⟩ | ⟨v, -, rfl⟩
  case inl => exact fun g hg => mem_addFault.2 (.inl hg)
  case inr.inr.inr.inr.inl =>
    obtain ⟨p, hp⟩ := buildStaticEntries_eq (List.range 32) s
    simp [hp]
  all_goals simp

/-- A whole pass keeps every recorded fault, for each of its steps does (R32, R109). -/
theorem triggerRun_faults {P : Params} {s t : State} (h : triggerRun P s = .next t) : ∀ f ∈ s.faults, f ∈ t.faults := by
  obtain ⟨-, ⟨-, rfl⟩ | ⟨v, -, hrun⟩⟩ := triggerRun_next h
  · exact fun f hf => mem_addFault.2 (.inl hf)
  · refine runPass_induct_move (M := fun u => ∀ f ∈ s.faults, f ∈ u.faults) ?_ ?_ hrun
    · exact fun _ _ _ hkept _ hm f hf => hm.faults f (hkept f hf)
    · exact fun _ hf => hf

theorem exec_faults {i : Instr} {s t : State} (h : exec i s = .next t) : ∀ f ∈ s.faults, f ∈ t.faults := by
  rcases exec_cases h with ⟨-, q, -, -, hm⟩ | ⟨-, hrun⟩ | ⟨-, -, hm⟩
  · exact hm.faults
  · exact triggerRun_faults hrun
  · exact hm.faults

theorem step_faults {s t : State} (h : step s = .next t) : ∀ f ∈ s.faults, f ∈ t.faults := by
  rcases step_cases h with ⟨q, hq, hk⟩ | rfl | ⟨op, rest, -, hk⟩
  · exact (passStep_move hq hk).faults
  · exact fun _ hf => hf
  · exact exec_faults (s := s.setPending rest) hk

/-- Settles O55: the fault set grows by exec and by a step, since `addFault` is its only operation. -/
theorem faultsAreNeverRemoved : Obligations.FaultsAreNeverRemoved :=
  ⟨rfl, fun _ _ _ => exec_faults, fun _ _ => step_faults⟩

/-! ### The invariant outside the pass -/

/-- The part of the invariant that speaks of no pass: canonical memories, a legal clip rectangle, cells of six bits and a
fault set without repeats (R23 to R32). -/
def State.storageSound (s : State) : Prop :=
  Memory.wf s = true ∧ s.clipLegal ∧ s.sixBitCells ∧ s.faults.Nodup

/-- The part of the invariant that speaks of the pass in progress (R21, R22, R52). -/
def State.passSound (s : State) : Prop := ∀ q, s.pass = some q → q.sound s

theorem State.inv_iff (s : State) : s.inv ↔ s.storageSound ∧ s.passSound :=
  ⟨fun ⟨hwf, hclip, hcells, hfaults, hpass⟩ => ⟨⟨hwf, hclip, hcells, hfaults⟩, hpass⟩,
    fun ⟨⟨hwf, hclip, hcells, hfaults⟩, hpass⟩ => ⟨hwf, hclip, hcells, hfaults, hpass⟩⟩

/-- Drawing stores the zero-extended colour, which has six bits (R191, R192). -/
theorem State.sixBitCells_drawOn {s : State} (b : BitVec 1) (c : Clip) (k : BitVec 6) (l : List (Int × Int))
    (h : s.sixBitCells) : (s.drawOn params b c k l).sixBitCells := by
  intro d x y v hv
  rw [State.cell_drawOn] at hv
  split at hv
  · cases hv
    exact cellValue_lt k
  · exact h d x y v hv

/-- A cleared buffer holds zeros (R190). -/
theorem State.sixBitCells_clear {s : State} (b : BitVec 1) (h : s.sixBitCells) :
    (s.setBuf b Canvas.cleared).sixBitCells := by
  intro d x y v hv
  rw [State.cell_setBuf] at hv
  split at hv
  · split at hv
    · next a ha =>
      rw [Canvas.get_cleared, if_pos (cellAddr_lt ha)] at hv
      cases hv
      decide
    · cases hv
  · exact h d x y v hv

theorem State.clipLegal_of_clip_eq {s t : State} (hc : t.clip = s.clip) (h : s.clipLegal) : t.clipLegal := by
  rw [State.clipLegal, hc]
  exact h

theorem State.storageSound.raise {s : State} (f : Fault) (h : s.storageSound) : (s.raise f).storageSound := by
  obtain ⟨hwf, hclip, hcells, hfaults⟩ := h
  exact ⟨hwf, hclip, hcells, nodup_addFault f hfaults⟩

theorem State.storageSound.drawOn {s : State} (b : BitVec 1) (c : Clip) (k : BitVec 6) (l : List (Int × Int))
    (h : s.storageSound) : (s.drawOn params b c k l).storageSound := by
  obtain ⟨hwf, hclip, hcells, hfaults⟩ := h
  exact ⟨Memory.wf_drawOn b c k l hwf, State.clipLegal_of_clip_eq (by simp) hclip,
    State.sixBitCells_drawOn b c k l hcells, by simpa using hfaults⟩

theorem State.storageSound.clear {s : State} (b : BitVec 1) (h : s.storageSound) :
    (s.setBuf b Canvas.cleared).storageSound := by
  obtain ⟨hwf, hclip, hcells, hfaults⟩ := h
  exact ⟨Memory.wf_setBuf b (Canvas.wf_cleared _) hwf, State.clipLegal_of_clip_eq (by simp) hclip,
    State.sixBitCells_clear b hcells, by simpa using hfaults⟩

theorem State.storageSound.setClip {s : State} {c : Clip} (hc : c.legal params = true) (h : s.storageSound) :
    (s.setClip c).storageSound := by
  obtain ⟨hwf, -, hcells, hfaults⟩ := h
  refine ⟨hwf, ?_, hcells, hfaults⟩
  rintro c' ⟨⟩
  exact hc

theorem State.storageSound.writePal {s : State} {n : Nat} (c : Rgb) (hn : n < 96) (h : s.storageSound) :
    (s.writePal n c).storageSound := by
  obtain ⟨hwf, hclip, hcells, hfaults⟩ := h
  exact ⟨Memory.wf_writePal c hn hwf, hclip, hcells, hfaults⟩

theorem State.storageSound.writeCmd {s : State} {k : Nat} (w : Word) (hk : k < params.cmdWords) (h : s.storageSound) :
    (s.writeCmd k w).storageSound := by
  obtain ⟨hwf, hclip, hcells, hfaults⟩ := h
  exact ⟨Memory.wf_writeCmd w hk hwf, hclip, hcells, hfaults⟩

theorem State.storageSound.writeVram {s : State} {k : Nat} (b : Byte) (hk : k < 1024) (h : s.storageSound) :
    (s.writeVram k b).storageSound := by
  obtain ⟨hwf, hclip, hcells, hfaults⟩ := h
  exact ⟨Memory.wf_writeVram b hk hwf, hclip, hcells, hfaults⟩

theorem State.storageSound.buildStaticEntries {l : List Nat} (hl : ∀ i ∈ l, i < 32) {s : State} (h : s.storageSound) :
    (l.foldl buildStaticEntry s).storageSound := by
  induction l generalizing s with
  | nil => exact h
  | cons i l ih =>
    obtain ⟨hi, hl⟩ := List.forall_mem_cons.1 hl
    exact ih hl (h.writePal _ (staticIndex_range hi).2)

theorem PassMove.storageSound {s t : State} {q : Pass} (hm : PassMove params s q t) (h : s.storageSound) :
    t.storageSound := by
  rcases hm with rfl | ⟨q', rfl, -⟩ | ⟨f, rfl⟩ | ⟨c, k, l, next, -, rfl⟩
  · exact h
  · exact h
  · exact h.raise f
  · exact h.drawOn q.target c k l

theorem HostMove.storageSound {i : Instr} {s t : State} (hm : HostMove i s t) (h : s.storageSound) :
    t.storageSound := by
  rcases hm with ⟨f, rfl⟩ | ⟨o, rfl⟩ | ⟨w, -, -, rfl⟩ | ⟨c, -, hc, rfl⟩ | ⟨-, rfl⟩ | ⟨o, d, -, rfl⟩ |
    ⟨k, w, -, hk0, hk, rfl⟩ | ⟨k, w, -, hk0, hk, rfl⟩ | ⟨v, -, rfl⟩ | ⟨v, -, rfl⟩
  · exact h.raise f
  · exact h
  · exact h.clear _
  · exact h.setClip hc
  · exact h.buildStaticEntries fun _ => List.mem_range.1
  · have := paletteEntry_lt o.toNat
    exact h.writePal _ (by omega)
  · exact h.writeCmd _ (by omega)
  · exact h.writeVram _ (by omega)
  · exact h
  · exact h

/-- A host operation other than TRIGGER_RUN starts no pass. -/
theorem HostMove.pass {i : Instr} {s t : State} (hm : HostMove i s t) (h : s.pass = none) : t.pass = none := by
  rcases hm with ⟨f, rfl⟩ | ⟨o, rfl⟩ | ⟨w, -, -, rfl⟩ | ⟨c, -, -, rfl⟩ | ⟨-, rfl⟩ | ⟨o, d, -, rfl⟩ |
    ⟨k, w, -, -, -, rfl⟩ | ⟨k, w, -, -, -, rfl⟩ | ⟨v, -, rfl⟩ | ⟨v, -, rfl⟩
  case inr.inr.inr.inr.inl =>
    obtain ⟨p, hp⟩ := buildStaticEntries_eq (List.range 32) s
    rw [hp]
    exact h
  all_goals simp [h]

/-! ### The state at start-up -/

/-- No cell holds a value at start-up (R35). -/
theorem State.cell_reset (b : BitVec 1) (x y : Int) : State.reset.cell params b x y = none := by
  have hb : State.reset.buf b = ⟨false, []⟩ := by rcases index_cases b with rfl | rfl <;> rfl
  rw [State.cell, hb]
  cases cellAddr params x y with
  | none => rfl
  | some a => simp [Canvas.get, Canvas.unlisted]

/-- Settles O57, from the fields of the state at start-up and of a pass at its start. -/
theorem startUpValues : Obligations.StartUpValues :=
  ⟨State.cell_reset, fun _ => rfl, rfl, rfl, rfl, rfl, rfl, fun _ _ => ⟨rfl, rfl⟩⟩

theorem State.storageSound_reset : State.reset.storageSound := by
  refine ⟨Memory.wf_reset, nofun, fun b x y v hv => ?_, List.nodup_nil⟩
  rw [State.cell_reset] at hv
  cases hv

theorem State.passSound_of_none {s : State} (h : s.pass = none) : s.passSound := by
  intro q hq
  rw [h] at hq
  cases hq

/-- Settles O58: the state at start-up has canonical memories, no value anywhere else and no pass. -/
theorem startUpMeetsInvariant : Obligations.StartUpMeetsInvariant :=
  (State.inv_iff _).2 ⟨State.storageSound_reset, State.passSound_of_none rfl⟩

/-! ### The pass stays sound -/

/-- A sub-list address has 11 bits (R81). -/
theorem pointerFits_addr (a : BitVec 11) : pointerFits a.toNat := by
  have hlt : a.toNat < 2048 := a.isLt
  exact hlt.le

@[simp] theorem Edge.advance_ptr (e : Edge) : e.advance.ptr = e.ptr := by
  unfold Edge.advance
  split <;> rfl

/-- Stepping an edge moves no pointer (R168). -/
theorem stepB_fits (P : Params) {g : Poly} (ha : pointerFits g.a.ptr) (hb : pointerFits g.b.ptr) : (stepB P g).fits := by
  unfold stepB
  split
  · exact ⟨ha, hb⟩
  · exact ⟨ha, by simpa using hb⟩

theorem stepA_fits (P : Params) {g : Poly} (ha : pointerFits g.a.ptr) (hb : pointerFits g.b.ptr) : (stepA P g).fits := by
  unfold stepA
  split
  · exact ⟨ha, hb⟩
  · exact stepB_fits P (by simpa using ha) hb

/-- A pair that is pulled lies below the bound, so the edge's pointer after it fits (R53, R165). -/
theorem afterPull_fits {q : Pass} {g : Poly} {stage : PolyPhase} {slope endY : Word} (hp : q.phase = .polygon g stage)
    (hfits : q.phase.fits) (hturn : nextTurn params q = .record (.edgeSeg slope endY)) :
    (afterPull params g slope endY stage).fits := by
  rw [hp] at hfits
  obtain ⟨ha, hb⟩ := hfits
  rw [nextTurn, hp] at hturn
  cases stage
  case firstA => exact ⟨readRecord_fits hturn, hb⟩
  case firstB => exact ⟨ha, readRecord_fits hturn⟩
  case pullA => exact stepB_fits params (readRecord_fits hturn) hb
  case pullB => exact ⟨ha, readRecord_fits hturn⟩
  case row => exact ⟨ha, hb⟩

/-- A record is read below the cap alone (R101). -/
theorem Pass.sound.index_lt_of_record {s : State} {q : Pass} {i : Instr} (hs : q.sound s)
    (hturn : nextTurn params q = .record i) : q.i < Config.walkerCap := by
  obtain ⟨-, -, hcap, -⟩ := hs
  by_cases hp : q.phase = .table
  · by_contra hge
    rw [nextTurn, hp] at hturn
    simp [hge] at hturn
  · exact hcap hp

/-- Only a list other than the table ends at the bound with its object (R53). -/
theorem phase_ne_table_of_listEnd {P : Params} {q : Pass} (hturn : nextTurn P q = .listEnd) : q.phase ≠ .table := by
  intro hp
  rw [nextTurn, hp] at hturn
  simp only at hturn
  split at hturn
  · split at hturn <;> cases hturn
  · cases hturn

theorem readRecord_ne_row {P : Params} {q : Pass} {ctx : Context} {p : Nat} {g : Poly} :
    readRecord P q ctx p ≠ .row g := by
  unfold readRecord
  split <;> simp

/-- A row is filled only while the polygon loop stands before one (R160). -/
theorem phase_of_row {P : Params} {q : Pass} {g : Poly} (hturn : nextTurn P q = .row g) : q.phase = .polygon g .row := by
  unfold nextTurn at hturn
  split at hturn
  case h_1 =>
    split at hturn
    · split at hturn <;> cases hturn
    · cases hturn
  case h_5 g' hp =>
    cases hturn
    exact hp
  all_goals exact absurd hturn readRecord_ne_row

theorem State.passSound.setPhase {s : State} {q : Pass} {ph : Phase} (hs : q.sound s) (hi : q.i < Config.walkerCap)
    (hph : ph.fits) : (s.setPass (some { q with phase := ph })).passSound := by
  obtain ⟨hsnap, hcap, -, -⟩ := hs
  rintro q' ⟨⟩
  exact ⟨hsnap, hcap, fun _ => hi, hph⟩

theorem State.passSound.endObject {s : State} {q : Pass} (hs : q.sound s) (hi : q.i < Config.walkerCap) :
    (endObject s q).passSound := by
  obtain ⟨hsnap, -, -, -⟩ := hs
  rintro q' ⟨⟩
  exact ⟨hsnap, hi, fun h => absurd rfl h, trivial⟩

theorem State.passSound.drawThen {s : State} {q : Pass} {next : Phase} (k : BitVec 6) (l : Clip → List (Int × Int))
    (hs : q.sound s) (hi : q.i < Config.walkerCap) (hnext : next.fits) :
    (drawThen params s q k l next).passSound := by
  rcases drawThen_cases params s q k l next with ⟨-, heq⟩ | ⟨c, -, heq⟩
  · rw [heq]
    exact State.passSound_of_none rfl
  · rw [heq]
    exact State.passSound.setPhase (by simpa [Pass.sound] using hs) hi hnext

/-- The pass in progress, if there is one, is sound and reads the record i next, below the cap. -/
def State.reads (s : State) (i : Instr) : Prop :=
  ∀ q, s.pass = some q → q.sound s ∧ q.i < Config.walkerCap ∧ nextTurn params q = .record i

theorem State.reads.endObject {s : State} {q : Pass} {i : Instr} (h : s.reads i) (hq : s.pass = some q) :
    (endObject s q).passSound := by
  obtain ⟨hs, hi, -⟩ := h q hq
  exact .endObject hs hi

theorem State.reads.setPhase {s : State} {q : Pass} {i : Instr} {ph : Phase} (h : s.reads i) (hq : s.pass = some q)
    (hph : ph.fits) : (s.setPass (some { q with phase := ph })).passSound := by
  obtain ⟨hs, hi, -⟩ := h q hq
  exact .setPhase hs hi hph

theorem State.reads.startObject {s t : State} {i : Instr} {ph : Phase} (h : s.reads i)
    (ht : startObject s ph = .next t) (hph : ph.fits) : t.passSound := by
  obtain ⟨q, hq, -, hk⟩ := inTable_next ht
  cases hk
  exact h.setPhase hq hph

/-- A reserved type records its fault and ends the pass (R108, R109). -/
theorem reservedObject_passSound {s t : State} {ty : BitVec 4} {ign : BitVec 1} {addr : BitVec 11}
    (h : reservedObject params ty ign addr s = .next t) : t.passSound := by
  obtain ⟨q, -, -, hk⟩ := inTable_next h
  cases hk
  exact State.passSound_of_none rfl

/-- A record that the pass reads leaves a sound pass or none: each pointer it sets is an 11-bit address or goes past words
that lie below the bound (R53, R102). -/
theorem recordEffect_passSound {s t : State} {i : Instr} (hread : s.reads i) (h : recordEffect params i s = .next t) :
    t.passSound := by
  cases i <;> simp only [recordEffect, reduceCtorEq] at h
  case objEnd =>
    obtain ⟨q, -, -, hk⟩ := inTable_next h
    cases hk
    exact State.passSound_of_none rfl
  case objPolygon ign addr => exact hread.startObject h (pointerFits_addr addr)
  case objPoint ign addr => exact hread.startObject h (pointerFits_addr addr)
  case objVector ign addr => exact hread.startObject h (pointerFits_addr addr)
  case ptEnd =>
    obtain ⟨q, p, hq, -, hk⟩ := inPoints_next h
    cases hk
    exact hread.endObject hq
  case ptPair x yc =>
    obtain ⟨q, p, hq, hp, hk⟩ := inPoints_next h
    obtain ⟨hs, hi, hturn⟩ := hread q hq
    rw [nextTurn, hp] at hturn
    cases hk
    exact .drawThen _ _ hs hi (readRecord_fits hturn)
  case vecEnd =>
    obtain ⟨q, p, hq, -, hk⟩ := inVectors_next h
    cases hk
    exact hread.endObject hq
  case vecSeg ey syc slope sx =>
    obtain ⟨q, p, hq, hp, hk⟩ := inVectors_next h
    obtain ⟨hs, hi, hturn⟩ := hread q hq
    rw [nextTurn, hp] at hturn
    cases hk
    exact .drawThen _ _ hs hi (readRecord_fits hturn)
  case polyHdr ign sec x1 x2 syc =>
    obtain ⟨q, a, hq, hp, rfl⟩ := polyHeader_next h
    obtain ⟨-, -, hturn⟩ := hread q hq
    rw [nextTurn, hp] at hturn
    exact hread.setPhase hq ⟨readRecord_fits hturn, pointerFits_addr sec⟩
  case edgeEnd =>
    obtain ⟨q, g, stage, hq, -, -, hk⟩ := inPull_next h
    cases hk
    exact hread.endObject hq
  case edgeSeg slope endY =>
    obtain ⟨q, g, stage, hq, hp, -, hk⟩ := inPull_next h
    obtain ⟨⟨-, -, -, hfits⟩, -, hturn⟩ := hread q hq
    cases hk
    exact hread.setPhase hq (afterPull_fits hp hfits hturn)
  all_goals exact reservedObject_passSound h

/-- Filling a row moves no pointer (R160, R168). -/
theorem fillRow_passSound {s : State} {q : Pass} {g : Poly} (hs : q.sound s) (hp : q.phase = .polygon g .row) :
    (fillRow params s q g).passSound := by
  have ⟨_, _, hcap, hfits⟩ := hs
  rw [hp] at hcap hfits
  obtain ⟨ha, hb⟩ := hfits
  exact .drawThen _ _ hs (hcap nofun) (stepA_fits params ha hb)

/-- A step of a pass leaves a sound pass or none: a record, the end of a list or of the table, or a row. -/
theorem passStep_passSound {s t : State} {q : Pass} (hq : s.pass = some q) (hs : q.sound s)
    (h : passStep (recordEffect params) params s q = .next t) : t.passSound := by
  unfold passStep at h
  split at h
  · next i hturn =>
    refine recordEffect_passSound (fun q' hq' => ?_) h
    obtain rfl : q = q' := Option.some.inj (hq.symm.trans hq')
    exact ⟨hs, hs.index_lt_of_record hturn, hturn⟩
  · next hturn =>
    have ⟨_, _, hcap, _⟩ := hs
    cases h
    exact .endObject hs (hcap (phase_ne_table_of_listEnd hturn))
  · cases h
    exact State.passSound_of_none rfl
  · next g hturn =>
    cases h
    exact fillRow_passSound hs (phase_of_row hturn)

/-! ### Every step keeps the invariant -/

theorem passStep_inv {s t : State} {q : Pass} (h : s.inv) (hq : s.pass = some q)
    (ht : passStep (recordEffect params) params s q = .next t) : t.inv := by
  rw [State.inv_iff] at h ⊢
  obtain ⟨hstorage, hpass⟩ := h
  exact ⟨(passStep_move hq ht).storageSound hstorage, passStep_passSound hq (hpass q hq) ht⟩

/-- A pass starts sound: its snapshot is command memory and its walker stands at index 0 (R52, R100). -/
theorem Pass.sound_start (s : State) (v : BitVec 1) : (Pass.start params s v).sound s :=
  ⟨rfl, Nat.zero_le _, fun h => absurd rfl h, trivial⟩

theorem triggerRun_inv {s t : State} (h : s.inv) (ht : triggerRun params s = .next t) : t.inv := by
  obtain ⟨hstorage, -⟩ := (State.inv_iff s).1 h
  obtain ⟨-, ⟨-, rfl⟩ | ⟨v, -, hrun⟩⟩ := triggerRun_next ht
  · exact (State.inv_iff _).2 ⟨hstorage.raise _, State.passSound_of_none rfl⟩
  · refine runPass_induct (M := State.inv) (fun _ _ _ => passStep_inv) ?_ hrun
    refine (State.inv_iff _).2 ⟨hstorage, ?_⟩
    rintro q ⟨⟩
    exact Pass.sound_start s v

/-- With no pass in progress exec keeps the invariant: a record is refused, and a host operation leaves no pass. -/
theorem exec_inv_of_idle {i : Instr} {s t : State} (hidle : s.pass = none) (h : s.inv) (ht : exec i s = .next t) :
    t.inv := by
  rcases exec_cases ht with ⟨-, q, -, hq, -⟩ | ⟨-, hrun⟩ | ⟨-, -, hm⟩
  · rw [hidle] at hq
    cases hq
  · exact triggerRun_inv h hrun
  · obtain ⟨hstorage, -⟩ := (State.inv_iff s).1 h
    exact (State.inv_iff t).2 ⟨hm.storageSound hstorage, State.passSound_of_none (hm.pass hidle)⟩

/-- Settles O59, by what a step can be: each step of a pass keeps the storage and the pass sound, so does TRIGGER_RUN, which
iterates them, and every other host operation keeps the storage and leaves no pass. -/
theorem stepKeepsInvariant : Obligations.StepKeepsInvariant := by
  intro s t h ht
  rcases step_cases ht with ⟨q, hq, hk⟩ | rfl | ⟨op, rest, hidle, hk⟩
  · exact passStep_inv h hq hk
  · exact h
  · exact exec_inv_of_idle (s := s.setPending rest) hidle h hk

end Sys2Proof.Machine
end

section
/-! SUPPORT. What the command-memory bound does to a pass: a record that does not fit below it ends its list as the
list's terminator would, and no word from the bound on is read (R53). -/

namespace Sys2Proof.Machine

open Sys2Proof.Laws

/-! ### Records at the bound -/

/-- Every instruction has the words its context and its terminator give it (R70, R83). -/
theorem recordLength (i : Instr) : RecordLength.Statement i := by
  cases i <;> rfl

/-- What is found at a pointer is a record or the list's end (R53). -/
theorem readRecord_cases (P : Params) (q : Pass) (ctx : Context) (p : Nat) :
    (∃ i, readRecord P q ctx p = .record i) ∨ readRecord P q ctx p = .listEnd := by
  unfold readRecord
  split
  · exact .inl ⟨_, rfl⟩
  · exact .inr rfl

/-- Where a whole record would reach the bound, only a terminator of one word is still read (R53). -/
theorem isWordTerminator_of_readRecord {P : Params} {q : Pass} {ctx : Context} {p : Nat} {i : Instr}
    (hbound : P.cmdWords < p + ctx.words) (h : readRecord P q ctx p = .record i) : isWordTerminator i = true := by
  have hfits : p + (encode i).length ≤ P.cmdWords := readRecord_fits h
  by_contra hterm
  have hlength : (encode i).length = ctx.words := by
    simpa [RecordLength.Statement, readRecord_record h, hterm] using recordLength i
  omega

/-- A point list's terminator is found by its first word alone (R53, R74). -/
theorem readRecord_points_terminator {P : Params} {q : Pass} {p : Nat} (hp : p < P.cmdWords)
    (hw : Store.read 0#16 q.snap p = 0xFFFF#16) : readRecord P q .points p = .record .ptEnd := by
  simp [readRecord, Context.words, snapWords, hp, hw, decode]

/-- A vector list's terminator is found by its first word alone (R53, R75). -/
theorem readRecord_vectors_terminator {P : Params} {q : Pass} {p : Nat} (hp : p < P.cmdWords)
    (hw : Store.read 0#16 q.snap p = 0xFFFF#16) : readRecord P q .vectors p = .record .vecEnd := by
  simp [readRecord, Context.words, snapWords, hp, hw, decode]

/-! ### Steps that end an object -/

/-- A step of a pass takes the pass's next turn (R12). -/
theorem step_of_pass {s : State} {q : Pass} (hq : s.pass = some q) : step s = passStep exec params s q := by
  rw [step, hq]

/-- A terminator of one word ends the object whose list it stands in (R121, R141). -/
theorem exec_wordTerminator {s : State} {q : Pass} {i : Instr} (hq : s.pass = some q)
    (hctx : i.context = some q.phase.context) (hterm : isWordTerminator i = true) :
    exec i s = .next (endObject s q) := by
  cases i <;> cases hterm
  case ptEnd =>
    cases hp : q.phase with
    | points p => exact inPoints_eq _ hq hp
    | _ => rw [hp] at hctx; cases hctx
  case vecEnd =>
    cases hp : q.phase with
    | vectors p => exact inVectors_eq _ hq hp
    | _ => rw [hp] at hctx; cases hctx

/-- The list's end at the bound ends the object (R53). -/
theorem step_of_listEnd {s : State} {q : Pass} (hq : s.pass = some q) (h : nextTurn params q = .listEnd) :
    step s = .next (endObject s q) := by
  rw [step_of_pass hq, passStep, h]

/-- A terminator of one word ends the object (R121, R141). -/
theorem step_of_wordTerminator {s : State} {q : Pass} {i : Instr} (hq : s.pass = some q)
    (h : nextTurn params q = .record i) (hterm : isWordTerminator i = true) : step s = .next (endObject s q) := by
  obtain ⟨hctx, -⟩ := nextTurn_record h
  rw [step_of_pass hq, passStep, h]
  exact exec_wordTerminator hq hctx hterm

/-- A turn that looks for a record where it does not fit ends the object (R53). -/
theorem step_at_bound {s : State} {q : Pass} {ctx : Context} {p : Nat} (hq : s.pass = some q)
    (hturn : nextTurn params q = readRecord params q ctx p) (hbound : 2048 < p + ctx.words) :
    step s = .next (endObject s q) := by
  rcases readRecord_cases params q ctx p with ⟨i, hread⟩ | hread
  · exact step_of_wordTerminator hq (hturn.trans hread) (isWordTerminator_of_readRecord hbound hread)
  · exact step_of_listEnd hq (hturn.trans hread)

/-- Settles O27: in every phase the turn reads a record at the list's pointer, and there the bound leaves the list's end or
the terminator, both of which end the object. -/
theorem recordsEndAtBound : Obligations.RecordsEndAtBound := by
  intro s q hq word after
  refine ⟨?points, ?vectors, ?pointsEnd, ?vectorsEnd, ?header, ?edgeA, ?edgeB⟩
  case points =>
    intro p hp hbound
    exact step_at_bound (ctx := .points) (p := p) hq (by rw [nextTurn, hp]) (Nat.lt_succ_of_le hbound)
  case vectors =>
    intro p hp hbound
    exact step_at_bound (ctx := .vectors) (p := p) hq (by rw [nextTurn, hp]) (Nat.lt_succ_of_le hbound)
  case pointsEnd =>
    intro p hp hlt hw
    have hturn : nextTurn params q = .record .ptEnd := by rw [nextTurn, hp]; exact readRecord_points_terminator hlt hw
    exact step_of_wordTerminator hq hturn rfl
  case vectorsEnd =>
    intro p hp hlt hw
    have hturn : nextTurn params q = .record .vecEnd := by rw [nextTurn, hp]; exact readRecord_vectors_terminator hlt hw
    exact step_of_wordTerminator hq hturn rfl
  case header =>
    intro a hp hbound
    exact step_at_bound (ctx := .header) (p := a) hq (by rw [nextTurn, hp]) (Nat.lt_succ_of_le hbound)
  case edgeA =>
    rintro g stage hp (rfl | rfl) hbound
    all_goals exact step_at_bound (ctx := .edges) (p := g.a.ptr) hq (by rw [nextTurn, hp]) (Nat.lt_succ_of_le hbound)
  case edgeB =>
    rintro g stage hp (rfl | rfl) hbound
    all_goals exact step_at_bound (ctx := .edges) (p := g.b.ptr) hq (by rw [nextTurn, hp]) (Nat.lt_succ_of_le hbound)

/-! ### Words from the bound on -/

/-- Two snapshots with the same words below the bound (R53). -/
def AgreeBelowBound (P : Params) (snap snap' : Store Word) : Prop :=
  ∀ k, k < P.cmdWords → Store.read 0#16 snap k = Store.read 0#16 snap' k

theorem AgreeBelowBound.snapWords {P : Params} {q : Pass} {snap' : Store Word} (h : AgreeBelowBound P q.snap snap')
    (n p : Nat) : snapWords P q n p = snapWords P { q with snap := snap' } n p := by
  induction n generalizing p with
  | zero => rfl
  | succ n ih =>
    simp only [Machine.snapWords, ih]
    split
    · next hp => rw [h p hp]
    · rfl

theorem AgreeBelowBound.readRecord {P : Params} {q : Pass} {snap' : Store Word} (h : AgreeBelowBound P q.snap snap')
    (ctx : Context) (p : Nat) : readRecord P q ctx p = readRecord P { q with snap := snap' } ctx p := by
  rw [Machine.readRecord, h.snapWords, Machine.readRecord]

/-- Settles O28: every turn reads the snapshot by readRecord alone, and its words lie below the bound. -/
theorem noWordAboveBoundIsRead : Obligations.NoWordAboveBoundIsRead := by
  intro q snap' h
  have hread := AgreeBelowBound.readRecord (P := params) (q := q) h
  simp only [nextTurn, hread]

end Sys2Proof.Machine
end

section
/-! SUPPORT. Records and their words, list by list: an object table entry by its type field, the other records by the
word that tells them from their list's terminator (R70 to R85). -/

namespace Sys2Proof

open Sys2Proof.Claims

/-! ### Object table entries by their type -/

@[simp] theorem encode_entryOfType (t : BitVec 4) (ign : BitVec 1) (addr : BitVec 11) :
    encode (entryOfType t ign addr) = [entryWord t ign addr] := by
  obtain ⟨t⟩ := t
  fin_cases t <;> rfl

/-- Only an entry with the terminator's fields is ill formed (R71, R85). -/
theorem wellFormed_entryOfType (t : BitVec 4) (ign : BitVec 1) (addr : BitVec 11) :
    (entryOfType t ign addr).wellFormed = !(t == 0xF#4 && ign == 1#1 && addr == 0x7FF#11) := by
  obtain ⟨t⟩ := t
  fin_cases t <;> rfl

/-- An entry is well formed when its word is not the terminator's (R71, R85). -/
theorem wellFormed_entryOfType_iff {t : BitVec 4} {ign : BitVec 1} {addr : BitVec 11} :
    (entryOfType t ign addr).wellFormed = true ↔ entryWord t ign addr ≠ 0xFFFF#16 := by
  rw [wellFormed_entryOfType, ne_eq, entryWord_eq_ones]
  simp [-not_and, not_and_or, or_assoc]

/-- A record of the object table is its terminator or the entry of a type (R70, R82). -/
theorem table_record_cases {i : Instr} (h : i.context = some .table) :
    i = .objEnd ∨ ∃ t ign addr, i = entryOfType t ign addr := by
  cases i <;> cases h
  case objEnd => exact .inl rfl
  case objPolygon ign addr => exact .inr ⟨0x4#4, ign, addr, rfl⟩
  case objPoint ign addr => exact .inr ⟨0x8#4, ign, addr, rfl⟩
  case objVector ign addr => exact .inr ⟨0xC#4, ign, addr, rfl⟩
  case objReserved0 ign addr => exact .inr ⟨0x0#4, ign, addr, rfl⟩
  case objReserved1 ign addr => exact .inr ⟨0x1#4, ign, addr, rfl⟩
  case objReserved2 ign addr => exact .inr ⟨0x2#4, ign, addr, rfl⟩
  case objReserved3 ign addr => exact .inr ⟨0x3#4, ign, addr, rfl⟩
  case objReserved5 ign addr => exact .inr ⟨0x5#4, ign, addr, rfl⟩
  case objReserved6 ign addr => exact .inr ⟨0x6#4, ign, addr, rfl⟩
  case objReserved7 ign addr => exact .inr ⟨0x7#4, ign, addr, rfl⟩
  case objReserved9 ign addr => exact .inr ⟨0x9#4, ign, addr, rfl⟩
  case objReservedA ign addr => exact .inr ⟨0xA#4, ign, addr, rfl⟩
  case objReservedB ign addr => exact .inr ⟨0xB#4, ign, addr, rfl⟩
  case objReservedD ign addr => exact .inr ⟨0xD#4, ign, addr, rfl⟩
  case objReservedE ign addr => exact .inr ⟨0xE#4, ign, addr, rfl⟩
  case objReservedF ign addr => exact .inr ⟨0xF#4, ign, addr, rfl⟩

/-! ### Object table words by their type -/

/-- A word other than the terminator's is the entry of its type (R82). -/
theorem decodeEntry_of_ne_ones {w : Word} (h : w ≠ 0xFFFF#16) :
    decodeEntry w = entryOfType (entryType w) (entryIgnored w) (wordAddr w) :=
  if_neg h

theorem encode_decodeEntry (w : Word) : encode (decodeEntry w) = [w] := by
  by_cases h : w = 0xFFFF#16
  · subst h
    rfl
  · rw [decodeEntry_of_ne_ones h, encode_entryOfType, entryWord_fields]

theorem wellFormed_decodeEntry (w : Word) : (decodeEntry w).wellFormed = true := by
  by_cases h : w = 0xFFFF#16
  · subst h
    rfl
  · rw [decodeEntry_of_ne_ones h, wellFormed_entryOfType_iff, entryWord_fields]
    exact h

/-- The mask 0xF000 keeps the type field. -/
theorem entryType_and_mask (w : Word) : entryType (w &&& 0xF000#16) = entryType w := by
  rw [entryType, BitVec.extractLsb'_and]
  exact BitVec.and_allOnes

/-- A type field moved to bits 15:12 is read back. -/
theorem entryType_shiftLeft (t : BitVec 4) : entryType (t.setWidth 16 <<< 12) = t := by
  revert t
  decide

/-- What the mask 0xF000 leaves of a word is its type (R82). -/
theorem entryType_of_mask {w : Word} {t : BitVec 4} (h : w &&& 0xF000#16 = t.setWidth 16 <<< 12) : entryType w = t := by
  rw [← entryType_and_mask, h, entryType_shiftLeft]

/-- A word other than the terminator's is decoded by what the mask 0xF000 leaves of it (R82). -/
theorem decodeEntry_of_mask {w : Word} {t : BitVec 4} (hne : w ≠ 0xFFFF#16)
    (h : w &&& 0xF000#16 = t.setWidth 16 <<< 12) :
    decodeEntry w = entryOfType t (w.extractLsb' 11 1) (w.extractLsb' 0 11) := by
  rw [decodeEntry_of_ne_ones hne, entryType_of_mask h, entryIgnored, wordAddr]

/-- A word of a type other than 0xF is not the terminator's (R82). -/
theorem ne_ones_of_mask {w : Word} {t : BitVec 4} (ht : t ≠ 0xF#4) (h : w &&& 0xF000#16 = t.setWidth 16 <<< 12) :
    w ≠ 0xFFFF#16 := by
  rintro rfl
  exact ht (entryType_of_mask h).symm

/-- Each reserved entry is the entry of its type (R82, R108). -/
theorem eq_entryOfType_of_mem_reservedEntries {ign : BitVec 1} {addr : BitVec 11} {e : Instr × BitVec 4}
    (h : e ∈ reservedEntries ign addr) : e.1 = entryOfType e.2 ign addr := by
  have hmap : reservedEntries ign addr =
      [0x0#4, 0x1#4, 0x2#4, 0x3#4, 0x5#4, 0x6#4, 0x7#4, 0x9#4, 0xA#4, 0xB#4, 0xD#4, 0xE#4, 0xF#4].map
        fun t => (entryOfType t ign addr, t) := rfl
  rw [hmap] at h
  obtain ⟨t, -, rfl⟩ := List.mem_map.1 h
  rfl

/-! ### Records of the other lists -/

@[simp] theorem wellFormed_ptPair {x yc : Word} : (Instr.ptPair x yc).wellFormed = true ↔ x ≠ 0xFFFF#16 :=
  bne_iff_ne

@[simp] theorem wellFormed_vecSeg {ey syc slope sx : Word} :
    (Instr.vecSeg ey syc slope sx).wellFormed = true ↔ ey ≠ 0xFFFF#16 :=
  bne_iff_ne

@[simp] theorem wellFormed_edgeSeg {slope endY : Word} :
    (Instr.edgeSeg slope endY).wellFormed = true ↔ ¬(slope = 0xFFFF#16 ∧ endY = 0xFFFF#16) := by
  simp [Instr.wellFormed, -not_and, not_and_or]

/-- A word other than the terminator's begins a point pair (R74). -/
theorem decode_points_of_ne_ones {x : Word} (h : x ≠ 0xFFFF#16) (yc : Word) (rest : List Word) :
    decode .points (x :: yc :: rest) = .ok (.ptPair x yc, rest) :=
  if_neg h

/-- A word other than the terminator's begins a vector record (R75). -/
theorem decode_vectors_of_ne_ones {ey : Word} (h : ey ≠ 0xFFFF#16) (syc slope sx : Word) (rest : List Word) :
    decode .vectors (ey :: syc :: slope :: sx :: rest) = .ok (.vecSeg ey syc slope sx, rest) :=
  if_neg h

/-- A pair other than the terminator's is an edge segment (R77). -/
theorem decode_edges_of_ne_ones {slope endY : Word} (h : ¬(slope = 0xFFFF#16 ∧ endY = 0xFFFF#16))
    (rest : List Word) : decode .edges (slope :: endY :: rest) = .ok (.edgeSeg slope endY, rest) :=
  if_neg h

/-! ### From a record to its words and back -/

theorem decode_encode_table {i : Instr} (hwf : i.wellFormed = true) (hctx : i.context = some .table)
    (rest : List Word) : decode .table (encode i ++ rest) = .ok (i, rest) := by
  rcases table_record_cases hctx with rfl | ⟨t, ign, addr, rfl⟩
  · rfl
  · have hne : ¬(t = 0xF#4 ∧ ign = 1#1 ∧ addr = 0x7FF#11) := fun e =>
      wellFormed_entryOfType_iff.1 hwf (entryWord_eq_ones.2 e)
    rw [encode_entryOfType, List.singleton_append, decode, decodeEntry_entryWord t ign addr hne]

/-- Settles O1: an entry by its type, and any other record by the word that tells it from the terminator. -/
theorem decodeEncodeRoundTrip : Obligations.DecodeEncodeRoundTrip := by
  intro i ctx rest hwf hctx
  cases ctx
  case table => exact decode_encode_table hwf hctx rest
  all_goals cases i <;> cases hctx
  case points.ptEnd | vectors.vecEnd | edges.edgeEnd => rfl
  case points.ptPair x yc => exact decode_points_of_ne_ones (wellFormed_ptPair.1 hwf) yc rest
  case vectors.vecSeg ey syc slope sx => exact decode_vectors_of_ne_ones (wellFormed_vecSeg.1 hwf) syc slope sx rest
  case header.polyHdr ign sec x1 x2 syc =>
    simp only [encode, List.cons_append, List.nil_append, decode, headerIgnored_headerWord, wordAddr_headerWord]
  case edges.edgeSeg slope endY => exact decode_edges_of_ne_ones (wellFormed_edgeSeg.1 hwf) rest

/-! ### From words to a record and back -/

theorem encode_wellFormed_of_decode_points {ws rest : List Word} {i : Instr} (h : decode .points ws = .ok (i, rest)) :
    encode i ++ rest = ws ∧ i.wellFormed = true := by
  rcases ws with _ | ⟨x, ws⟩
  · cases h
  by_cases hx : x = 0xFFFF#16
  · subst hx
    cases h
    exact ⟨rfl, rfl⟩
  · rcases ws with _ | ⟨yc, ws⟩
    · simp [decode, hx] at h
    · cases (decode_points_of_ne_ones hx yc ws).symm.trans h
      exact ⟨rfl, wellFormed_ptPair.2 hx⟩

theorem encode_wellFormed_of_decode_vectors {ws rest : List Word} {i : Instr} (h : decode .vectors ws = .ok (i, rest)) :
    encode i ++ rest = ws ∧ i.wellFormed = true := by
  rcases ws with _ | ⟨ey, ws⟩
  · cases h
  by_cases hey : ey = 0xFFFF#16
  · subst hey
    cases h
    exact ⟨rfl, rfl⟩
  · rcases ws with _ | ⟨syc, _ | ⟨slope, _ | ⟨sx, ws⟩⟩⟩
    case cons.cons.cons =>
      cases (decode_vectors_of_ne_ones hey syc slope sx ws).symm.trans h
      exact ⟨rfl, wellFormed_vecSeg.2 hey⟩
    all_goals simp [decode, hey] at h

theorem encode_wellFormed_of_decode_header {ws rest : List Word} {i : Instr} (h : decode .header ws = .ok (i, rest)) :
    encode i ++ rest = ws ∧ i.wellFormed = true := by
  rcases ws with _ | ⟨w0, _ | ⟨x1, _ | ⟨x2, _ | ⟨syc, ws⟩⟩⟩⟩ <;> cases h
  exact ⟨congrArg (· :: x1 :: x2 :: syc :: rest) (headerWord_fields w0), rfl⟩

theorem encode_wellFormed_of_decode_edges {ws rest : List Word} {i : Instr} (h : decode .edges ws = .ok (i, rest)) :
    encode i ++ rest = ws ∧ i.wellFormed = true := by
  rcases ws with _ | ⟨slope, _ | ⟨endY, ws⟩⟩
  · cases h
  · cases h
  by_cases hpair : slope = 0xFFFF#16 ∧ endY = 0xFFFF#16
  · obtain ⟨rfl, rfl⟩ := hpair
    cases h
    exact ⟨rfl, rfl⟩
  · cases (decode_edges_of_ne_ones hpair ws).symm.trans h
    exact ⟨rfl, wellFormed_edgeSeg.2 hpair⟩

theorem encode_wellFormed_of_decode_table {ws rest : List Word} {i : Instr} (h : decode .table ws = .ok (i, rest)) :
    encode i ++ rest = ws ∧ i.wellFormed = true := by
  rcases ws with _ | ⟨w, ws⟩ <;> cases h
  exact ⟨congrArg (· ++ rest) (encode_decodeEntry w), wellFormed_decodeEntry w⟩

/-- The words of a decoded record are those it was read from, and its fields are no terminator's (R85). -/
theorem encode_wellFormed_of_decode {ctx : Context} {ws rest : List Word} {i : Instr}
    (h : decode ctx ws = .ok (i, rest)) : encode i ++ rest = ws ∧ i.wellFormed = true := by
  cases ctx with
  | table => exact encode_wellFormed_of_decode_table h
  | points => exact encode_wellFormed_of_decode_points h
  | vectors => exact encode_wellFormed_of_decode_vectors h
  | header => exact encode_wellFormed_of_decode_header h
  | edges => exact encode_wellFormed_of_decode_edges h

/-- Settles O2, list by list. -/
theorem encodeDecodeRoundTrip : Obligations.EncodeDecodeRoundTrip := by
  intro ctx ws rest i h
  obtain ⟨hwords, hwf⟩ := encode_wellFormed_of_decode h
  exact ⟨hwords, hwf, Machine.decode_context h⟩

/-- Settles O3: the mask of each clause leaves the type, and the entry of that type is the clause's record. -/
theorem objectTypeMap : Obligations.ObjectTypeMap := by
  intro w ign addr
  have drawing {t : BitVec 4} (ht : t ≠ 0xF#4) (h : w &&& 0xF000#16 = t.setWidth 16 <<< 12) :
      decodeEntry w = entryOfType t ign addr := decodeEntry_of_mask (ne_ones_of_mask ht h) h
  refine ⟨?terminator, drawing (t := 0x4#4) (by decide), drawing (t := 0x8#4) (by decide),
    drawing (t := 0xC#4) (by decide), ?reserved⟩
  case terminator =>
    rintro rfl
    rfl
  case reserved =>
    intro e he hne h
    rw [decodeEntry_of_mask hne h, eq_entryOfType_of_mem_reservedEntries he]

/-- Settles O4: each sample is decoded by evaluation. -/
theorem sampleWordsDecode : Obligations.SampleWordsDecode :=
  ⟨rfl, rfl, rfl, rfl, rfl, rfl, rfl, rfl, rfl, rfl, rfl⟩

end Sys2Proof

namespace Sys2Proof.Machine

/-! ### Meanings that take the address alone -/

theorem exec_objPoint (ign : BitVec 1) (addr : BitVec 11) (s : State) :
    exec (.objPoint ign addr) s = startObject s (.points addr.toNat) := rfl

theorem exec_objVector (ign : BitVec 1) (addr : BitVec 11) (s : State) :
    exec (.objVector ign addr) s = startObject s (.vectors addr.toNat) := rfl

theorem exec_objPolygon (ign : BitVec 1) (addr : BitVec 11) (s : State) :
    exec (.objPolygon ign addr) s = startObject s (.header addr.toNat) := rfl

theorem exec_polyHdr (ign : BitVec 5) (sec : BitVec 11) (x1 x2 syc : Word) (s : State) :
    exec (.polyHdr ign sec x1 x2 syc) s = polyHeader params sec x1 x2 syc s := rfl

/-- Settles O5: none of the four meanings takes the ignored bits. -/
theorem ignoredBitsChangeNothing : Obligations.IgnoredBitsChangeNothing := by
  intro s i j k l addr sec x1 x2 syc
  simp only [exec_objPoint, exec_objVector, exec_objPolygon, exec_polyHdr, and_self]

end Sys2Proof.Machine
end

section
/-! SUPPORT. The object table and the record that a step runs: what an entry of each type does to the pass, and which
record is read at the pointer of the list being read (R100 to R109). -/

namespace Sys2Proof.Machine

open Sys2Proof.Claims

/-! ### Entries of the object table -/

theorem exec_objEnd (s : State) : exec .objEnd s = inTable s fun _ => .next (s.setPass none) := rfl

/-- An entry starts the renderer of its type, or is an entry of a reserved type (R82, R104 to R108). -/
theorem recordEffect_entryOfType (P : Params) (t : BitVec 4) (ign : BitVec 1) (addr : BitVec 11) (s : State) :
    recordEffect P (entryOfType t ign addr) s =
      if t = 0x8#4 then startObject s (.points addr.toNat)
      else if t = 0x4#4 then startObject s (.header addr.toNat)
      else if t = 0xC#4 then startObject s (.vectors addr.toNat)
      else reservedObject P t ign addr s := by
  obtain ⟨t⟩ := t
  fin_cases t <;> rfl

theorem context_entryOfType (t : BitVec 4) (ign : BitVec 1) (addr : BitVec 11) :
    (entryOfType t ign addr).context = some .table := by
  obtain ⟨t⟩ := t
  fin_cases t <;> rfl

/-- The types of the reserved entries are none of the three that draw (R82). -/
theorem type_of_mem_reservedEntries {ign : BitVec 1} {addr : BitVec 11} {e : Instr × BitVec 4}
    (h : e ∈ reservedEntries ign addr) : e.2 ≠ 0x8#4 ∧ e.2 ≠ 0x4#4 ∧ e.2 ≠ 0xC#4 := by
  have hall : ∀ e ∈ reservedEntries ign addr, e.2 ≠ 0x8#4 ∧ e.2 ≠ 0x4#4 ∧ e.2 ≠ 0xC#4 := by simp [reservedEntries]
  exact hall e h

theorem recordEffect_reservedEntry {ign : BitVec 1} {addr : BitVec 11} {e : Instr × BitVec 4}
    (h : e ∈ reservedEntries ign addr) (P : Params) (s : State) :
    recordEffect P e.1 s = reservedObject P e.2 ign addr s := by
  obtain ⟨hpoint, hpolygon, hvector⟩ := type_of_mem_reservedEntries h
  rw [eq_entryOfType_of_mem_reservedEntries h, recordEffect_entryOfType, if_neg hpoint, if_neg hpolygon, if_neg hvector]

theorem exec_reservedEntry {ign : BitVec 1} {addr : BitVec 11} {e : Instr × BitVec 4}
    (h : e ∈ reservedEntries ign addr) (s : State) : exec e.1 s = reservedObject params e.2 ign addr s := by
  have hctx : e.1.context = some .table := eq_entryOfType_of_mem_reservedEntries h ▸ context_entryOfType ..
  rw [exec_record hctx, recordEffect_reservedEntry h]

/-- Dispatch changes the phase of the pass (R102, R104). -/
theorem startObject_eq {s : State} {q : Pass} (hq : s.pass = some q) (hp : q.phase = .table) (ph : Phase) :
    startObject s ph = .next (s.setPass (some { q with phase := ph })) :=
  inTable_eq _ hq hp

/-- Under FAULT a reserved type records its fault, which ends the pass (R108, R109). -/
theorem reservedObject_of_fault {P : Params} (hP : P.unknownTypePolicy = .fault) {s : State} {q : Pass}
    (hq : s.pass = some q) (hp : q.phase = .table) (t : BitVec 4) (ign : BitVec 1) (addr : BitVec 11) :
    reservedObject P t ign addr s = .next (s.raise (.reservedObjectType q.i (entryWord t ign addr))) := by
  rw [reservedObject, inTable_eq _ hq hp, hP]

/-- Under SKIP a reserved type advances the walker (R108). -/
theorem reservedObject_of_skip {P : Params} (hP : P.unknownTypePolicy = .skip) {s : State} {q : Pass}
    (hq : s.pass = some q) (hp : q.phase = .table) (t : BitVec 4) (ign : BitVec 1) (addr : BitVec 11) :
    reservedObject P t ign addr s = .next (endObject s q) := by
  rw [reservedObject, inTable_eq _ hq hp, hP]

/-- Settles O14: the terminator's word is read back from what it decodes to, and OBJ_END acts while the table is
read. -/
theorem objEndEndsPass : Obligations.ObjEndEndsPass := by
  refine ⟨fun w => ⟨fun h => ?_, fun h => if_pos h⟩, fun s q hq hp => ?_⟩
  · have hword : [0xFFFF#16] = [w] := by simpa [h, encode] using encode_decodeEntry w
    exact (List.singleton_inj.1 hword).symm
  · rw [exec_objEnd, inTable_eq _ hq hp]
    rfl

/-- Settles O15, by the dispatch that the three entries share. -/
theorem entriesStartRenderers : Obligations.EntriesStartRenderers :=
  fun _ _ _ _ hq hp => ⟨startObject_eq hq hp _, startObject_eq hq hp _, startObject_eq hq hp _⟩

/-- Settles O16: the thirteen entries are one operation, with one case for each policy. -/
theorem reservedTypesFault : Obligations.ReservedTypesFault := by
  intro s q ign addr hq hp e he
  constructor
  · rw [exec_reservedEntry he]
    exact reservedObject_of_fault rfl hq hp ..
  · rw [recordEffect_reservedEntry he]
    exact reservedObject_of_skip rfl hq hp ..

/-! ### The record that a step runs -/

theorem step_of_record {s : State} {q : Pass} {i : Instr} (hq : s.pass = some q) (h : nextTurn params q = .record i) :
    step s = exec i s := by
  rw [step_of_pass hq, passStep, h]

theorem readRecord_of_decode {P : Params} {q : Pass} {ctx : Context} {p : Nat} {i : Instr} {rest : List Word}
    (h : decode ctx (snapWords P q ctx.words p) = .ok (i, rest)) : readRecord P q ctx p = .record i := by
  rw [readRecord, h]

/-- At the cap the walker ends (R101). -/
theorem nextTurn_at_cap {P : Params} {q : Pass} (hp : q.phase = .table) (hcap : Config.walkerCap ≤ q.i) :
    nextTurn P q = .tableEnd := by
  rw [nextTurn, hp]
  exact if_neg (Nat.not_lt.2 hcap)

/-- Below the cap the table's record at the walker index is read (R101). -/
theorem nextTurn_table {P : Params} {q : Pass} {i : Instr} (hp : q.phase = .table) (hcap : q.i < Config.walkerCap)
    (h : readRecord P q .table q.i = .record i) : nextTurn P q = .record i := by
  simp [nextTurn, hp, hcap, h]

/-- Settles O25: in each phase the turn is the record at the list's pointer, and before a row it is the row. -/
theorem stepRunsDecodedRecord : Obligations.StepRunsDecodedRecord := by
  intro s q i rest hq
  have run {ctx : Context} {p : Nat} (hturn : nextTurn params q = readRecord params q ctx p)
      (h : decode ctx (snapWords params q ctx.words p) = .ok (i, rest)) : step s = exec i s :=
    step_of_record hq (hturn.trans (readRecord_of_decode h))
  refine ⟨?table, ?points, ?vectors, ?header, ?edgeA, ?edgeB, ?row⟩
  case table =>
    intro hp hcap h
    exact step_of_record hq (nextTurn_table hp hcap (readRecord_of_decode h))
  case points =>
    intro p hp h
    exact run (ctx := .points) (by rw [nextTurn, hp]) h
  case vectors =>
    intro p hp h
    exact run (ctx := .vectors) (by rw [nextTurn, hp]) h
  case header =>
    intro a hp h
    exact run (ctx := .header) (by rw [nextTurn, hp]) h
  case edgeA =>
    rintro g stage hp (rfl | rfl) h
    all_goals exact run (ctx := .edges) (by rw [nextTurn, hp]) h
  case edgeB =>
    rintro g stage hp (rfl | rfl) h
    all_goals exact run (ctx := .edges) (by rw [nextTurn, hp]) h
  case row =>
    intro g hp
    rw [step_of_pass hq, passStep, nextTurn, hp]

/-- Settles O29, by the turn at the cap. -/
theorem walkerStopsAtCap : Obligations.WalkerStopsAtCap := by
  intro s q hq hp hcap
  rw [step_of_pass hq, passStep, nextTurn_at_cap hp hcap]
  rfl

/-! ### TRIGGER_RUN between passes -/

theorem exec_triggerRun_of_bufsel_none {s : State} (hidle : s.pass = none) (hv : s.bufsel = none) :
    exec .triggerRun s = .next (s.raise .bufselUnset) := by
  change hostOp s _ = _
  rw [hostOp_idle _ hidle, hv]

theorem exec_triggerRun_of_bufsel {s : State} {v : BitVec 1} (hidle : s.pass = none) (hv : s.bufsel = some v) :
    exec .triggerRun s = runPass params (passSteps params) (s.setPass (some (Pass.start params s v))) := by
  change hostOp s _ = _
  rw [hostOp_idle _ hidle, hv]

/-- Between passes a fault changes the fault set alone (R270). -/
theorem State.raise_of_idle {s : State} (hidle : s.pass = none) (f : Fault) :
    s.raise f = { s with faults := addFault s.faults f } := by
  rw [State.raise, ← hidle]

theorem State.setPass_self {s : State} {p : Option Pass} (h : s.pass = p) : s.setPass p = s := by
  rw [State.setPass, ← h]

/-- Settles O30, by the fault that TRIGGER_RUN raises between passes. -/
theorem triggerNeedsBufsel : Obligations.TriggerNeedsBufsel := by
  intro s hidle hv
  rw [exec_triggerRun_of_bufsel_none hidle hv, State.raise_of_idle hidle]

end Sys2Proof.Machine
end

section
/-! SUPPORT. One step of a pass, list by list, in the words of the pseudocode: the next record is drawn, or the list
ends (R120, R140, R160, R165). -/

namespace Sys2Proof.Machine

open Sys2Proof.Laws

@[simp] theorem params_cmdWords : params.cmdWords = 2048 := rfl

/-! ### Words of the snapshot -/

/-- A record has a word (R70). -/
theorem context_words_pos (ctx : Context) : 0 < ctx.words := by
  cases ctx <;> decide

/-- Below the bound all the words asked for are read (R52). -/
theorem snapWords_of_le {P : Params} (q : Pass) {n p : Nat} (h : p + n ≤ P.cmdWords) :
    snapWords P q n p = (List.range' p n).map (snapWord q.snap) := by
  induction n generalizing p with
  | zero => rfl
  | succ n ih =>
    have hp : p < P.cmdWords := by omega
    rw [snapWords, if_pos hp, ih (by omega)]
    rfl

/-- A record that fits below the bound is decoded from the snapshot's words at its pointer (R53). -/
theorem readRecord_of_words {P : Params} {q : Pass} {ctx : Context} {p : Nat} {i : Instr} {rest : List Word}
    (hfits : p + ctx.words ≤ P.cmdWords)
    (h : decode ctx ((List.range' p ctx.words).map (snapWord q.snap)) = .ok (i, rest)) :
    readRecord P q ctx p = .record i :=
  readRecord_of_decode (by rw [snapWords_of_le q hfits, h])

/-! ### Point and vector lists -/

/-- What tells a point list from a vector list: the records' format, the phase that reads it, and the colour and pixels
of the record at a pointer (R120, R122, R140, R142). -/
structure DrawList where
  ctx : Context
  phase : Nat → Phase
  color : Store Word → Nat → BitVec 6
  pixels : Store Word → Nat → List (Int × Int)

/-- A point list: a pair is one pixel (R120, R122). -/
def DrawList.points : DrawList where
  ctx := .points
  phase := .points
  color S p := wordColor (snapWord S (p + 1))
  pixels S p := [(pixel params (snapWord S p), pixel params (snapWord S (p + 1)))]

/-- A vector list: a record is the pixels of a segment (R140, R142). -/
def DrawList.vectors : DrawList where
  ctx := .vectors
  phase := .vectors
  color S p := wordColor (snapWord S (p + 1))
  pixels S p := segmentPixels params (snapWord S p) (snapWord S (p + 1)) (snapWord S (p + 2)) (snapWord S (p + 3))

/-- The list goes on at p: the record fits below the bound and is not the terminator (R53, R121, R141). -/
abbrev DrawList.GoesOn (L : DrawList) (S : Store Word) (p : Nat) : Prop :=
  p + L.ctx.words ≤ 2048 ∧ snapWord S p ≠ 0xFFFF#16

/-- A step of a pass that reads the list draws the record at p, or ends the object. -/
def DrawList.Steps (L : DrawList) : Prop :=
  ∀ (s : State) (q : Pass) (p : Nat), s.pass = some q → q.phase = L.phase p →
    step s = .next (if L.GoesOn q.snap p then
      drawThen params s q (L.color q.snap p) (fun _ => L.pixels q.snap p) (L.phase (p + L.ctx.words))
    else endObject s q)

/-- Where the list does not go on, the bound or the terminator ends the object (R53). -/
theorem step_list_end {s : State} {q : Pass} {ctx : Context} {p : Nat} {i : Instr} (hq : s.pass = some q)
    (hturn : nextTurn params q = readRecord params q ctx p) (hterm : isWordTerminator i = true)
    (hend : ¬(p + ctx.words ≤ 2048 ∧ snapWord q.snap p ≠ 0xFFFF#16))
    (hread : p < 2048 → snapWord q.snap p = 0xFFFF#16 → readRecord params q ctx p = .record i) :
    step s = .next (endObject s q) := by
  by_cases hfits : p + ctx.words ≤ 2048
  · have hlt : p < 2048 := by have := context_words_pos ctx; omega
    have hw : snapWord q.snap p = 0xFFFF#16 := by simpa [hfits] using hend
    exact step_of_wordTerminator hq (hturn.trans (hread hlt hw)) hterm
  · exact step_at_bound hq hturn (Nat.lt_of_not_le hfits)

/-- The point engine's steps (R120 to R122). -/
theorem DrawList.steps_points : DrawList.points.Steps := by
  intro s q p hq hp
  have hturn : nextTurn params q = readRecord params q .points p := by rw [nextTurn, hp]; rfl
  split
  · next hmore =>
    obtain ⟨hfits, hw⟩ := hmore
    have hread : readRecord params q .points p = .record _ :=
      readRecord_of_words hfits (decode_points_of_ne_ones hw (snapWord q.snap (p + 1)) [])
    rw [step_of_record hq (hturn.trans hread)]
    exact inPoints_eq _ hq hp
  · next hend => exact step_list_end hq hturn (i := .ptEnd) rfl hend (readRecord_points_terminator (P := params))

/-- The line renderer's steps (R140 to R142). -/
theorem DrawList.steps_vectors : DrawList.vectors.Steps := by
  intro s q p hq hp
  have hturn : nextTurn params q = readRecord params q .vectors p := by rw [nextTurn, hp]; rfl
  split
  · next hmore =>
    obtain ⟨hfits, hw⟩ := hmore
    have hread : readRecord params q .vectors p = .record _ :=
      readRecord_of_words hfits (decode_vectors_of_ne_ones hw (snapWord q.snap (p + 1)) (snapWord q.snap (p + 2))
        (snapWord q.snap (p + 3)) [])
    rw [step_of_record hq (hturn.trans hread)]
    exact inVectors_eq _ hq hp
  · next hend => exact step_list_end hq hturn (i := .vecEnd) rfl hend (readRecord_vectors_terminator (P := params))

/-! ### Polygons -/

/-- The polygon that the header at a starts (R160, R161). -/
def headerPoly (S : Store Word) (a : Nat) : Poly :=
  Poly.start params a (wordAddr (snapWord S a)) (snapWord S (a + 1)) (snapWord S (a + 2)) (snapWord S (a + 3))

theorem step_header {s : State} {q : Pass} {a : Nat} (hq : s.pass = some q) (hp : q.phase = .header a)
    (hfits : a + 3 < 2048) :
    step s = .next (s.setPass (some { q with phase := .polygon (headerPoly q.snap a) .firstA })) := by
  have hread : readRecord params q .header a = .record _ := readRecord_of_words (ctx := .header) hfits rfl
  rw [step_of_record hq (by rw [nextTurn, hp]; exact hread)]
  exact polyHeader_eq _ _ _ _ hq hp

theorem step_header_end {s : State} {q : Pass} {a : Nat} (hq : s.pass = some q) (hp : q.phase = .header a)
    (hend : ¬a + 3 < 2048) : step s = .next (endObject s q) :=
  step_at_bound (ctx := .header) (p := a) hq (by rw [nextTurn, hp]) (Nat.lt_succ_of_le (Nat.not_lt.1 hend))

/-- The edge that pulls at a stage of the polygon loop (R160, R168). -/
def Poly.pulling (g : Poly) : PolyPhase → Edge
  | .firstA => g.a
  | .pullA => g.a
  | .firstB => g.b
  | .pullB => g.b
  | .row => g.b

theorem nextTurn_pull {P : Params} {q : Pass} {g : Poly} {stage : PolyPhase} (hp : q.phase = .polygon g stage)
    (hr : stage ≠ .row) : nextTurn P q = readRecord P q .edges (g.pulling stage).ptr := by
  rw [nextTurn, hp]
  cases stage
  case row => exact absurd rfl hr
  all_goals rfl

/-- A pull that ends the list ends the polygon (R165, R166). -/
theorem step_pull_none {s : State} {q : Pass} {g : Poly} {stage : PolyPhase} (hq : s.pass = some q)
    (hp : q.phase = .polygon g stage) (hr : stage ≠ .row) (h : pull params q.snap (g.pulling stage) = none) :
    step s = .next (endObject s q) := by
  have hturn := nextTurn_pull (P := params) hp hr
  unfold pull at h
  split at h
  · next hend => exact step_at_bound hq hturn (Nat.lt_succ_of_le (Nat.not_lt.1 hend))
  · next hfits =>
    split at h
    · next hpair =>
      have hread : readRecord params q .edges (g.pulling stage).ptr = .record .edgeEnd :=
        readRecord_of_words (ctx := .edges) (rest := []) (not_not.1 hfits) (if_pos hpair)
      rw [step_of_record hq (hturn.trans hread)]
      exact inPull_eq _ hq hp hr
    · cases h

/-- A pull that succeeds loads the edge, and the polygon goes on as the stage says (R165, R167). -/
theorem step_pull_some {s : State} {q : Pass} {g : Poly} {stage : PolyPhase} {e : Edge} (hq : s.pass = some q)
    (hp : q.phase = .polygon g stage) (hr : stage ≠ .row) (h : pull params q.snap (g.pulling stage) = some e) :
    ∃ slope endY, e = (g.pulling stage).load slope endY ∧
      step s = .next (s.setPass (some { q with phase := afterPull params g slope endY stage })) := by
  unfold pull at h
  split at h
  · cases h
  · next hfits =>
    split at h
    · cases h
    · next hpair =>
      cases h
      have hread := readRecord_of_words (ctx := .edges) (not_not.1 hfits) (decode_edges_of_ne_ones hpair [])
      refine ⟨_, _, rfl, ?_⟩
      rw [step_of_record hq ((nextTurn_pull hp hr).trans hread)]
      exact inPull_eq _ hq hp hr

theorem step_row {s : State} {q : Pass} {g : Poly} (hq : s.pass = some q) (hp : q.phase = .polygon g .row) :
    step s = .next (fillRow params s q g) := by
  rw [step_of_pass hq, passStep, nextTurn, hp]

/-! ### The object table -/

/-- Below the cap the word at the walker index is executed as an entry (R101). -/
theorem step_table {s : State} {q : Pass} (hq : s.pass = some q) (hp : q.phase = .table)
    (hcap : q.i < Config.walkerCap) : step s = exec (decodeEntry (snapWord q.snap q.i)) s := by
  have hread : readRecord params q .table q.i = .record _ :=
    readRecord_of_words (ctx := .table) (Nat.lt_succ_of_lt hcap) rfl
  exact step_of_record hq (nextTurn_table hp hcap hread)

theorem step_table_terminator {s : State} {q : Pass} (hq : s.pass = some q) (hp : q.phase = .table)
    (hcap : q.i < Config.walkerCap) (hw : snapWord q.snap q.i = 0xFFFF#16) : step s = .next (s.setPass none) := by
  rw [step_table hq hp hcap, hw]
  exact inTable_eq _ hq hp

/-- An entry other than the terminator acts by its type field (R82, R104). -/
theorem step_table_entry {s : State} {q : Pass} (hq : s.pass = some q) (hp : q.phase = .table)
    (hcap : q.i < Config.walkerCap) (hw : snapWord q.snap q.i ≠ 0xFFFF#16) :
    step s =
      let w := snapWord q.snap q.i
      if entryType w = 0x8#4 then .next (s.setPass (some { q with phase := .points (wordAddr w).toNat }))
      else if entryType w = 0x4#4 then .next (s.setPass (some { q with phase := .header (wordAddr w).toNat }))
      else if entryType w = 0xC#4 then .next (s.setPass (some { q with phase := .vectors (wordAddr w).toNat }))
      else .next (s.raise (.reservedObjectType q.i w)) := by
  rw [step_table hq hp hcap, decodeEntry_of_ne_ones hw, exec_record (context_entryOfType ..), recordEffect_entryOfType]
  simp only [startObject_eq hq hp, reservedObject_of_fault (P := params) rfl hq hp, entryWord_fields]

end Sys2Proof.Machine
end

section
/-! SUPPORT. A whole pass from its steps: how many steps an object takes and what it leaves in the draw target, which is
what the pseudocode of its list leaves (R100 to R110, R172). -/

namespace Sys2Proof.Machine

/-! ### Several steps of a pass -/

/-- At most n steps of the pass in progress lead from s to t. -/
def ReachesWithin (n : Nat) (s t : State) : Prop := ∃ k ≤ n, ∀ m, runPass params (k + m) s = runPass params m t

theorem ReachesWithin.refl (n : Nat) (s : State) : ReachesWithin n s s :=
  ⟨0, Nat.zero_le n, fun m => by rw [Nat.zero_add]⟩

theorem ReachesWithin.trans {a b : Nat} {s t u : State} (hst : ReachesWithin a s t) (htu : ReachesWithin b t u) :
    ReachesWithin (a + b) s u := by
  obtain ⟨k, hk, hst⟩ := hst
  obtain ⟨l, hl, htu⟩ := htu
  exact ⟨k + l, Nat.add_le_add hk hl, fun m => by rw [Nat.add_assoc, hst, htu]⟩

theorem ReachesWithin.mono {a b : Nat} {s t : State} (h : ReachesWithin a s t) (hab : a ≤ b) : ReachesWithin b s t := by
  obtain ⟨k, hk, hst⟩ := h
  exact ⟨k, hk.trans hab, hst⟩

theorem runPass_succ_of_step {s t : State} {q : Pass} (hq : s.pass = some q) (h : step s = .next t) (n : Nat) :
    runPass params (n + 1) s = runPass params n t := by
  rw [step_of_pass hq, passStep_exec] at h
  rw [runPass, hq]
  simp only [h]

theorem ReachesWithin.of_step {s t : State} {q : Pass} (hq : s.pass = some q) (h : step s = .next t) :
    ReachesWithin 1 s t :=
  ⟨1, le_rfl, fun m => by rw [Nat.add_comm, runPass_succ_of_step hq h]⟩

/-- A first step and n more. -/
theorem ReachesWithin.head {n : Nat} {s t u : State} {q : Pass} (hq : s.pass = some q) (h : step s = .next t)
    (htu : ReachesWithin n t u) : ReachesWithin (n + 1) s u :=
  ((of_step hq h).trans htu).mono (Nat.add_comm 1 n).le

theorem runPass_of_idle (n : Nat) {s : State} (hidle : s.pass = none) : runPass params n s = .next s := by
  cases n with
  | zero => rfl
  | succ n => rw [runPass, hidle]

/-- A pass that ends within the bound of its steps leaves the state where it ends. -/
theorem ReachesWithin.runPass {n : Nat} {s t : State} (h : ReachesWithin n s t) (hidle : t.pass = none) :
    runPass params n s = .next t := by
  obtain ⟨k, hk, hst⟩ := h
  rw [← Nat.add_sub_cancel' hk, hst, runPass_of_idle _ hidle]

/-! ### Drawing in a pass -/

@[simp] theorem State.setBuf_setBuf (s : State) (b : BitVec 1) (c d : Canvas) :
    (s.setBuf b c).setBuf b d = s.setBuf b d := by
  rcases index_cases b with rfl | rfl <;> rfl

@[simp] theorem State.setBuf_setPass (s : State) (p : Option Pass) (b : BitVec 1) (c : Canvas) :
    (s.setPass p).setBuf b c = (s.setBuf b c).setPass p := by
  rcases index_cases b with rfl | rfl <;> rfl

@[simp] theorem State.setPass_setPass (s : State) (p p' : Option Pass) : (s.setPass p).setPass p' = s.setPass p' := rfl

@[simp] theorem State.raise_setPass (s : State) (p : Option Pass) (f : Fault) : (s.setPass p).raise f = s.raise f := rfl

@[simp] theorem endObject_setPass (s : State) (p : Option Pass) (q : Pass) :
    endObject (s.setPass p) q = endObject s q := rfl

@[simp] theorem endObject_phase (s : State) (q : Pass) (ph : Phase) :
    endObject s { q with phase := ph } = endObject s q := rfl

/-- The state inside an object of the pass q whose draw target holds buf. -/
def inObject (s : State) (q : Pass) (buf : Canvas) (ph : Phase) : State :=
  (s.setBuf q.target buf).setPass (some { q with phase := ph })

/-- The state after an object of the pass q that leaves buf in the draw target (R101, R104). -/
def objectDrawn (s : State) (q : Pass) (buf : Canvas) : State := endObject (s.setBuf q.target buf) q

@[simp] theorem inObject_clip (s : State) (q : Pass) (buf : Canvas) (ph : Phase) :
    (inObject s q buf ph).clip = s.clip := State.setBuf_clip ..

@[simp] theorem inObject_buf (s : State) (q : Pass) (buf : Canvas) (ph : Phase) :
    (inObject s q buf ph).buf q.target = buf := State.setBuf_buf_same ..

theorem objectDrawn_self (s : State) (q : Pass) : objectDrawn s q (s.buf q.target) = endObject s q := by
  rw [objectDrawn, State.setBuf_self]

/-- What an object draws replaces what it drew before. -/
@[simp] theorem objectDrawn_inObject (s : State) (q : Pass) (buf buf' : Canvas) (ph ph' : Phase) :
    objectDrawn (inObject s q buf ph) { q with phase := ph' } buf' = objectDrawn s q buf' := by
  simp [objectDrawn, inObject]

@[simp] theorem objectDrawn_setPass (s : State) (q : Pass) (p : Option Pass) (buf : Canvas) (ph : Phase) :
    objectDrawn (s.setPass p) { q with phase := ph } buf = objectDrawn s q buf := by
  simp [objectDrawn]

theorem drawThen_of_clip {P : Params} {s : State} {c : Clip} (hc : s.clip = some c) (q : Pass) (k : BitVec 6)
    (l : Clip → List (Int × Int)) (next : Phase) :
    drawThen P s q k l next = inObject s q ((s.buf q.target).plots P c k (l c)) next := by
  rw [drawThen, hc]
  rfl

/-! ### Point and vector lists -/

/-- The loop that `PointList` and `VectorList` have in common (R120, R140). -/
def DrawList.rounds (L : DrawList) (S : Store Word) (c : Clip) : Nat → Nat → Canvas → Canvas
  | 0, _, buf => buf
  | n + 1, p, buf =>
    if L.GoesOn S p then L.rounds S c n (p + L.ctx.words) (buf.plots params c (L.color S p) (L.pixels S p)) else buf

/-- The three guards of a round of the pseudocode: none holds when the list goes on (R53, R121, R141). -/
theorem ite_guards {α : Type} (m p k : Nat) (w : Word) (done more : α) :
    (if ¬p < m then done else if w = 0xFFFF#16 then done else if ¬p + k < m then done else more) =
      if p + (k + 1) ≤ m ∧ w ≠ 0xFFFF#16 then more else done := by
  by_cases hw : w = 0xFFFF#16
  · simp [hw]
  · by_cases hfits : p + (k + 1) ≤ m
    · have hp : p < m ∧ p + k < m := by omega
      simp [hw, hfits, hp]
    · have hk : ¬p + k < m := by omega
      simp [hw, hfits, hk]

theorem pointList_eq_rounds (S : Store Word) (c : Clip) (n p : Nat) (buf : Canvas) :
    pointList params S c n p buf = DrawList.points.rounds S c n p buf := by
  induction n generalizing p buf with
  | zero => rfl
  | succ n ih =>
    rw [pointList, DrawList.rounds, ← ih]
    exact ite_guards ..

theorem vectorList_eq_rounds (S : Store Word) (c : Clip) (n p : Nat) (buf : Canvas) :
    vectorList params S c n p buf = DrawList.vectors.rounds S c n p buf := by
  induction n generalizing p buf with
  | zero => rfl
  | succ n ih =>
    rw [vectorList, DrawList.rounds, ← ih]
    exact ite_guards ..

/-- The steps of a list draw what its loop draws; there are at most as many as words from p on, and one more (R110). -/
theorem DrawList.reaches_rounds {L : DrawList} (hL : L.Steps) {s : State} {q : Pass} {c : Clip} {n p : Nat}
    (hq : s.pass = some q) (hp : q.phase = L.phase p) (hc : s.clip = some c) (hn : 2048 - p < n) :
    ReachesWithin (2048 - p + 1) s (objectDrawn s q (L.rounds q.snap c n p (s.buf q.target))) := by
  induction n generalizing s q p with
  | zero => omega
  | succ n ih =>
    have hstep := hL s q p hq hp
    rw [DrawList.rounds]
    split at hstep
    · next hmore =>
      have hwords := context_words_pos L.ctx
      have hfits := hmore.1
      rw [drawThen_of_clip hc] at hstep
      rw [if_pos hmore]
      generalize Canvas.plots params c _ _ _ = drawn at hstep ⊢
      have hrest := ih (s := inObject s q drawn (L.phase (p + L.ctx.words))) rfl rfl (by simpa using hc) (by omega)
      exact (ReachesWithin.head hq hstep (by simpa using hrest)).mono (by omega)
    · next hend =>
      rw [if_neg hend, objectDrawn_self]
      exact (ReachesWithin.of_step hq hstep).mono (by omega)

end Sys2Proof.Machine
end

section
/-! SUPPORT. The polygon engine between its row fills: the pulls before the first row, the edge steps after a row, and
the rows that are left (R160 to R172). -/

namespace Sys2Proof.Machine

/-! ### From row to row -/

/-- The polygon at its first row, after the first pull of each edge; none when a list ends (R160). -/
def firstRow (S : Store Word) (a : Nat) : Option Poly :=
  if a + 3 < 2048 then
    (pull params S (headerPoly S a).a).bind fun ea =>
      (pull params S (headerPoly S a).b).map fun eb => { headerPoly S a with a := ea, b := eb }
  else none

/-- The polygon at its next row, after the steps of its edges, A before B; none when a list ends (R160, R168). -/
def nextRow (S : Store Word) (g : Poly) : Option Poly :=
  (edgeStep params S g.a (g.y + 1)).bind fun ea =>
    (edgeStep params S g.b (g.y + 1)).map fun eb => { g with y := g.y + 1, a := ea, b := eb }

/-- The loop of `Polygon` from a polygon that stands before a row (R160, R169). -/
def fillRows (S : Store Word) (c : Clip) (n : Nat) (g : Poly) (buf : Canvas) : Canvas :=
  polygonRows params S c g.color n g.y g.a g.b buf

/-- The pixels that filling the polygon's row leaves (R169). -/
def drawRow (c : Clip) (g : Poly) (buf : Canvas) : Canvas :=
  buf.plots params c g.color (rowPixels params c g.y g.a.x g.b.x)

/-- A round of the loop fills a row and goes on at the next one (R160). -/
theorem fillRows_succ (S : Store Word) (c : Clip) (n : Nat) (g : Poly) (buf : Canvas) :
    fillRows S c (n + 1) g buf =
      (nextRow S g).elim (drawRow c g buf) fun g' => fillRows S c n g' (drawRow c g buf) := by
  rw [fillRows, polygonRows, nextRow]
  cases edgeStep params S g.a (g.y + 1) with
  | none => rfl
  | some ea => cases edgeStep params S g.b (g.y + 1) <;> rfl

/-- `Polygon` is its first row's loop (R160, R161). -/
theorem polygonFill_eq (S : Store Word) (c : Clip) (n a : Nat) (buf : Canvas) :
    polygonFill params S c n a buf = (firstRow S a).elim buf fun g => fillRows S c n g buf := by
  rw [polygonFill, firstRow, params_cmdWords]
  by_cases hfits : a + 3 < 2048
  · rw [if_neg (not_not.2 hfits), if_pos hfits, headerPoly]
    simp only
    cases pull params S _ with
    | none => rfl
    | some ea => cases pull params S _ <;> rfl
  · rw [if_pos hfits, if_neg hfits]
    rfl

/-! ### The steps between rows -/

/-- A polygon before a row, or the object's end. -/
def rowOrEnd (s : State) (q : Pass) : Option Poly → State
  | some g => s.setPass (some { q with phase := .polygon g .row })
  | none => endObject s q

@[simp] theorem rowOrEnd_setPass (s : State) (q : Pass) (p : Option Pass) (ph : Phase) (o : Option Poly) :
    rowOrEnd (s.setPass p) { q with phase := ph } o = rowOrEnd s q o := by
  cases o <;> rfl

/-- The pass at another phase. -/
abbrev Pass.inPhase (q : Pass) (ph : Phase) : Pass := { q with phase := ph }

/-- A first step that changes the phase, and n more. -/
theorem ReachesWithin.head_phase {n : Nat} {s : State} {q : Pass} {ph : Phase} {o : Option Poly} (hq : s.pass = some q)
    (hstep : step s = .next (s.setPass (some (q.inPhase ph))))
    (h : ReachesWithin n (s.setPass (some (q.inPhase ph)))
      (rowOrEnd (s.setPass (some (q.inPhase ph))) (q.inPhase ph) o)) :
    ReachesWithin (n + 1) s (rowOrEnd s q o) := by
  rw [rowOrEnd_setPass] at h
  exact head hq hstep h

/-- A pull ends the polygon, or the polygon goes on with the loaded edge (R165). -/
theorem ReachesWithin.pull {n : Nat} {s : State} {q : Pass} {g : Poly} {stage : PolyPhase} {next : Edge → Option Poly}
    (hq : s.pass = some q) (hp : q.phase = .polygon g stage) (hr : stage ≠ .row)
    (h : ∀ slope endY, ReachesWithin n (s.setPass (some (q.inPhase (afterPull params g slope endY stage))))
      (rowOrEnd (s.setPass (some (q.inPhase (afterPull params g slope endY stage))))
        (q.inPhase (afterPull params g slope endY stage)) (next ((g.pulling stage).load slope endY)))) :
    ReachesWithin (n + 1) s (rowOrEnd s q ((Machine.pull params q.snap (g.pulling stage)).bind next)) := by
  cases hpull : Machine.pull params q.snap (g.pulling stage) with
  | none => exact (of_step hq (step_pull_none hq hp hr hpull)).mono (by omega)
  | some e =>
    obtain ⟨slope, endY, rfl, hstep⟩ := step_pull_some hq hp hr hpull
    exact head_phase hq hstep (h slope endY)

/-- From the step of edge B at most one step leads to the row or the end (R168). -/
theorem reaches_stepB {s : State} {q : Pass} {g : Poly} (hq : s.pass = some q) (hp : q.phase = stepB params g) :
    ReachesWithin 1 s (rowOrEnd s q ((edgeStep params q.snap g.b g.y).map fun eb => { g with b := eb })) := by
  rw [stepB] at hp
  rw [edgeStep, Option.map_eq_bind]
  split at hp
  · next hended =>
    rw [if_pos hended]
    exact .pull hq hp nofun fun slope endY => .refl 0 _
  · next hended =>
    rw [if_neg hended]
    have hsame : rowOrEnd s q (some { g with b := g.b.advance }) = s := by
      rw [rowOrEnd, ← hp]
      exact State.setPass_self hq
    exact hsame ▸ .refl 1 s

/-- From the steps of the edges at most two steps lead to the next row or the end (R168). -/
theorem reaches_nextRow {s : State} {q : Pass} {g : Poly} (hq : s.pass = some q)
    (hp : q.phase = stepA params { g with y := g.y + 1 }) :
    ReachesWithin 2 s (rowOrEnd s q (nextRow q.snap g)) := by
  rw [stepA] at hp
  rw [nextRow, edgeStep]
  split at hp
  · next hended =>
    rw [if_pos hended]
    refine .pull (g := { g with y := g.y + 1 }) hq hp nofun fun slope endY => ?_
    exact reaches_stepB (g := { g with y := g.y + 1, a := g.a.load slope endY }) rfl rfl
  · next hended =>
    rw [if_neg hended]
    exact (reaches_stepB hq hp).mono (by omega)

/-- From a header at most three steps lead to the first row or the end (R160). -/
theorem reaches_firstRow {s : State} {q : Pass} {a : Nat} (hq : s.pass = some q) (hp : q.phase = .header a) :
    ReachesWithin 3 s (rowOrEnd s q (firstRow q.snap a)) := by
  rw [firstRow]
  split
  · next hfits =>
    refine .head_phase hq (step_header hq hp hfits) ?_
    refine .pull (g := headerPoly q.snap a) (stage := .firstA) rfl rfl nofun fun slope endY => ?_
    rw [Option.map_eq_bind]
    exact .pull (g := { headerPoly q.snap a with a := (headerPoly q.snap a).a.load slope endY }) (stage := .firstB)
      rfl rfl nofun fun slope' endY' => .refl 0 _
  · next hfits => exact (ReachesWithin.of_step hq (step_header_end hq hp hfits)).mono (by omega)

/-! ### The rows that are left -/

/-- A bound on the rows of a polygon from the one it stands before: one for each row down to 383, one more for each pair
that edge A can still pull, and the last one (R172). -/
def Poly.rowsLeft (g : Poly) : Nat := (384 - g.y).toNat + (2048 - g.a.ptr) / 2 + 1

/-- A successful pull finds a pair below the bound and moves the pointer past it (R165). -/
theorem pull_ptr {S : Store Word} {e e' : Edge} (h : pull params S e = some e') :
    e.ptr + 1 < 2048 ∧ e'.ptr = e.ptr + 2 := by
  unfold pull at h
  split at h
  · cases h
  · next hfits =>
    split at h
    · cases h
    · cases h
      exact ⟨not_not.1 hfits, rfl⟩

/-- An edge that has not ended has a terminal row at or below the running one, and no row is past 383 (R14, R168). -/
theorem le_of_not_ended {e : Edge} {y : Int} (h : ¬e.ended params y = true) : y ≤ 383 := by
  obtain ⟨ptr, x, _ | g⟩ := e
  · exact absurd rfl h
  · rw [Edge.ended_some, decide_eq_true_eq, not_lt] at h
    exact h.trans (pixel_range_of_unsigned rfl g.endY).2

/-- Each row uses up a row or a pair of edge A: past row 383 edge A has to pull (R168, R172). -/
theorem rowsLeft_nextRow {S : Store Word} {g g' : Poly} (h : nextRow S g = some g') : g'.rowsLeft < g.rowsLeft := by
  obtain ⟨ea, hea, h⟩ := Option.bind_eq_some_iff.1 h
  obtain ⟨eb, -, rfl⟩ := Option.map_eq_some_iff.1 h
  simp only [Poly.rowsLeft]
  rw [edgeStep] at hea
  split at hea
  · obtain ⟨hfits, hptr⟩ := pull_ptr hea
    omega
  · next hended =>
    have hy := le_of_not_ended hended
    cases hea
    rw [Edge.advance_ptr]
    omega

/-- A first row lies in the rows of pixels, and edge A has pulled past the header once (R14, R160). -/
theorem rowsLeft_firstRow {S : Store Word} {a : Nat} {g : Poly} (h : firstRow S a = some g) : g.rowsLeft ≤ 1534 := by
  rw [firstRow] at h
  split at h
  · obtain ⟨ea, hea, h⟩ := Option.bind_eq_some_iff.1 h
    obtain ⟨eb, -, rfl⟩ := Option.map_eq_some_iff.1 h
    obtain ⟨-, hptr⟩ := pull_ptr hea
    have hstart : (headerPoly S a).a.ptr = a + 4 := rfl
    have hy : -128 ≤ (headerPoly S a).y := (pixel_range_of_unsigned rfl _).1
    simp only [Poly.rowsLeft]
    omega
  · cases h

/-- The steps from a row on fill the rows that the loop fills, at most three steps a row (R160, R172). -/
theorem reaches_fillRows {s : State} {q : Pass} {g : Poly} {c : Clip} {n : Nat} (hq : s.pass = some q)
    (hp : q.phase = .polygon g .row) (hc : s.clip = some c) (hn : g.rowsLeft ≤ n) :
    ReachesWithin (3 * g.rowsLeft) s (objectDrawn s q (fillRows q.snap c n g (s.buf q.target))) := by
  induction n generalizing s q g with
  | zero => exact absurd hn (Nat.not_succ_le_zero _)
  | succ n ih =>
    have hstep := step_row hq hp
    rw [fillRow, drawThen_of_clip hc] at hstep
    rw [fillRows_succ, drawRow]
    generalize Canvas.plots params c _ _ _ = drawn at hstep ⊢
    have hnext := reaches_nextRow (s := inObject s q drawn _) (g := g) rfl rfl
    cases hrow : nextRow q.snap g with
    | none =>
      rw [hrow] at hnext
      exact (ReachesWithin.head hq hstep hnext).mono (by unfold Poly.rowsLeft; omega)
    | some g' =>
      rw [hrow] at hnext
      have hless := rowsLeft_nextRow hrow
      have hrest := ih (s := inObject s q drawn (.polygon g' .row)) rfl rfl (by simpa using hc) (by omega)
      rw [inObject_buf, objectDrawn_inObject] at hrest
      exact (ReachesWithin.head hq hstep (hnext.trans hrest)).mono (by omega)

end Sys2Proof.Machine
end

section
/-! SUPPORT. The walk from its objects, and TRIGGER_RUN as the whole pass of the pseudocode (R100 to R110). -/

namespace Sys2Proof.Machine

/-! ### Objects -/

theorem params_objectSteps : objectSteps params = 5120 := rfl

/-- The polygon engine draws what `Polygon` draws (R160, R172). -/
theorem reaches_polygonFill {s : State} {q : Pass} {c : Clip} {n a : Nat} (hq : s.pass = some q)
    (hp : q.phase = .header a) (hc : s.clip = some c) (hn : 1534 ≤ n) :
    ReachesWithin 4605 s (objectDrawn s q (polygonFill params q.snap c n a (s.buf q.target))) := by
  have hfirst := reaches_firstRow hq hp
  rw [polygonFill_eq]
  cases hrow : firstRow q.snap a with
  | none =>
    rw [hrow] at hfirst
    rw [Option.elim_none, objectDrawn_self]
    exact hfirst.mono (by omega)
  | some g =>
    rw [hrow] at hfirst
    have hleft := rowsLeft_firstRow hrow
    have hrest := reaches_fillRows (s := s.setPass (some { q with phase := .polygon g .row })) rfl rfl hc
      (hleft.trans hn)
    rw [objectDrawn_setPass] at hrest
    exact (hfirst.trans hrest).mono (by omega)

/-- The mask 0xF000 leaves a type's bits exactly when the type field is that type (R82). -/
theorem mask_eq_iff (w : Word) (t : BitVec 4) : w &&& 0xF000#16 = t.setWidth 16 <<< 12 ↔ entryType w = t := by
  refine ⟨entryType_of_mask, ?_⟩
  rintro rfl
  ext i hi
  interval_cases i <;> simp [entryType]

/-- `Walk` dispatches by the type field (R82, R104). -/
theorem drawObject_eq (S : Store Word) (c : Clip) (w : Word) (buf : Canvas) :
    drawObject params S c w buf =
      if entryType w = 0x8#4 then some (pointList params S c 5120 (wordAddr w).toNat buf)
      else if entryType w = 0x4#4 then some (polygonFill params S c 5120 (wordAddr w).toNat buf)
      else if entryType w = 0xC#4 then some (vectorList params S c 5120 (wordAddr w).toNat buf)
      else none := by
  have hpoint : w &&& 0xF000#16 = 0x8000#16 ↔ entryType w = 0x8#4 := mask_eq_iff w 0x8#4
  have hpolygon : w &&& 0xF000#16 = 0x4000#16 ↔ entryType w = 0x4#4 := mask_eq_iff w 0x4#4
  have hvector : w &&& 0xF000#16 = 0xC000#16 ↔ entryType w = 0xC#4 := mask_eq_iff w 0xC#4
  simp only [drawObject, hpoint, hpolygon, hvector, params_objectSteps]

/-- An entry of a type that draws takes at most `objectSteps` steps with its list, and leaves what `Walk` draws for it
(R104 to R107, R110). -/
theorem reaches_drawObject {s : State} {q : Pass} {c : Clip} {drawn : Canvas} (hq : s.pass = some q)
    (hp : q.phase = .table) (hc : s.clip = some c) (hcap : q.i < Config.walkerCap)
    (hw : snapWord q.snap q.i ≠ 0xFFFF#16)
    (hdraw : drawObject params q.snap c (snapWord q.snap q.i) (s.buf q.target) = some drawn) :
    ReachesWithin 5120 s (objectDrawn s q drawn) := by
  have hstep := step_table_entry hq hp hcap hw
  rw [drawObject_eq] at hdraw
  generalize snapWord q.snap q.i = w at hstep hdraw
  simp only at hstep
  by_cases hpoint : entryType w = 0x8#4
  · rw [if_pos hpoint] at hstep hdraw
    cases hdraw
    have hlist := DrawList.reaches_rounds DrawList.steps_points (n := 5120)
      (s := s.setPass (some { q with phase := .points (wordAddr w).toNat })) rfl rfl hc (by omega)
    rw [objectDrawn_setPass, ← pointList_eq_rounds] at hlist
    exact (ReachesWithin.head hq hstep hlist).mono (by omega)
  rw [if_neg hpoint] at hstep hdraw
  by_cases hpolygon : entryType w = 0x4#4
  · rw [if_pos hpolygon] at hstep hdraw
    cases hdraw
    have hlist := reaches_polygonFill (n := 5120)
      (s := s.setPass (some { q with phase := .header (wordAddr w).toNat })) rfl rfl hc (by omega)
    rw [objectDrawn_setPass] at hlist
    exact (ReachesWithin.head hq hstep hlist).mono (by omega)
  rw [if_neg hpolygon] at hstep hdraw
  by_cases hvector : entryType w = 0xC#4
  · rw [if_pos hvector] at hstep hdraw
    cases hdraw
    have hlist := DrawList.reaches_rounds DrawList.steps_vectors (n := 5120)
      (s := s.setPass (some { q with phase := .vectors (wordAddr w).toNat })) rfl rfl hc (by omega)
    rw [objectDrawn_setPass, ← vectorList_eq_rounds] at hlist
    exact (ReachesWithin.head hq hstep hlist).mono (by omega)
  · rw [if_neg hvector] at hdraw
    cases hdraw

/-- An entry of a type that does not draw records its fault, which ends the pass (R108, R109). -/
theorem step_table_reserved {s : State} {q : Pass} {c : Clip} {buf : Canvas} (hq : s.pass = some q)
    (hp : q.phase = .table) (hcap : q.i < Config.walkerCap) (hw : snapWord q.snap q.i ≠ 0xFFFF#16)
    (hdraw : drawObject params q.snap c (snapWord q.snap q.i) buf = none) :
    step s = .next (s.raise (.reservedObjectType q.i (snapWord q.snap q.i))) := by
  rw [step_table_entry hq hp hcap hw]
  rw [drawObject_eq] at hdraw
  split_ifs at hdraw with hpoint hpolygon hvector
  simp only [hpoint, hpolygon, hvector, if_false]

/-! ### The walk -/

/-- The state after a pass that `Walk` ends with the draw target and the fault of r (R100, R109). -/
def passEnd (s : State) (q : Pass) (r : Canvas × Option Fault) : State :=
  match r.2 with
  | none => (s.setBuf q.target r.1).setPass none
  | some f => (s.setBuf q.target r.1).raise f

@[simp] theorem passEnd_objectDrawn (s : State) (q : Pass) (buf : Canvas) (r : Canvas × Option Fault) :
    passEnd (objectDrawn s q buf) q.nextEntry r = passEnd s q r := by
  obtain ⟨buf', _ | f⟩ := r <;> simp [passEnd, objectDrawn, endObject, Pass.nextEntry]

theorem passEnd_self (s : State) (q : Pass) : passEnd s q (s.buf q.target, none) = s.setPass none := by
  simp [passEnd]

theorem passEnd_fault (s : State) (q : Pass) (f : Fault) : passEnd s q (s.buf q.target, some f) = s.raise f := by
  simp [passEnd]

@[simp] theorem objectDrawn_buf (s : State) (q : Pass) (buf : Canvas) :
    (objectDrawn s q buf).buf q.nextEntry.target = buf :=
  State.setBuf_buf_same ..

@[simp] theorem objectDrawn_clip (s : State) (q : Pass) (buf : Canvas) : (objectDrawn s q buf).clip = s.clip :=
  State.setBuf_clip ..

/-- The steps from an entry on leave what `Walk` leaves; each entry left takes at most `objectSteps` steps, and one more
ends the pass (R101, R110). -/
theorem reaches_walk {s : State} {q : Pass} {c : Clip} {n : Nat} (hq : s.pass = some q) (hp : q.phase = .table)
    (hc : s.clip = some c) (hn : q.i + n = Config.walkerCap) :
    ReachesWithin (n * 5120 + 1) s (passEnd s q (walk params q.snap c n q.i (s.buf q.target))) := by
  induction n generalizing s q with
  | zero =>
    rw [walk, passEnd_self]
    exact (ReachesWithin.of_step hq (walkerStopsAtCap s q hq hp hn.ge)).mono (by omega)
  | succ n ih =>
    have hcap : q.i < Config.walkerCap := by omega
    have hbound : q.i < params.cmdWords := Nat.lt_succ_of_lt hcap
    rw [walk, if_neg (not_not.2 hbound)]
    by_cases hw : snapWord q.snap q.i = 0xFFFF#16
    · rw [if_pos hw, passEnd_self]
      exact (ReachesWithin.of_step hq (step_table_terminator hq hp hcap hw)).mono (by omega)
    rw [if_neg hw]
    cases hdraw : drawObject params q.snap c (snapWord q.snap q.i) (s.buf q.target) with
    | none =>
      have hstep := step_table_reserved hq hp hcap hw hdraw
      exact (passEnd_fault s q _ ▸ ReachesWithin.of_step hq hstep).mono (by omega)
    | some drawn =>
      have hobject := reaches_drawObject hq hp hc hcap hw hdraw
      have hrest := ih (s := objectDrawn s q drawn) (q := q.nextEntry) rfl rfl (by simpa using hc)
        (by simp only [Pass.nextEntry]; omega)
      rw [objectDrawn_buf, passEnd_objectDrawn] at hrest
      exact (hobject.trans hrest).mono (by omega)

/-! ### TRIGGER_RUN -/

/-- A pass that ends within its bound is what TRIGGER_RUN answers (R12, R100). -/
theorem exec_triggerRun_of_reaches {s t : State} {v : BitVec 1} {n : Nat} (hidle : s.pass = none)
    (hv : s.bufsel = some v) (h : ReachesWithin n (s.setPass (some (Pass.start params s v))) t)
    (hn : n ≤ passSteps params) (ht : t.pass = none) : exec .triggerRun s = .next t := by
  rw [exec_triggerRun_of_bufsel hidle hv]
  exact (h.mono hn).runPass ht

/-- Settles O31: the first step reads the terminator, which ends the pass. -/
theorem emptyTableDrawsNothing : Obligations.EmptyTableDrawsNothing := by
  intro s v hidle hv hw
  have hstep := step_table_terminator (s := s.setPass (some (Pass.start params s v))) rfl rfl (Nat.zero_lt_succ _) hw
  have hrun := exec_triggerRun_of_reaches hidle hv (.of_step rfl hstep) (by decide) rfl
  rwa [State.setPass_setPass, State.setPass_self hidle] at hrun

/-- A whole pass from an idle state is its walk (R100). -/
theorem wholePass_eq {s : State} (hidle : s.pass = none) (v : BitVec 1) (c : Clip) :
    wholePass params s v c = passEnd s (Pass.start params s v)
      (walk params s.cmd c Config.walkerCap 0 (s.buf (drawIndex params v))) := by
  rw [wholePass, passEnd]
  cases (walk params s.cmd c Config.walkerCap 0 (s.buf (drawIndex params v))).2 with
  | none => exact (State.setPass_self (by simpa using hidle)).symm
  | some f => rfl

@[simp] theorem passEnd_pass (s : State) (q : Pass) (r : Canvas × Option Fault) : (passEnd s q r).pass = none := by
  obtain ⟨buf, _ | f⟩ := r <;> rfl

@[simp] theorem passEnd_setPass (s : State) (p : Option Pass) (q : Pass) (r : Canvas × Option Fault) :
    passEnd (s.setPass p) q r = passEnd s q r := by
  obtain ⟨buf, _ | f⟩ := r <;> simp [passEnd]

/-- Settles O33: object by object the steps of the pass leave what the loops of the pseudocode leave. -/
theorem triggerRunIsWalk : Obligations.TriggerRunIsWalk := by
  intro s v c hidle hv hc
  have hwalk := reaches_walk (s := s.setPass (some (Pass.start params s v))) (n := Config.walkerCap) rfl rfl hc rfl
  rw [exec_triggerRun_of_reaches hidle hv hwalk (by decide) (passEnd_pass ..), passEnd_setPass, wholePass_eq hidle]
  rfl

end Sys2Proof.Machine
end

section
/-! SUPPORT. A pass before any SET_CLIP: each object ends, or the first pixel write or row fill ends the pass, in a few
steps. With the clipped pass this says that every pass ends within its operation (R100, R109, R110). -/

namespace Sys2Proof.Machine

/-! ### Objects without a clip rectangle -/

theorem drawThen_of_no_clip {P : Params} {s : State} (hc : s.clip = none) (q : Pass) (k : BitVec 6)
    (l : Clip → List (Int × Int)) (next : Phase) : drawThen P s q k l next = s.raise .clipUnset := by
  rw [drawThen, hc]

/-- What a pass without a clip rectangle can come to from an object on: the object's end, or a fault that ends the pass
(R108, R109). -/
def Unclipped (s ended t : State) : Prop :=
  t = ended ∨ t = s.raise .clipUnset ∨ ∃ i w, t = s.raise (.reservedObjectType i w)

/-- A point or vector list ends, or its first record faults (R191). -/
theorem DrawList.unclipped {L : DrawList} (hL : L.Steps) {s : State} {q : Pass} {p : Nat} (hq : s.pass = some q)
    (hp : q.phase = L.phase p) (hc : s.clip = none) : ∃ t, ReachesWithin 4 s t ∧ Unclipped s (endObject s q) t := by
  have hstep := hL s q p hq hp
  refine ⟨_, (ReachesWithin.of_step hq hstep).mono (by omega), ?_⟩
  split
  · exact .inr (.inl (drawThen_of_no_clip hc ..))
  · exact .inl rfl

/-- A polygon ends before its first row, or that row faults (R169). -/
theorem polygon_unclipped {s : State} {q : Pass} {a : Nat} (hq : s.pass = some q) (hp : q.phase = .header a)
    (hc : s.clip = none) : ∃ t, ReachesWithin 4 s t ∧ Unclipped s (endObject s q) t := by
  have hfirst := reaches_firstRow hq hp
  cases hrow : firstRow q.snap a with
  | none =>
    rw [hrow] at hfirst
    exact ⟨_, hfirst.mono (by omega), .inl rfl⟩
  | some g =>
    rw [hrow] at hfirst
    have hstep := step_row (s := rowOrEnd s q (some g)) rfl rfl
    rw [fillRow, drawThen_of_no_clip (by exact hc)] at hstep
    exact ⟨_, hfirst.trans (.of_step rfl hstep), .inr (.inl rfl)⟩

/-- An entry of the table ends its object, or a fault ends the pass (R104 to R109). -/
theorem entry_unclipped {s : State} {q : Pass} (hq : s.pass = some q) (hp : q.phase = .table) (hc : s.clip = none)
    (hcap : q.i < Config.walkerCap) (hw : snapWord q.snap q.i ≠ 0xFFFF#16) :
    ∃ t, ReachesWithin 5 s t ∧ Unclipped s (endObject s q) t := by
  have hstep := step_table_entry hq hp hcap hw
  simp only at hstep
  have onward {ph : Phase} (hstep : step s = .next (s.setPass (some (q.inPhase ph))))
      (hobject : ∃ t, ReachesWithin 4 (s.setPass (some (q.inPhase ph))) t ∧
        Unclipped (s.setPass (some (q.inPhase ph))) (endObject (s.setPass (some (q.inPhase ph))) (q.inPhase ph)) t) :
      ∃ t, ReachesWithin 5 s t ∧ Unclipped s (endObject s q) t := by
    obtain ⟨t, hrun, ht⟩ := hobject
    exact ⟨t, .head hq hstep hrun, ht⟩
  split_ifs at hstep with hpoint hpolygon hvector
  · exact onward hstep (DrawList.unclipped DrawList.steps_points rfl rfl hc)
  · exact onward hstep (polygon_unclipped rfl rfl hc)
  · exact onward hstep (DrawList.unclipped DrawList.steps_vectors rfl rfl hc)
  · exact ⟨_, (ReachesWithin.of_step hq hstep).mono (by omega), .inr (.inr ⟨_, _, rfl⟩)⟩

/-- A pass without a clip rectangle ends, with nothing changed or with a fault (R101, R109). -/
theorem walk_unclipped {s : State} {q : Pass} {n : Nat} (hq : s.pass = some q) (hp : q.phase = .table)
    (hc : s.clip = none) (hn : q.i + n = Config.walkerCap) :
    ∃ t, ReachesWithin (n * 5 + 1) s t ∧ Unclipped s (s.setPass none) t := by
  induction n generalizing s q with
  | zero => exact ⟨_, .of_step hq (walkerStopsAtCap s q hq hp hn.ge), .inl rfl⟩
  | succ n ih =>
    have hcap : q.i < Config.walkerCap := by omega
    by_cases hw : snapWord q.snap q.i = 0xFFFF#16
    · exact ⟨_, (ReachesWithin.of_step hq (step_table_terminator hq hp hcap hw)).mono (by omega), .inl rfl⟩
    obtain ⟨t, hrun, rfl | hfault⟩ := entry_unclipped hq hp hc hcap hw
    · obtain ⟨u, hrest, hu⟩ := ih (s := endObject s q) (q := q.nextEntry) rfl rfl hc
        (by simp only [Pass.nextEntry]; omega)
      exact ⟨u, (hrun.trans hrest).mono (by omega), hu⟩
    · exact ⟨t, hrun.mono (by omega), .inr hfault⟩

/-! ### TRIGGER_RUN -/

/-- TRIGGER_RUN without a clip rectangle leaves the state, or records a fault (R109, R191). -/
theorem exec_triggerRun_unclipped {s : State} {v : BitVec 1} (hidle : s.pass = none) (hv : s.bufsel = some v)
    (hc : s.clip = none) : ∃ t, exec .triggerRun s = .next t ∧ Unclipped s s t := by
  obtain ⟨t, hrun, ht⟩ := walk_unclipped (s := s.setPass (some (Pass.start params s v))) (n := Config.walkerCap)
    rfl rfl hc rfl
  have hself : (s.setPass (some (Pass.start params s v))).setPass none = s := State.setPass_self hidle
  rw [hself] at ht
  refine ⟨t, exec_triggerRun_of_reaches hidle hv hrun (by decide) ?_, ht⟩
  rcases ht with rfl | rfl | ⟨i, w, rfl⟩
  · exact hidle
  · rfl
  · rfl

/-- Settles O34: without `bufsel` the operation faults at once, and with it the pass changes nothing or faults. -/
theorem unclippedPassWritesNothing : Obligations.UnclippedPassWritesNothing := by
  intro s t hc h
  obtain ⟨hidle, -⟩ := triggerRun_next h
  have hend : t = s ∨ ∃ f, t = s.raise f ∧
      (f = .clipUnset ∨ f = .bufselUnset ∨ ∃ i w, f = .reservedObjectType i w) := by
    rcases Option.eq_none_or_eq_some s.bufsel with hv | ⟨v, hv⟩
    · cases (exec_triggerRun_of_bufsel_none hidle hv).symm.trans h
      exact .inr ⟨_, rfl, .inr (.inl rfl)⟩
    · obtain ⟨u, hu, hend⟩ := exec_triggerRun_unclipped hidle hv hc
      cases hu.symm.trans h
      rcases hend with rfl | rfl | ⟨i, w, rfl⟩
      · exact .inl rfl
      · exact .inr ⟨_, rfl, .inl rfl⟩
      · exact .inr ⟨_, rfl, .inr (.inr ⟨i, w, rfl⟩)⟩
  rcases hend with rfl | ⟨f, rfl, hf⟩
  · exact ⟨rfl, fun g hg => .inl hg⟩
  · refine ⟨State.raise_of_idle hidle f, fun g hg => ?_⟩
    exact (mem_addFault.1 hg).imp_right fun hgf => by rwa [hgf]

theorem displayIndex_ne_drawIndex (v : BitVec 1) : displayIndex params v ≠ drawIndex params v := by
  revert v
  decide

/-- A whole pass keeps the display target (R197). -/
theorem passEnd_buf {s : State} {q : Pass} {b : BitVec 1} (hb : b ≠ q.target) (r : Canvas × Option Fault) :
    (passEnd s q r).buf b = s.buf b := by
  obtain ⟨buf, _ | f⟩ := r <;> exact State.setBuf_buf_other s buf hb

/-- TRIGGER_RUN leaves no pass in progress and keeps the display target, with a clip rectangle or without (R100,
R197). -/
theorem exec_triggerRun_ends {s : State} {v : BitVec 1} (hidle : s.pass = none) (hv : s.bufsel = some v) :
    ∃ t, exec .triggerRun s = .next t ∧ t.pass = none ∧
      t.buf (displayIndex params v) = s.buf (displayIndex params v) := by
  cases hc : s.clip with
  | none =>
    obtain ⟨t, ht, hend⟩ := exec_triggerRun_unclipped hidle hv hc
    refine ⟨t, ht, ?_⟩
    rcases hend with rfl | rfl | ⟨i, w, rfl⟩
    · exact ⟨hidle, rfl⟩
    · exact ⟨rfl, rfl⟩
    · exact ⟨rfl, rfl⟩
  | some c =>
    refine ⟨_, triggerRunIsWalk s v c hidle hv hc, ?_⟩
    rw [wholePass_eq hidle]
    exact ⟨passEnd_pass .., passEnd_buf (displayIndex_ne_drawIndex v) _⟩

/-- The registers that a pass never touches are all but the buffers, the fault set and the pass. -/
theorem SameRegisters.frame {s t : State} (h : SameRegisters s t) (hpass : t.pass = s.pass) :
    t = { s with buf0 := t.buf0, buf1 := t.buf1, faults := t.faults } := by
  cases t
  simp_all [SameRegisters]

/-- Settles O32: the pass ends within its bound, and a pass touches no register. -/
theorem triggerRunCompletes : Obligations.TriggerRunCompletes := by
  intro s v hidle hv
  obtain ⟨t, ht, hpass, hdisplay⟩ := exec_triggerRun_ends hidle hv
  exact ⟨t, ht, hdisplay, (triggerRun_registers ht).frame (hpass.trans hidle.symm)⟩

end Sys2Proof.Machine
end

section
/-! SUPPORT. What a drawing record leaves where a clip rectangle is set: which cells hold its colour, and that the two
buffers and the phase are all that changed (R191, R197). With it the records of a point list, and the terminators. -/

namespace Sys2Proof.Machine

open Sys2Proof.Claims

/-! ### Drawing under a clip rectangle -/

/-- Drawing changes the two buffers and moves the pass to its next phase. -/
theorem drawThen_frame {P : Params} {s : State} {c : Clip} (hc : s.clip = some c) (q : Pass) (k : BitVec 6)
    (l : Clip → List (Int × Int)) (next : Phase) :
    drawThen P s q k l next =
      { s with
        buf0 := (drawThen P s q k l next).buf0
        buf1 := (drawThen P s q k l next).buf1
        pass := some { q with phase := next } } := by
  rw [drawThen_of_clip hc, inObject]
  rcases index_cases q.target with htarget | htarget <;> rw [htarget] <;> rfl

/-- A cell after drawing: the colour where a pixel drawn is the cell's and inside the clip rectangle, which lies on the
canvas (R26, R191); else the cell from before. -/
theorem cell_drawThen {P : Params} {s : State} {c : Clip} (hc : s.clip = some c) (hlegal : c.legal P = true) (q : Pass)
    (k : BitVec 6) (l : Clip → List (Int × Int)) (next : Phase) (b : BitVec 1) (x y : Int) :
    (drawThen P s q k l next).cell P b x y =
      if b = q.target ∧ (x, y) ∈ l c ∧ inside c x y then some (cellValue k) else s.cell P b x y := by
  have hcanvas : c.contains x y = true ∧ (cellAddr P x y).isSome = true ↔ inside c x y :=
    (and_iff_left_of_imp (cellAddr_of_legal hlegal)).trans (c.contains_iff x y)
  calc (drawThen P s q k l next).cell P b x y
      = (s.drawOn P q.target c k (l c)).cell P b x y := by rw [drawThen_of_clip hc]; rfl
    _ = _ := by simp only [State.cell_drawOn, hcanvas]

/-! ### Point lists -/

/-- PT_PAIR draws its one pixel and goes on two words further (R120, R122). -/
theorem exec_ptPair {s : State} {q : Pass} {p : Nat} (hq : s.pass = some q) (hp : q.phase = .points p) (x yc : Word) :
    exec (.ptPair x yc) s =
      .next (drawThen params s q (wordColor yc) (fun _ => [(pixel params x, pixel params yc)]) (.points (p + 2))) :=
  inPoints_eq _ hq hp

/-- Settles O18: the pair draws a list of one pixel, so the cell drawn is that pixel's. -/
theorem pointPairWritesCell : Obligations.PointPairWritesCell := by
  intro s q p c x yc hq hp hc hlegal
  refine ⟨_, exec_ptPair hq hp x yc, drawThen_frame hc .., fun b px py => ?_⟩
  rw [cell_drawThen hc (hlegal c hc), cellValue_wordColor]
  simp only [List.mem_singleton, Prod.mk.injEq, and_assoc]

/-! ### Terminators -/

/-- EDGE_END ends the object whatever edge was to be pulled (R166). -/
theorem exec_edgeEnd {s : State} {q : Pass} {g : Poly} {stage : PolyPhase} (hq : s.pass = some q)
    (hp : q.phase = .polygon g stage) (hpull : stage ≠ .row) : exec .edgeEnd s = .next (endObject s q) :=
  inPull_eq _ hq hp hpull

/-- Settles O17: each terminator ends the object of the list it stands in, and that changes the pass alone. -/
theorem terminatorsEndObject : Obligations.TerminatorsEndObject := by
  intro s q hq after
  refine ⟨fun p hp => ?ptEnd, fun p hp => ?vecEnd, fun g stage hp hpull => ?edgeEnd⟩
  case ptEnd => exact exec_wordTerminator hq (by rw [hp]; rfl) rfl
  case vecEnd => exact exec_wordTerminator hq (by rw [hp]; rfl) rfl
  case edgeEnd => exact exec_edgeEnd hq hp hpull

end Sys2Proof.Machine
end

section
/-! SUPPORT. The line renderer: its scanline count and end X in numbers (R143, R156), the run of pixels that the default
stepper plots (R150, R154), and the cells that a segment of a vector list leaves (R142, R155). -/

namespace Sys2Proof.Machine

/-! ### Scanline count and end X -/

/-- Two raw words differ by less than 2^16 under either reading of `RAW_SIGNED` (R142). -/
theorem rawValue_sub_range (P : Params) (v w : Word) :
    -65535 ≤ rawValue P v - rawValue P w ∧ rawValue P v - rawValue P w ≤ 65535 := by
  cases hsigned : P.rawSigned with
  | false =>
    have hv : v.toNat < 65536 := v.isLt
    have hw : w.toNat < 65536 := w.isLt
    rw [rawValue_of_unsigned hsigned, rawValue_of_unsigned hsigned]
    omega
  | true =>
    have hv : -32768 ≤ v.toInt ∧ v.toInt < 32768 := ⟨BitVec.le_toInt v, BitVec.toInt_lt⟩
    have hw : -32768 ≤ w.toInt ∧ w.toInt < 32768 := ⟨BitVec.le_toInt w, BitVec.toInt_lt⟩
    rw [rawValue_of_signed hsigned, rawValue_of_signed hsigned]
    omega

/-- The pixels of two raw words differ by less than 512 under either reading of `RAW_SIGNED` (R14). -/
theorem pixel_sub_range (P : Params) (v w : Word) :
    -511 ≤ pixel P v - pixel P w ∧ pixel P v - pixel P w ≤ 511 := by
  cases hsigned : P.rawSigned with
  | false =>
    have hv := pixel_range_of_unsigned hsigned v
    have hw := pixel_range_of_unsigned hsigned w
    omega
  | true =>
    have hv := pixel_range_of_signed hsigned v
    have hw := pixel_range_of_signed hsigned w
    omega

theorem lineCount_of_raw {P : Params} (h : P.lineDyMode = .raw) (ey syc : Word) :
    lineCount P ey syc = rawValue P ey - rawValue P syc + 1 := by
  rw [lineCount, h]

theorem lineCount_of_pixel {P : Params} (h : P.lineDyMode = .pixel) (ey syc : Word) :
    lineCount P ey syc = pixel P ey - pixel P syc + 1 := by
  rw [lineCount, h]

/-- Settles O8: in each mode the count is one more than a difference whose range is known. -/
theorem lineCountModes : Obligations.LineCountModes := by
  intro P ey syc
  refine ⟨fun h => ⟨lineCount_of_raw h ey syc, ?_⟩, fun h => ⟨lineCount_of_pixel h ey syc, ?_⟩, rfl⟩
  · have hrange := rawValue_sub_range P ey syc
    rw [lineCount_of_raw h]
    omega
  · have hrange := pixel_sub_range P ey syc
    rw [lineCount_of_pixel h]
    omega

/-- The end X word's number is the exact sum modulo 2^16 (R156). -/
theorem toNat_lineEndX (P : Params) (ey syc slope sx : Word) :
    ((lineEndX P ey syc slope sx).toNat : Int) = (rawValue P sx + slope.toInt * lineCount P ey syc) % 65536 := by
  rw [lineEndX, slopeValue, BitVec.toNat_ofInt]
  exact Int.toNat_of_nonneg (Int.emod_nonneg _ (by decide))

/-- Settles O9, by the end X word's number. -/
theorem lineEndXWraps : Obligations.LineEndXWraps :=
  fun P ey syc slope sx => ⟨toNat_lineEndX P ey syc slope sx, rfl⟩

/-! ### Runs of pixels along an axis -/

/-- A list of r + 1 pixels that ends at `last`, in which the coordinate c goes on from a by s at every pixel. -/
structure RunsAlong (c : Int × Int → Int) (a s : Int) (r : Nat) (last : Int × Int) (pixels : List (Int × Int)) :
    Prop where
  length_eq : pixels.length = r + 1
  getLast_eq : pixels.getLast? = some last
  coord_eq : ∀ (k : Nat) (h : k < pixels.length), c pixels[k] = a + s * k

theorem RunsAlong.singleton (c : Int × Int → Int) (s : Int) (p : Int × Int) : RunsAlong c (c p) s 0 p [p] where
  length_eq := rfl
  getLast_eq := rfl
  coord_eq k h := by
    obtain rfl : k = 0 := Nat.lt_one_iff.mp h
    simp

theorem RunsAlong.cons {c : Int × Int → Int} {s : Int} {r : Nat} {last : Int × Int} {pixels : List (Int × Int)}
    (p : Int × Int) (h : RunsAlong c (c p + s) s r last pixels) : RunsAlong c (c p) s (r + 1) last (p :: pixels) where
  length_eq := by rw [List.length_cons, h.length_eq]
  getLast_eq := by rw [List.getLast?_cons, h.getLast_eq]; rfl
  coord_eq
    | 0, _ => by simp
    | k + 1, hk => by
      rw [List.getElem_cons_succ, h.coord_eq k (Nat.lt_of_succ_lt_succ hk)]
      push_cast
      ring

/-- The run of the first coordinate is that of the second with the axes exchanged. -/
theorem RunsAlong.map_swap {a s : Int} {r : Nat} {last : Int × Int} {pixels : List (Int × Int)}
    (h : RunsAlong Prod.fst a s r last pixels) : RunsAlong Prod.snd a s r last.swap (pixels.map Prod.swap) where
  length_eq := by rw [List.length_map, h.length_eq]
  getLast_eq := by rw [List.getLast?_map, h.getLast_eq]; rfl
  coord_eq k hk := by simpa using h.coord_eq k (by simpa using hk)

/-! ### The default stepper -/

/-- The stepper ends at the end point (R154). -/
theorem bresenhamFrom_at_end (dx dy sx sy x1 y1 err : Int) (n : Nat) :
    bresenhamFrom dx dy sx sy x1 y1 (n + 1) x1 y1 err = [(x1, y1)] := by
  simp [bresenhamFrom]

/-- Exchanging the axes negates the error term and exchanges the two tests of R154. -/
theorem bresenhamFrom_swap (dx dy sx sy x1 y1 : Int) (n : Nat) (x y err : Int) :
    bresenhamFrom (-dy) (-dx) sy sx y1 x1 n y x (-err) =
      (bresenhamFrom dx dy sx sy x1 y1 n x y err).map Prod.swap := by
  induction n generalizing x y err with
  | zero => rfl
  | succ n ih =>
    have hstepY : 2 * -err ≥ -dx ↔ 2 * err ≤ dx := by omega
    have hstepX : 2 * -err ≤ -dy ↔ 2 * err ≥ dy := by omega
    have herr : -err + (if 2 * err ≤ dx then -dx else 0) + (if 2 * err ≥ dy then -dy else 0) =
        -(err + (if 2 * err ≥ dy then dy else 0) + (if 2 * err ≤ dx then dx else 0)) := by
      split <;> split <;> omega
    simp only [bresenhamFrom, decide_eq_true_eq, hstepX, hstepY, herr, ih, and_comm (a := y = y1), List.map_cons,
      apply_ite (List.map Prod.swap), List.map_nil, Prod.swap_prod_mk]

theorem bresenham_swap (x0 y0 x1 y1 : Int) : bresenham y0 x0 y1 x1 = (bresenham x0 y0 x1 y1).map Prod.swap := by
  rw [bresenham, bresenham, ← bresenhamFrom_swap, max_comm, neg_neg, neg_add_rev, neg_neg]

/-- A flat segment with r columns and m rows still to go: the error term says how far the pixel is from the line, and it
stays between the bounds of its first value and of a step in y (R154). -/
structure FlatAhead (dx dy sx sy x1 y1 : Int) (r : Nat) (m x y err : Int) : Prop where
  column : x1 = x + sx * r
  row : y1 = y + sy * m
  error : err = dx + dy - dy * r - dx * m
  lower : dy < 2 * err
  upper : 2 * err ≤ 3 * dx + 2 * dy

section
variable {dx dy sx sy x1 y1 x y err m : Int} {r : Nat}

/-- With no column to go no row is left either. -/
theorem FlatAhead.rows_eq_zero (hdx : 0 < dx) (hdy : dy ≤ 0) (h : FlatAhead dx dy sx sy x1 y1 0 m x y err) : m = 0 := by
  obtain ⟨-, -, herr, hlower, hupper⟩ := h
  rw [Nat.cast_zero, mul_zero, sub_zero] at herr
  have hle : m ≤ 0 := by
    by_contra hpos
    nlinarith
  have hge : 0 ≤ m := by
    by_contra hneg
    nlinarith
  exact le_antisymm hle hge

/-- While a column is to go, the stepper takes a step in x, and one in y where the error term asks for it. -/
theorem FlatAhead.step (hflat : -dy ≤ dx) (hdy : dy ≤ 0) (hsx : sx ≠ 0) (n : Nat)
    (h : FlatAhead dx dy sx sy x1 y1 (r + 1) m x y err) :
    ∃ m' y' err', FlatAhead dx dy sx sy x1 y1 r m' (x + sx) y' err' ∧
      bresenhamFrom dx dy sx sy x1 y1 (n + 1) x y err =
        (x, y) :: bresenhamFrom dx dy sx sy x1 y1 n (x + sx) y' err' := by
  obtain ⟨hcol, hrow, herr, hlower, hupper⟩ := h
  push_cast at hcol herr
  have hcol' : x1 = x + sx + sx * r := by linarith
  have hmore : ¬(x = x1 ∧ y = y1) := by
    rintro ⟨hx, -⟩
    have hzero : sx * ((r : Int) + 1) = 0 := by linarith
    exact (mul_ne_zero hsx (by omega)) hzero
  have hstepX : 2 * err ≥ dy := hlower.le
  by_cases hstepY : 2 * err ≤ dx
  · refine ⟨m - 1, y + sy, err + dy + dx, ⟨hcol', ?_, ?_, by omega, by omega⟩, ?_⟩
    · rw [hrow]; ring
    · rw [herr]; ring
    · simp [bresenhamFrom, hmore, hstepX, hstepY]
  · refine ⟨m, y, err + dy, ⟨hcol', hrow, ?_, by omega, by omega⟩, ?_⟩
    · rw [herr]; ring
    · simp [bresenhamFrom, hmore, hstepX, hstepY]

/-- A flat segment runs along x to its end point. -/
theorem FlatAhead.runsAlong (hdx : 0 < dx) (hflat : -dy ≤ dx) (hdy : dy ≤ 0) (hsx : sx ≠ 0)
    (h : FlatAhead dx dy sx sy x1 y1 r m x y err) :
    RunsAlong Prod.fst x sx r (x1, y1) (bresenhamFrom dx dy sx sy x1 y1 (r + 1) x y err) := by
  induction r generalizing m x y err with
  | zero =>
    obtain rfl := h.rows_eq_zero hdx hdy
    obtain rfl : x1 = x := by simpa using h.column
    obtain rfl : y1 = y := by simpa using h.row
    rw [bresenhamFrom_at_end]
    exact RunsAlong.singleton Prod.fst sx (x1, y1)
  | succ r ih =>
    obtain ⟨m', y', err', hnext, hstep⟩ := h.step hflat hdy hsx (r + 1)
    rw [hstep]
    exact RunsAlong.cons (x, y) (ih hnext)

end

/-- The direction of R154 times the distance leads from the start to the end. -/
theorem add_direction_mul_natAbs (a b : Int) : a + (if a < b then 1 else -1) * ((b - a).natAbs : Int) = b := by
  split <;> omega

/-- A segment at least as wide as high runs along x. -/
theorem bresenham_runs_flat {x0 y0 x1 y1 : Int} (hflat : (y1 - y0).natAbs ≤ (x1 - x0).natAbs) :
    RunsAlong Prod.fst x0 (if x0 < x1 then 1 else -1) (x1 - x0).natAbs (x1, y1) (bresenham x0 y0 x1 y1) := by
  rw [bresenham, max_eq_left hflat]
  by_cases hpoint : x1 = x0
  · obtain rfl := hpoint
    obtain rfl : y1 = y0 := by omega
    rw [bresenhamFrom_at_end, sub_self]
    exact RunsAlong.singleton Prod.fst _ (x1, y1)
  · have hstart : FlatAhead (x1 - x0).natAbs (-(y1 - y0).natAbs) (if x0 < x1 then 1 else -1)
        (if y0 < y1 then 1 else -1) x1 y1 (x1 - x0).natAbs (y1 - y0).natAbs x0 y0
        ((x1 - x0).natAbs + -(y1 - y0).natAbs) :=
      ⟨(add_direction_mul_natAbs x0 x1).symm, (add_direction_mul_natAbs y0 y1).symm, by ring, by omega, by omega⟩
    exact hstart.runsAlong (by omega) (by omega) (by omega) (by split <;> decide)

/-- A segment at least as high as wide runs along y: it is a flat one with the axes exchanged. -/
theorem bresenham_runs_steep {x0 y0 x1 y1 : Int} (hsteep : (x1 - x0).natAbs ≤ (y1 - y0).natAbs) :
    RunsAlong Prod.snd y0 (if y0 < y1 then 1 else -1) (y1 - y0).natAbs (x1, y1) (bresenham x0 y0 x1 y1) := by
  rw [bresenham_swap y0 x0 y1 x1]
  exact (bresenham_runs_flat hsteep).map_swap

/-- The stepper starts at the start point (R150). -/
theorem bresenham_head (x0 y0 x1 y1 : Int) : (bresenham x0 y0 x1 y1).head? = some (x0, y0) := rfl

/-- The stepper plots one pixel for each step along the longer axis and one more (R150). -/
theorem bresenham_length (x0 y0 x1 y1 : Int) :
    (bresenham x0 y0 x1 y1).length = max (x1 - x0).natAbs (y1 - y0).natAbs + 1 := by
  rcases le_total (y1 - y0).natAbs (x1 - x0).natAbs with hflat | hsteep
  · rw [max_eq_left hflat, (bresenham_runs_flat hflat).length_eq]
  · rw [max_eq_right hsteep, (bresenham_runs_steep hsteep).length_eq]

/-- The stepper ends at the end point (R150). -/
theorem bresenham_getLast (x0 y0 x1 y1 : Int) : (bresenham x0 y0 x1 y1).getLast? = some (x1, y1) := by
  rcases le_total (y1 - y0).natAbs (x1 - x0).natAbs with hflat | hsteep
  · exact (bresenham_runs_flat hflat).getLast_eq
  · exact (bresenham_runs_steep hsteep).getLast_eq

/-- Settles O11: the pixels of a flat segment run along x, and a steep segment is a flat one with the axes exchanged. -/
theorem stepperPlotsSegment : Obligations.StepperPlotsSegment := by
  intro x0 y0 x1 y1
  refine ⟨bresenham_length .., bresenham_head .., bresenham_getLast .., fun k hk => ⟨fun hflat => ?_, fun hsteep => ?_⟩⟩
  · rw [(bresenham_runs_flat hflat).coord_eq k hk, ite_mul, one_mul, neg_one_mul]
  · rw [(bresenham_runs_steep hsteep).coord_eq k hk, ite_mul, one_mul, neg_one_mul]

/-! ### Vector lists -/

/-- VEC_SEG draws its segment and goes on four words further (R140, R142). -/
theorem exec_vecSeg {s : State} {q : Pass} {p : Nat} (hq : s.pass = some q) (hp : q.phase = .vectors p)
    (ey syc slope sx : Word) :
    exec (.vecSeg ey syc slope sx) s =
      .next (drawThen params s q (wordColor syc) (fun _ => segmentPixels params ey syc slope sx) (.vectors (p + 4))) :=
  inVectors_eq _ hq hp

/-- Settles O19: under the default parameters the segment is the stepper's from the start to the wrapped end X, and its
pixels are drawn as those of any record. -/
theorem vectorSegmentDrawsLine : Obligations.VectorSegmentDrawsLine := by
  intro s q p c ey syc slope sx hq hp hc hlegal endX
  have hpixels : segmentPixels params ey syc slope sx =
      bresenham (pixel params sx) (pixel params syc) (pixel params endX) (pixel params ey) := rfl
  refine ⟨_, exec_vecSeg hq hp ey syc slope sx, drawThen_frame hc .., fun b px py => ?_⟩
  rw [cell_drawThen hc (hlegal c hc), cellValue_wordColor, hpixels]

end Sys2Proof.Machine
end

section
/-! SUPPORT. The polygon fill engine: the X accumulator in numbers (R174), the span of a row under both clip modes and the
cells that a row fill leaves (R169, R170), the records of a polygon (R160, R165), and the scanline step of its edges
(R168). -/

namespace Sys2Proof.Machine

open Sys2Proof.Claims

/-! ### The X accumulator -/

/-- The X accumulator's number is the exact sum modulo 2^16 (R174). -/
theorem toNat_advanceX (x : BitVec Config.xaccWidth) (slope : Word) :
    ((advanceX x slope).toNat : Int) = ((x.toNat : Int) + slope.toInt) % 65536 := by
  have hsum : (advanceX x slope).toNat = (x.toNat + slope.toNat) % 65536 := by
    rw [advanceX, BitVec.signExtend_eq]
    exact BitVec.toNat_add x slope
  rw [hsum, BitVec.toInt_eq_toNat_cond]
  split <;> omega

/-- Settles O10, by the accumulator's number; the two examples wrap one step below 0 and one step above 65535. -/
theorem xAccumulatorWraps : Obligations.XAccumulatorWraps :=
  ⟨toNat_advanceX, by decide, by decide⟩

/-! ### The span of a row -/

theorem spanEnds_of_clamp {P : Params} (h : P.polyHClipMode = .clamp) (c : Clip) (xa xb : BitVec Config.xaccWidth) :
    spanEnds P c xa xb =
      (max (min (pixel P xa) (pixel P xb)) c.xmin, min (max (pixel P xa) (pixel P xb)) c.xmax) := by
  rw [spanEnds, h]

theorem spanEnds_of_perPixel {P : Params} (h : P.polyHClipMode = .perPixel) (c : Clip)
    (xa xb : BitVec Config.xaccWidth) :
    spanEnds P c xa xb = (min (pixel P xa) (pixel P xb), max (pixel P xa) (pixel P xb)) := by
  rw [spanEnds, h]

/-- A row in the vertical clip range has as many pixels as its span is wide, none for an empty span (R169). -/
theorem length_rowPixels {P : Params} {c : Clip} {y : Int} (hymin : c.ymin ≤ y) (hymax : y ≤ c.ymax)
    (xa xb : BitVec Config.xaccWidth) :
    (rowPixels P c y xa xb).length = ((spanEnds P c xa xb).2 - (spanEnds P c xa xb).1).toNat := by
  rw [rowPixels, if_neg (by omega), List.length_map, length_intsFrom]

/-- Settles O12: the ends of the span in each mode, put into the length and the members of a row. -/
theorem spanExcludesLeftEnd : Obligations.SpanExcludesLeftEnd := by
  intro P c y xa xb hymin hymax row lo hi clampedLo clampedHi
  have hlen := length_rowPixels (P := P) hymin hymax xa xb
  have hmem := mem_rowPixels P c y xa xb
  simp only [hymin, hymax, true_and] at hmem
  refine ⟨fun hmode => ?clamp, fun hmode => ?perPixel⟩
  case clamp =>
    rw [spanEnds_of_clamp hmode] at hlen hmem
    have hempty (hspan : clampedHi ≤ clampedLo) : row = [] :=
      List.eq_nil_of_length_eq_zero (hlen.trans (Int.toNat_of_nonpos (Int.sub_nonpos_of_le hspan)))
    refine ⟨hlen, hmem, fun py hpy => ?_, fun hleft => ?_, fun hright => ?_⟩
    · obtain ⟨-, hlow, -⟩ := (hmem _ _).1 hpy
      exact (le_max_right lo c.xmin).not_gt hlow
    · exact hempty (hleft.trans (le_max_right lo c.xmin))
    · exact hempty ((min_le_right hi c.xmax).trans hright)
  case perPixel =>
    rw [spanEnds_of_perPixel hmode] at hlen hmem
    exact ⟨hlen, hmem⟩

/-! ### The row fill -/

/-- A cell after the row fill: the colour in row y above the span's lower end up to its upper end, inside the clip
rectangle; else the cell from before (R169). -/
theorem cell_fillRow {P : Params} {s : State} {c : Clip} (hc : s.clip = some c) (hlegal : c.legal P = true) (q : Pass)
    (g : Poly) (b : BitVec 1) (x y : Int) :
    (fillRow P s q g).cell P b x y =
      if b = q.target ∧ y = g.y ∧ (spanEnds P c g.a.x g.b.x).1 < x ∧ x ≤ (spanEnds P c g.a.x g.b.x).2 ∧ inside c x y
      then some (cellValue g.color) else s.cell P b x y := by
  rw [fillRow, cell_drawThen hc hlegal]
  refine if_congr (and_congr_right fun _ => ?_) rfl rfl
  rw [mem_rowPixels]
  constructor
  · rintro ⟨⟨hy, -, -, hlow, hhigh⟩, hin⟩
    exact ⟨hy, hlow, hhigh, hin⟩
  · rintro ⟨rfl, hlow, hhigh, hxmin, hxmax, hymin, hymax⟩
    exact ⟨⟨rfl, hymin, hymax, hlow, hhigh⟩, hxmin, hxmax, hymin, hymax⟩

/-- Settles O23: the row fill draws the row's pixels as any record draws, and in each mode the span's ends are known. -/
theorem rowFillBothModes : Obligations.RowFillBothModes := by
  intro P s q g
  refine ⟨fun hc => drawThen_of_no_clip hc .., ?_⟩
  intro c hc hlegal lo hi t
  refine ⟨drawThen_frame hc .., fun hmode b x y => ?clamp, fun hmode b x y => ?perPixel⟩
  case clamp =>
    rw [cell_fillRow hc hlegal, spanEnds_of_clamp hmode]
    refine if_congr (and_congr_right fun _ => and_congr_right fun _ => ?_) rfl rfl
    simp only [max_lt_iff, le_min_iff]
    constructor
    · rintro ⟨⟨hlo, hxmin⟩, ⟨hhi, hxmax⟩, -, -, hymin, hymax⟩
      exact ⟨hymin, hymax, ⟨hlo, hxmin⟩, hhi, hxmax⟩
    · rintro ⟨hymin, hymax, ⟨hlo, hxmin⟩, hhi, hxmax⟩
      exact ⟨⟨hlo, hxmin⟩, ⟨hhi, hxmax⟩, hxmin.le, hxmax, hymin, hymax⟩
  case perPixel =>
    rw [cell_fillRow hc hlegal, spanEnds_of_perPixel hmode]
    rfl

/-! ### The header and the pairs of the edges -/

theorem toNat_wordColor (w : Word) : (wordColor w).toNat = w.toNat % 64 := by
  rw [wordColor, BitVec.extractLsb'_toNat, Nat.shiftRight_zero]

/-- Settles O20: the polygon started is the header's own. -/
theorem polygonHeaderStartsEdges : Obligations.PolygonHeaderStartsEdges := by
  intro s q a ign sec x1 x2 syc hq hp
  refine ⟨Poly.start params a sec x1 x2 syc, polyHeader_eq sec x1 x2 syc hq hp, ?edgeA, ?edgeB, rfl,
    toNat_wordColor syc⟩
  case edgeA => simp only [Poly.start, BitVec.setWidth_eq]
  case edgeB => simp only [Poly.start, BitVec.setWidth_eq]

/-- A pair loads the edge that pulls, and the polygon goes on as the stage says (R165, R167). -/
theorem exec_edgeSeg {s : State} {q : Pass} {g : Poly} {stage : PolyPhase} (hq : s.pass = some q)
    (hp : q.phase = .polygon g stage) (hpull : stage ≠ .row) (slope endY : Word) :
    exec (.edgeSeg slope endY) s =
      .next (s.setPass (some { q with phase := afterPull params g slope endY stage })) :=
  inPull_eq _ hq hp hpull

/-- Settles O21, by what follows the pair at each of the four pulling stages. -/
theorem edgeSegmentLoads : Obligations.EdgeSegmentLoads := by
  intro s q g stage slope endY hq hp loaded onward
  refine ⟨?firstA, ?firstB, ?pullB, ?pullA⟩
  all_goals
    rintro rfl
    exact exec_edgeSeg hq hp nofun slope endY

/-! ### The scanline step -/

theorem Edge.ended_of_seg {e : Edge} {g : Segment} (h : e.seg = some g) (P : Params) (y : Int) :
    e.ended P y = decide (y > pixel P g.endY) := by
  rw [Edge.ended, h]

theorem Edge.advance_of_seg {e : Edge} {g : Segment} (h : e.seg = some g) :
    e.advance = { e with x := advanceX e.x g.slope } := by
  rw [Edge.advance, h]

/-- Edge B in the scanline step, by its segment (R168). -/
theorem stepB_of_seg {g : Poly} {sb : Segment} (h : g.b.seg = some sb) (P : Params) :
    stepB P g =
      if g.y > pixel P sb.endY then .polygon g .pullB
      else .polygon { g with b := { g.b with x := advanceX g.b.x sb.slope } } .row := by
  simp only [stepB, Edge.ended_of_seg h, Edge.advance_of_seg h, decide_eq_true_eq]

/-- Edge A in the scanline step, by its segment, with B's step to follow (R168). -/
theorem stepA_of_seg {g : Poly} {sa : Segment} (h : g.a.seg = some sa) (P : Params) :
    stepA P g =
      if g.y > pixel P sa.endY then .polygon g .pullA
      else stepB P { g with a := { g.a with x := advanceX g.a.x sa.slope } } := by
  simp only [stepA, Edge.ended_of_seg h, Edge.advance_of_seg h, decide_eq_true_eq]

/-- Settles O22, by the step of each edge. -/
theorem edgeStepRule : Obligations.EdgeStepRule := by
  intro P g sa sb ha hb a' b'
  have hA := stepA_of_seg ha P
  have hB := stepB_of_seg hb P
  have hB' := stepB_of_seg (g := { g with a := a' }) hb P
  refine ⟨fun hendA => ?pullA, fun hrunA hendB => ?pullB, fun hrunA hrunB => ?row, fun hendB => ?stepPullB,
    fun hrunB => ?stepRow⟩
  case pullA => rw [hA, if_pos hendA]
  case pullB => rw [hA, if_neg hrunA.not_gt, hB', if_pos hendB]
  case row => rw [hA, if_neg hrunA.not_gt, hB', if_neg hrunB.not_gt]
  case stepPullB => rw [hB, if_pos hendB]
  case stepRow => rw [hB, if_neg hrunB.not_gt]

end Sys2Proof.Machine
end

section
/-! SUPPORT. The canvas buffers seen by the host: which of them is drawn into (R193), what a clear and a clip rectangle
leave (R190, R194), and the row that a scanline read returns (R195). -/

namespace Sys2Proof.Machine

open Sys2Proof.Claims

/-! ### The two buffers -/

theorem not_index_ne (b : BitVec 1) : ~~~b ≠ b := by
  revert b
  decide

theorem index_eq_of_ne_not {b d : BitVec 1} (h : b ≠ ~~~d) : b = d := by
  revert b d
  decide

/-- Settles O13: one target is the complement of the other, whatever the polarity. -/
theorem drawAndDisplayDiffer : Obligations.DrawAndDisplayDiffer := by
  intro P v
  refine ⟨(not_index_ne (drawIndex P v)).symm, ?flipped, rfl⟩
  unfold displayIndex drawIndex
  cases P.bufselPolarity with
  | direct => rfl
  | swapped => rfl

/-- Replacing a buffer changes the two buffers' fields alone. -/
theorem State.setBuf_frame (s : State) (b : BitVec 1) (c : Canvas) :
    s.setBuf b c = { s with buf0 := (s.setBuf b c).buf0, buf1 := (s.setBuf b c).buf1 } := by
  rcases index_cases b with rfl | rfl <;> rfl

/-! ### Cells of the canvas -/

@[simp] theorem params_canvasH : params.canvasH = 256 := rfl

/-- A pixel of the canvas is the cell of its row-major index (R24). -/
theorem State.cell_on_canvas (s : State) (b : BitVec 1) {x y : Int} (hx : 0 ≤ x ∧ x ≤ 255) (hy : 0 ≤ y ∧ y ≤ 255) :
    s.cell params b x y = (s.buf b).get (canvasCells params) (Config.canvasW * y.toNat + x.toNat) := by
  have haddr : cellAddr params x y = some (Config.canvasW * y.toNat + x.toNat) :=
    if_pos (by simp only [Config.canvasW, params_canvasH]; omega)
  rw [State.cell, haddr]

/-! ### CLEAR_BUFFER -/

theorem exec_clearBuffer {s : State} (hidle : s.pass = none) (which : Int) :
    exec (.clearBuffer which) s =
      if which = 0 ∨ which = 1 then .next (s.setBuf (BitVec.ofInt 1 which) Canvas.cleared) else .refused .badOperand :=
  hostOp_idle _ hidle

/-- Settles O37: the buffer is replaced by the one that holds 0 in every cell. -/
theorem clearBufferZeroFills : Obligations.ClearBufferZeroFills := by
  intro s which hidle
  rw [exec_clearBuffer hidle]
  refine ⟨fun hwhich => ⟨_, if_pos hwhich, fun x y hx0 hx hy0 hy => ?cleared, ?other, s.setBuf_frame _ _⟩,
    fun h0 h1 => if_neg (not_or.2 ⟨h0, h1⟩)⟩
  case cleared =>
    rw [State.cell_on_canvas _ _ ⟨hx0, hx⟩ ⟨hy0, hy⟩, State.setBuf_buf_same, Canvas.get_cleared]
    exact if_pos (by simp only [canvasCells, Config.canvasW, params_canvasH]; omega)
  case other => exact s.setBuf_buf_other _ (not_index_ne _)

/-! ### SET_CLIP -/

theorem exec_setClip {s : State} (hidle : s.pass = none) (xmin ymin xmax ymax : Int) :
    exec (.setClip xmin ymin xmax ymax) s =
      if (⟨xmin, ymin, xmax, ymax⟩ : Clip).legal params then .next (s.setClip ⟨xmin, ymin, xmax, ymax⟩)
      else .refused .badClip :=
  hostOp_idle _ hidle

/-- Settles O38, by the bounds of a legal rectangle. -/
theorem setClipStoresRectangle : Obligations.SetClipStoresRectangle := by
  intro s xmin ymin xmax ymax hidle
  rw [exec_setClip hidle]
  simp only [Clip.legal_iff, params_canvasH]
  exact ⟨fun hxmin hxmax hymin hymax => if_pos (by omega), fun hout => if_neg (by omega)⟩

/-! ### Drawing before any SET_CLIP -/

/-- Settles O24: each of the two records draws as any record does, which faults without a clip rectangle. -/
theorem drawingNeedsClip : Obligations.DrawingNeedsClip := by
  intro s q p x yc ey syc slope sx hq hc after
  have hfault (k : BitVec 6) (l : Clip → List (Int × Int)) (next : Phase) :
      Host.Outcome.next (drawThen params s q k l next) = (.next after : Result) :=
    congrArg _ (drawThen_of_no_clip hc ..)
  exact ⟨fun hp => (exec_ptPair hq hp x yc).trans (hfault ..),
    fun hp => (exec_vecSeg hq hp ey syc slope sx).trans (hfault ..)⟩

/-! ### The row of a scanline read -/

/-- Cells that all hold a value are read as the list of their values. -/
theorem Canvas.rowFrom_of_values {P : Params} {c : Canvas} {y x : Nat} {row : List Byte}
    (h : ∀ (k : Nat) (hk : k < row.length), c.get (canvasCells P) (Config.canvasW * y + (x + k)) = some row[k]) :
    Canvas.rowFrom P c y row.length x = .ok row := by
  induction row generalizing x with
  | nil => rfl
  | cons v row ih =>
    have hhead : c.get (canvasCells P) (Config.canvasW * y + x) = some v := h 0 (Nat.zero_lt_succ _)
    have htail : Canvas.rowFrom P c y row.length (x + 1) = .ok row := by
      refine ih fun k hk => ?_
      rw [Nat.add_right_comm]
      exact h (k + 1) (Nat.succ_lt_succ hk)
    rw [List.length_cons, Canvas.rowFrom, hhead, htail]

/-- Reading cells stops at the first that holds no value. -/
theorem Canvas.rowFrom_of_unwritten {P : Params} {c : Canvas} {y x n e : Nat} (hlow : x ≤ e) (hhigh : e < x + n)
    (hnone : c.get (canvasCells P) (Config.canvasW * y + e) = none)
    (hsome : ∀ k, x ≤ k → k < e → (c.get (canvasCells P) (Config.canvasW * y + k)).isSome = true) :
    Canvas.rowFrom P c y n x = .error e := by
  induction n generalizing x with
  | zero => omega
  | succ n ih =>
    rcases hlow.eq_or_lt with rfl | hlt
    · rw [Canvas.rowFrom, hnone]
    · obtain ⟨v, hv⟩ := Option.isSome_iff_exists.1 (hsome x le_rfl hlt)
      rw [Canvas.rowFrom, hv, ih hlt (by omega) fun k hk => hsome k (by omega)]

theorem readRow_of_outside {s : State} {y : Int} (hy : y < 0 ∨ y > 255) : readRow params y s = .refused .badRow :=
  if_pos hy

theorem readRow_of_no_bufsel {s : State} {y : Int} (hy : 0 ≤ y ∧ y ≤ 255) (hv : s.bufsel = none) :
    readRow params y s = .fault .bufselUnset := by
  rw [readRow, if_neg (by simp only [params_canvasH]; omega), hv]

theorem readRow_of_rowIs {s : State} {y : Int} {v : BitVec 1} {row : List Byte} (hy : 0 ≤ y ∧ y ≤ 255)
    (hv : s.bufsel = some v) (hrow : rowIs s (~~~v) y row) : readRow params y s = .next row := by
  obtain ⟨hlen, hcells⟩ := hrow
  have hread : Canvas.rowFrom params (s.buf (displayIndex params v)) y.toNat Config.canvasW 0 = .ok row := by
    rw [show Config.canvasW = row.length from hlen.symm]
    refine Canvas.rowFrom_of_values fun k hk => ?_
    rw [Nat.zero_add, ← hcells k hk, s.cell_on_canvas _ (by omega) hy]
    rfl
  rw [readRow, if_neg (by simp only [params_canvasH]; omega), hv]
  simp only [hread]

theorem readRow_of_firstUnwritten {s : State} {y : Int} {v : BitVec 1} {x : Nat} (hy : 0 ≤ y ∧ y ≤ 255)
    (hv : s.bufsel = some v) (hfirst : firstUnwritten s (~~~v) y x) :
    readRow params y s = .fault (.unwrittenPixel (~~~v) y.toNat x) := by
  obtain ⟨hx, hnone, hsome⟩ := hfirst
  have hcell (k : Nat) (hk : k ≤ x) : s.cell params (~~~v) k y =
      (s.buf (displayIndex params v)).get (canvasCells params) (Config.canvasW * y.toNat + k) :=
    s.cell_on_canvas _ (by omega) hy
  have hread : Canvas.rowFrom params (s.buf (displayIndex params v)) y.toNat Config.canvasW 0 = .error x :=
    Canvas.rowFrom_of_unwritten (Nat.zero_le x) (by simpa using hx) (hcell x le_rfl ▸ hnone)
      fun k _ hk => hcell k hk.le ▸ hsome k hk
  rw [readRow, if_neg (by simp only [params_canvasH]; omega), hv]
  simp only [hread]
  rfl

/-! ### RENDERED_SCANLINE -/

theorem exec_renderedScanline_of_row {s : State} {y : Int} {row : List Byte} (hidle : s.pass = none)
    (h : readRow params y s = .next row) : exec (.renderedScanline y) s = .next (s.observe (.scanline row)) :=
  (hostOp_idle _ hidle).trans (by rw [h]; rfl)

theorem exec_renderedScanline_of_fault {s : State} {y : Int} {f : Fault} (hidle : s.pass = none)
    (h : readRow params y s = .fault f) :
    exec (.renderedScanline y) s = .next { s with faults := addFault s.faults f } := by
  rw [← State.raise_of_idle hidle]
  exact (hostOp_idle _ hidle).trans (by rw [h]; rfl)

theorem exec_renderedScanline_of_refused {s : State} {y : Int} {r : Refusal} (hidle : s.pass = none)
    (h : readRow params y s = .refused r) : exec (.renderedScanline y) s = .refused r :=
  (hostOp_idle _ hidle).trans (by rw [h]; rfl)

/-- Settles O39: the operation observes, records or refuses what reading the row answers. -/
theorem renderedScanlineReturnsRow : Obligations.RenderedScanlineReturnsRow := by
  intro s y hidle
  refine ⟨fun hy => ?outside, fun hy0 hy hv => ?noBufsel, fun v row hy0 hy hv hrow => ?row,
    fun v x hy0 hy hv hfirst => ?unwritten⟩
  case outside => exact exec_renderedScanline_of_refused hidle (readRow_of_outside hy)
  case noBufsel => exact exec_renderedScanline_of_fault hidle (readRow_of_no_bufsel ⟨hy0, hy⟩ hv)
  case row => exact exec_renderedScanline_of_row hidle (readRow_of_rowIs ⟨hy0, hy⟩ hv hrow)
  case unwritten => exact exec_renderedScanline_of_fault hidle (readRow_of_firstUnwritten ⟨hy0, hy⟩ hv hfirst)

end Sys2Proof.Machine
end

section
/-! SUPPORT. Which operation changes which buffer (R60, R197): a pass its draw target alone, a clear the buffer it names,
every other host operation none. -/

namespace Sys2Proof.Machine

/-! ### A step of a pass -/

theorem PassMove.of_step {s t : State} {q : Pass} (hq : s.pass = some q) (h : step s = .next t) :
    PassMove params s q t := by
  rw [step_of_pass hq, passStep_exec] at h
  exact passStep_move hq h

/-- The latched target and the snapshot stay as long as the pass goes on (R52, R100). -/
theorem PassMove.latched {P : Params} {s t : State} {q q' : Pass} (hm : PassMove P s q t) (hq' : t.pass = some q') :
    q'.target = q.target ∧ q'.snap = q.snap := by
  rcases hm with rfl | ⟨r, rfl, hsnap, htarget⟩ | ⟨f, rfl⟩ | ⟨c, k, l, next, -, rfl⟩
  · cases hq'
  · cases hq'; exact ⟨htarget, hsnap⟩
  · cases hq'
  · cases hq'; exact ⟨rfl, rfl⟩

/-- The registers that a pass never touches are all but the buffers, the fault set and the pass. -/
theorem SameRegisters.frame_of_pass {s t : State} (h : SameRegisters s t) :
    t = { s with buf0 := t.buf0, buf1 := t.buf1, faults := t.faults, pass := t.pass } :=
  SameRegisters.frame (s := { s with pass := t.pass }) h rfl

/-- Settles O36, by what a step of a pass can do. -/
theorem passStepKeepsDisplayTarget : Obligations.PassStepKeepsDisplayTarget := by
  intro s t q hq h
  have hm := PassMove.of_step hq h
  exact ⟨hm.buf (not_index_ne q.target), hm.registers.frame_of_pass, fun q' => hm.latched⟩

/-! ### What exec does to a buffer -/

/-- TRIGGER_RUN changes no buffer but the draw target of `bufsel` (R100, R193). -/
theorem triggerRun_buf {s t : State} {b : BitVec 1} (h : triggerRun params s = .next t) (hb : t.buf b ≠ s.buf b) :
    t.buf (~~~b) = s.buf (~~~b) ∧ ∃ v, s.bufsel = some v ∧ b = drawIndex params v := by
  obtain ⟨hidle, ⟨-, rfl⟩ | ⟨v, hv, -⟩⟩ := triggerRun_next h
  · exact absurd rfl hb
  · obtain ⟨u, hu, -, hdisplay⟩ := exec_triggerRun_ends hidle hv
    cases hu.symm.trans h
    have hdraw : b = drawIndex params v := index_eq_of_ne_not fun hne => hb (hne ▸ hdisplay)
    exact ⟨hdraw ▸ hdisplay, v, hv, hdraw⟩

/-- The only host operation other than TRIGGER_RUN that changes a buffer is its clear (R190, R197). -/
theorem HostMove.buf {i : Instr} {s t : State} {b : BitVec 1} (hm : HostMove i s t) (hb : t.buf b ≠ s.buf b) :
    t.buf (~~~b) = s.buf (~~~b) ∧ i = .clearBuffer b.toNat := by
  rcases hm with ⟨f, rfl⟩ | ⟨o, rfl⟩ | ⟨w, hw, rfl, rfl⟩ | ⟨c, -, -, rfl⟩ | ⟨-, rfl⟩ | ⟨o, d, -, rfl⟩ |
    ⟨k, w, -, -, -, rfl⟩ | ⟨k, w, -, -, -, rfl⟩ | ⟨v, -, rfl⟩ | ⟨v, -, rfl⟩
  case inr.inr.inl =>
    obtain rfl : b = BitVec.ofInt 1 w := by_contra fun hne => hb (s.setBuf_buf_other _ hne)
    refine ⟨s.setBuf_buf_other _ (not_index_ne _), ?_⟩
    rcases hw with rfl | rfl <;> rfl
  case inr.inr.inr.inr.inl =>
    obtain ⟨p, hp⟩ := buildStaticEntries_eq (List.range 32) s
    rw [hp] at hb
    exact absurd rfl hb
  all_goals exact absurd rfl hb

/-- A record changes no buffer but the pass's draw target (R197). -/
theorem PassMove.target_of_buf_ne {P : Params} {s t : State} {q : Pass} {b : BitVec 1} (hm : PassMove P s q t)
    (hb : t.buf b ≠ s.buf b) : t.buf (~~~b) = s.buf (~~~b) ∧ q.target = b := by
  obtain rfl : q.target = b := by_contra fun hne => hb (hm.buf (Ne.symm hne))
  exact ⟨hm.buf (not_index_ne _), rfl⟩

/-- Settles O54, by what exec can do. -/
theorem onlyClearAndPassesDraw : Obligations.OnlyClearAndPassesDraw := by
  intro i s t b h hb
  rcases exec_cases h with ⟨ctx, q, hctx, hq, hm⟩ | ⟨hi, hrun⟩ | ⟨-, -, hm⟩
  · obtain ⟨hother, htarget⟩ := hm.target_of_buf_ne hb
    exact ⟨hother, .inr (.inr ⟨by rw [hctx]; rfl, q, hq, htarget⟩)⟩
  · obtain ⟨hother, hdraw⟩ := triggerRun_buf hrun hb
    exact ⟨hother, .inr (.inl ⟨hi, hdraw⟩)⟩
  · obtain ⟨hother, hclear⟩ := hm.buf hb
    exact ⟨hother, .inl hclear⟩

end Sys2Proof.Machine
end

section
/-! SUPPORT. The palette mapper: the fields of a colour code, the order of the static entries, and what each of its three
operations answers (R210 to R216). -/

namespace Sys2Proof.Machine

/-! ### The fields of a colour code -/

theorem and_three (n : Nat) : n &&& 3 = n % 4 := Nat.and_two_pow_sub_one_eq_mod n 2

theorem and_seven (n : Nat) : n &&& 7 = n % 8 := Nat.and_two_pow_sub_one_eq_mod n 3

theorem shiftRight_and_three (n k : Nat) : n >>> k &&& 3 = n / 2 ^ k % 4 := by
  rw [and_three, Nat.shiftRight_eq_div_pow]

/-- A component fits its byte when the largest level and intensity give one that does (R211, R213). -/
theorem toNat_component {unit level intensity top : Nat} (hunit : unit * 3 * top ≤ 255) (hlevel : level ≤ 3)
    (hintensity : intensity ≤ top) : (BitVec.ofNat 8 (unit * level * intensity)).toNat = unit * level * intensity := by
  have hle : unit * level * intensity ≤ unit * 3 * top := Nat.mul_le_mul (Nat.mul_le_mul_left _ hlevel) hintensity
  exact (BitVec.toNat_ofNat ..).trans (Nat.mod_eq_of_lt (by omega))

/-! ### The static colour -/

/-- A component of the static colour (R211). -/
theorem toNat_staticComponent (v shift : Nat) :
    (BitVec.ofNat 8 (28 * (v / 2 ^ shift % 4) * (v % 4))).toNat = 28 * (v >>> shift &&& 3) * (v &&& 3) := by
  rw [toNat_component (top := 3) (by decide) (by omega) (by omega), shiftRight_and_three, and_three]

theorem staticComponent_mem {level intensity : Nat} (hlevel : level < 4) (hintensity : intensity < 4) :
    28 * level * intensity ∈ [0, 28, 56, 84, 112, 168, 252] := by
  have hall : ∀ l < 4, ∀ k < 4, 28 * l * k ∈ [0, 28, 56, 84, 112, 168, 252] := by decide
  exact hall level hlevel intensity hintensity

theorem staticColor_of_intensity_zero {v : Byte} (h : v.toNat &&& 3 = 0) : staticColor v = ⟨0#8, 0#8, 0#8⟩ := by
  rw [and_three] at h
  simp only [staticColor, h, Nat.mul_zero]

/-- Settles O40: each component is its level times the intensity, both below 4. -/
theorem staticColorFormula : Obligations.StaticColorFormula := by
  intro v
  have hr : (staticColor v).r.toNat = _ := toNat_staticComponent v.toNat 6
  have hg : (staticColor v).g.toNat = _ := toNat_staticComponent v.toNat 4
  have hb : (staticColor v).b.toNat = _ := toNat_staticComponent v.toNat 2
  have hmem (shift : Nat) : 28 * (v.toNat >>> shift &&& 3) * (v.toNat &&& 3) ∈ [0, 28, 56, 84, 112, 168, 252] :=
    staticComponent_mem (by rw [shiftRight_and_three]; omega) (by rw [and_three]; omega)
  refine ⟨hr, hg, hb, fun n hn => ?_, staticColor_of_intensity_zero⟩
  simp only [List.mem_cons, List.not_mem_nil, or_false] at hn
  rcases hn with rfl | rfl | rfl
  · exact hr ▸ hmem 6
  · exact hg ▸ hmem 4
  · exact hb ▸ hmem 2

/-! ### The order of the static entries -/

/-- The number of three reversed bits, as a table (R212). -/
def reversedBits (k : Nat) : Nat := [0, 4, 2, 6, 1, 5, 3, 7].getD k 0

theorem reversedBits_lt : ∀ k < 8, reversedBits k < 8 := by decide

theorem reversedBits_reversedBits : ∀ k < 8, reversedBits (reversedBits k) = k := by decide

/-- The static index reverses bits 2:0 and keeps the others (R212). -/
theorem staticIndex_eq (i : Nat) : staticIndex i = 64 + (i / 8 * 8 + reversedBits (i % 8)) := by
  have htable : ∀ k < 8, reversedBits k = k % 2 * 4 + k / 2 % 2 * 2 + k / 4 % 2 := by decide
  rw [htable _ (Nat.mod_lt i (by decide)), staticIndex]
  omega

/-- Reversing bits 2:0 twice gives the PROM index back (R212). -/
theorem staticIndex_staticIndex (i : Nat) : staticIndex (staticIndex i - 64) = 64 + i := by
  have hmod : i % 8 < 8 := Nat.mod_lt i (by decide)
  have hlt := reversedBits_lt _ hmod
  rw [staticIndex_eq i, Nat.add_sub_cancel_left, staticIndex_eq,
    show (i / 8 * 8 + reversedBits (i % 8)) / 8 = i / 8 by omega,
    show (i / 8 * 8 + reversedBits (i % 8)) % 8 = reversedBits (i % 8) by omega, reversedBits_reversedBits _ hmod]
  omega

theorem staticIndex_injective : Function.Injective staticIndex := by
  intro i j h
  have hij : 64 + i = 64 + j := by rw [← staticIndex_staticIndex, h, staticIndex_staticIndex]
  omega

/-- Each static entry has its PROM index (R216). -/
theorem exists_staticIndex_eq {n : Nat} (hlow : 64 ≤ n) (hhigh : n < 96) : ∃ i, i < 32 ∧ staticIndex i = n := by
  have hrange := staticIndex_range (show n - 64 < 32 by omega)
  refine ⟨staticIndex (n - 64) - 64, by omega, ?_⟩
  rw [staticIndex_staticIndex]
  omega

/-- Settles O42: the order is its own inverse on the PROM's indices. -/
theorem staticIndexIsBijection : Obligations.StaticIndexIsBijection :=
  ⟨fun _ => staticIndex_range, fun _ _ _ _ h => staticIndex_injective h, fun _ => exists_staticIndex_eq⟩

/-! ### BUILD_STATIC_PALETTE -/

/-- Building static entries gives each one its PROM byte's colour: no other PROM index has the same entry, and the PROM is
kept (R210, R216). -/
theorem buildStaticEntries_mem {l : List Nat} {i : Nat} (hi : i ∈ l) (s : State) :
    (l.foldl buildStaticEntry s).palette (staticIndex i) = some (staticColor (s.prom i)) := by
  induction l generalizing s with
  | nil => cases hi
  | cons a l ih =>
    rw [List.foldl_cons]
    by_cases hl : i ∈ l
    · exact ih hl (buildStaticEntry s a)
    · obtain rfl : i = a := (List.mem_cons.1 hi).resolve_right hl
      rw [buildStaticEntries_other l _ (staticIndex i) fun j hj hji => hl (staticIndex_injective hji ▸ hj), buildStaticEntry,
        State.palette_writePal, if_pos rfl]

theorem exec_buildStaticPalette {s : State} (hidle : s.pass = none) :
    exec .buildStaticPalette s = .next ((List.range 32).foldl buildStaticEntry s) :=
  hostOp_idle _ hidle

/-- Settles O41: the 32 writes have different entries, which are all the entries of 64..95. -/
theorem buildStaticPaletteFills : Obligations.BuildStaticPaletteFills := by
  intro s hidle
  have hfill {i : Nat} (hi : i < 32) := buildStaticEntries_mem (List.mem_range.2 hi) s
  refine ⟨_, exec_buildStaticPalette hidle, ?frame, fun i hi => ?filled, fun n hn => ?other, fun n hlow hhigh => ?value⟩
  case frame =>
    obtain ⟨p, hp⟩ := buildStaticEntries_eq (List.range 32) s
    rw [hp]
  case filled => exact staticIndex_eq i ▸ hfill hi
  case other =>
    refine buildStaticEntries_other _ s n fun i hi => ?_
    have hrange := staticIndex_range (List.mem_range.1 hi)
    omega
  case value =>
    obtain ⟨i, hi, rfl⟩ := exists_staticIndex_eq hlow hhigh
    rw [hfill hi, Option.isSome_some]

/-! ### PALETTE_WRITE -/

/-- The inverted composite's nine bits as a number, for a byte of data (R213). -/
theorem toNat_paletteCode {offset data : Nat} (hdata : data ≤ 255) :
    (paletteCode offset data).toNat = Claims.paletteNumber offset data := by
  have hcomposite : data <<< 1 ||| offset % 2 = data * 2 + offset % 2 := by
    rw [← Nat.shiftLeft_add_eq_or_of_lt (Nat.mod_lt _ (by decide)), Nat.shiftLeft_eq]
  have hdouble : data <<< 1 < 2 ^ 9 := by rw [Nat.shiftLeft_eq]; omega
  rw [paletteCode, BitVec.toNat_xor, BitVec.toNat_or, BitVec.toNat_shiftLeft, BitVec.toNat_ofNat, BitVec.toNat_ofNat,
    Nat.mod_eq_of_lt (show data < 2 ^ 9 by omega), Nat.mod_eq_of_lt hdouble,
    Nat.mod_eq_of_lt (show offset % 2 < 2 ^ 9 by omega), hcomposite]
  rfl

/-- A component of the dynamic colour (R213). -/
theorem toNat_dynamicComponent {offset data : Nat} (hdata : data ≤ 255) (shift : Nat) :
    (BitVec.ofNat 8 (12 * ((paletteCode offset data).toNat / 2 ^ shift % 4) *
      ((paletteCode offset data).toNat % 8))).toNat =
    12 * (Claims.paletteNumber offset data >>> shift &&& 3) * (Claims.paletteNumber offset data &&& 7) := by
  rw [toNat_component (top := 7) (by decide) (by omega) (by omega), toNat_paletteCode hdata, shiftRight_and_three,
    and_seven]

theorem exec_paletteWrite {s : State} (hidle : s.pass = none) (offset data : Int) :
    exec (.paletteWrite offset data) s =
      if data < 0 ∨ data > 0xFF ∨ offset < 0 then .refused .badOperand
      else .next (s.writePal (paletteEntry offset.toNat) (dynamicColor offset.toNat data.toNat)) :=
  hostOp_idle _ hidle

/-- Settles O43: the operation writes one entry, and the colour's fields are those of the composite's number. -/
theorem paletteWriteStoresColor : Obligations.PaletteWriteStoresColor := by
  intro s offset data hidle
  rw [exec_paletteWrite hidle]
  refine ⟨fun hoffset hdata0 hdata => ?stored, fun hbad => if_pos (by omega)⟩
  have hbyte : data.toNat ≤ 255 := by omega
  refine ⟨_, dynamicColor offset.toNat data.toNat, if_neg (by omega), rfl, ?entry, fun m hm => ?other,
    toNat_dynamicComponent hbyte 7, toNat_dynamicComponent hbyte 5, toNat_dynamicComponent hbyte 3⟩
  case entry => exact (s.palette_writePal ..).trans (if_pos rfl)
  case other => exact (s.palette_writePal ..).trans (if_neg (Ne.symm hm))

/-- The entry that an answered palette write leaves (R213). -/
theorem palette_of_exec_paletteWrite {s t : State} {offset data : Int} (h : exec (.paletteWrite offset data) s = .next t) :
    t.palette (paletteEntry offset.toNat) = some (dynamicColor offset.toNat data.toNat) := by
  obtain ⟨-, hwrite⟩ := hostOp_next h
  split at hwrite
  · cases hwrite
  · cases hwrite
    rw [State.palette_writePal, if_pos rfl]

/-- Settles O44: the entry left is a function of the operands. -/
theorem paletteHasNoHiddenState : Obligations.PaletteHasNoHiddenState :=
  fun _ _ _ _ _ _ h h' => (palette_of_exec_paletteWrite h).trans (palette_of_exec_paletteWrite h').symm

/-! ### PALETTE_COLOR -/

theorem readPalette_of_outside {s : State} {index : Int} (h : index < 0 ∨ index > 95) :
    readPalette index s = .refused .badIndex :=
  if_pos h

theorem readPalette_of_value {s : State} {index : Int} {color : Rgb} (hindex : 0 ≤ index ∧ index ≤ 95)
    (h : s.palette index.toNat = some color) : readPalette index s = .next (.color color) := by
  rw [readPalette, if_neg (by omega), h]

theorem readPalette_of_unwritten {s : State} {index : Int} (hindex : 0 ≤ index ∧ index ≤ 95)
    (h : s.palette index.toNat = none) : readPalette index s = .fault (.unwrittenPalette index.toNat) := by
  rw [readPalette, if_neg (by omega), h]

theorem exec_paletteColor {s : State} (hidle : s.pass = none) (index : Int) :
    exec (.paletteColor index) s = returnValue s (readPalette index s) :=
  hostOp_idle _ hidle

/-- Settles O45: the operation refuses, observes or records what reading the entry answers. -/
theorem paletteColorReturnsEntry : Obligations.PaletteColorReturnsEntry := by
  intro s index hidle
  rw [exec_paletteColor hidle]
  refine ⟨fun hout => ?outside, fun color hlow hhigh hvalue => ?value, fun hlow hhigh hnone => ?unwritten⟩
  case outside => rw [readPalette_of_outside hout]; rfl
  case value => rw [readPalette_of_value ⟨hlow, hhigh⟩ hvalue]; rfl
  case unwritten =>
    rw [readPalette_of_unwritten ⟨hlow, hhigh⟩ hnone, ← State.raise_of_idle hidle]
    rfl

end Sys2Proof.Machine
end

section
/-! SUPPORT. The scanline compositor: a pixel and a row under the overlay, and what the operation answers for each outcome
of the scanline read (R230 to R237). -/

namespace Sys2Proof.Machine

open Sys2Proof.Claims

/-! ### A pixel under the overlay -/

/-- The tile code is the cell's low six bits (R232). -/
theorem cellCode_eq_setWidth (cell : Byte) : cellCode cell = cell.setWidth 6 :=
  BitVec.eq_of_toNat_eq (by simp [cellCode])

/-- The default bank bits as a number (R233). -/
theorem toNat_defaultAlphaBank (a : Byte) : (defaultAlphaBank a).toNat = a.toNat % 2 * 4 := by
  have hbit : (a &&& 1#8).toNat = a.toNat % 2 := (BitVec.toNat_and ..).trans (Nat.and_one_is_mod _)
  rw [defaultAlphaBank, BitVec.toNat_shiftLeft, hbit, Nat.shiftLeft_eq]
  omega

/-- The colour of a cell as a number (R232, R233). -/
theorem toNat_cellColor (a cell : Byte) : (cellColor params a cell).toNat = cell.toNat / 64 ||| a.toNat % 2 * 4 := by
  have hbank : (params.alphaBank a).toNat = a.toNat % 2 * 4 := toNat_defaultAlphaBank a
  rw [cellColor, BitVec.toNat_or, BitVec.toNat_ushiftRight, Nat.shiftRight_eq_div_pow, hbank]

/-- The default tile output is reduced to a byte (R235). -/
theorem defaultTileOut_eq_ofNat (color : Byte) (pen : BitVec 2) :
    defaultTileOut color pen = BitVec.ofNat 8 (64 + 4 * color.toNat + pen.toNat) := by
  rw [defaultTileOut, BitVec.ofNat_add, BitVec.ofNat_add, BitVec.ofNat_mul, BitVec.ofNat_toNat, BitVec.ofNat_toNat,
    BitVec.setWidth_eq]

/-- The three low bits of a coordinate are its place in the tile (R231). -/
theorem ofNat_three_mod_eight (n : Nat) : BitVec.ofNat 3 (n % 8) = BitVec.ofNat 3 n :=
  BitVec.eq_of_toNat_eq (by simp)

/-- The machine's overlay of a pixel by its own cell is the composited pixel (R230 to R235). -/
theorem overlayPixel_eq_compositePixel (s : State) (a canvas : Byte) (y x : Nat) :
    overlayPixel params a (s.vram (cellIndex y x)) canvas y x = compositePixel s a y x canvas := by
  have hout (cell : Byte) (pen : BitVec 2) : params.tileOut (cellColor params a cell) pen =
      BitVec.ofNat 8 (64 + 4 * (cell.toNat / 64 ||| a.toNat % 2 * 4) + pen.toNat) := by
    rw [← toNat_cellColor]
    exact defaultTileOut_eq_ofNat _ pen
  simp only [overlayPixel, compositePixel, ofNat_three_mod_eight, cellCode_eq_setWidth, hout, ite_not]
  rfl

/-! ### A row under the overlay -/

@[simp] theorem length_overlayFrom (P : Params) (s : State) (a : Byte) (y x : Nat) (row : List Byte) :
    (overlayFrom P s a y x row).length = row.length := by
  induction row generalizing x with
  | nil => rfl
  | cons canvas row ih => exact congrArg (· + 1) (ih (x + 1))

/-- Each byte of the row is overlaid in its own column (R230). -/
theorem getElem_overlayFrom {P : Params} {s : State} {a : Byte} {y x k : Nat} {row : List Byte} (hk : k < row.length) :
    (overlayFrom P s a y x row)[k]'(by simpa using hk) =
      overlayPixel P a (s.vram (cellIndex y (x + k))) row[k] y (x + k) := by
  induction row generalizing x k with
  | nil => cases hk
  | cons canvas row ih =>
    cases k with
    | zero => rfl
    | succ k =>
      rw [show x + (k + 1) = x + 1 + k by omega]
      exact ih (Nat.lt_of_succ_lt_succ hk)

/-! ### COMPOSITE_SCANLINE -/

theorem exec_compositeScanline_of_refused {s : State} {y : Int} {r : Refusal} (hidle : s.pass = none)
    (h : readRow params y s = .refused r) : exec (.compositeScanline y) s = .refused r :=
  (hostOp_idle _ hidle).trans (by rw [h]; rfl)

theorem exec_compositeScanline_of_fault {s : State} {y : Int} {f : Fault} (hidle : s.pass = none)
    (h : readRow params y s = .fault f) :
    exec (.compositeScanline y) s = .next { s with faults := addFault s.faults f } := by
  rw [← State.raise_of_idle hidle]
  exact (hostOp_idle _ hidle).trans (by rw [h]; rfl)

theorem exec_compositeScanline_of_no_alphamap {s : State} {y : Int} {row : List Byte} (hidle : s.pass = none)
    (h : readRow params y s = .next row) (ha : s.alphamap = none) :
    exec (.compositeScanline y) s = .next { s with faults := addFault s.faults .alphamapUnset } := by
  rw [← State.raise_of_idle hidle]
  exact (hostOp_idle _ hidle).trans (by rw [h, ha]; rfl)

theorem exec_compositeScanline_of_row {s : State} {y : Int} {a : Byte} {row : List Byte} (hidle : s.pass = none)
    (h : readRow params y s = .next row) (ha : s.alphamap = some a) :
    exec (.compositeScanline y) s = .next (s.observe (.composite (overlayFrom params s a y.toNat 0 row))) :=
  (hostOp_idle _ hidle).trans (by rw [h, ha]; rfl)

/-- Settles O46: the row observed is the display row, overlaid pixel by pixel. -/
theorem compositeScanlineOverlays : Obligations.CompositeScanlineOverlays := by
  intro s y v a row hidle hy hv ha hrow
  have hread : readRow params y s = .next row := readRow_of_rowIs (by omega) hv hrow
  refine ⟨overlayFrom params s a y 0 row, exec_compositeScanline_of_row hidle hread ha,
    (length_overlayFrom ..).trans hrow.1, fun x _ hx => ?_⟩
  rw [getElem_overlayFrom hx, Nat.zero_add, overlayPixel_eq_compositePixel]

/-- Settles O47: a scanline read that stops ends the operation, and a row that it gives needs an alphamap. -/
theorem compositeScanlineStops : Obligations.CompositeScanlineStops := by
  intro s y hidle
  refine ⟨fun hy => ?outside, fun hy0 hy hv => ?noBufsel, fun v x hy0 hy hv hfirst => ?unwritten,
    fun v row hy0 hy hv hrow ha => ?noAlphamap⟩
  case outside => exact exec_compositeScanline_of_refused hidle (readRow_of_outside hy)
  case noBufsel => exact exec_compositeScanline_of_fault hidle (readRow_of_no_bufsel ⟨hy0, hy⟩ hv)
  case unwritten => exact exec_compositeScanline_of_fault hidle (readRow_of_firstUnwritten ⟨hy0, hy⟩ hv hfirst)
  case noAlphamap =>
    exact exec_compositeScanline_of_no_alphamap hidle (readRow_of_rowIs ⟨hy0, hy⟩ hv hrow) ha

end Sys2Proof.Machine
end

section
/-! SUPPORT. The host interface: a stop of every host operation inside a pass (R255), what each host write stores (R250 to
R253), the one fault of a pass (R274), and what the operations of a clean start leave for the rest of a run (R258). -/

namespace Sys2Proof.Machine

/-! ### Host operations inside a pass -/

theorem hostOp_busy {s : State} {q : Pass} (k : Result) (h : s.pass = some q) :
    hostOp s k = .refused .passInProgress := by
  rw [hostOp, h]

/-- Every host operation, TRIGGER_RUN too, looks for a pass in progress before anything else (R255). -/
theorem exec_eq_hostOp {i : Instr} (hc : i.context = none) (s : State) : ∃ k, exec i s = hostOp s k := by
  cases i
  case triggerRun | clearBuffer | setClip | renderedScanline | buildStaticPalette | paletteWrite | paletteColor |
    compositeScanline | hostWriteCmd | hostWriteVram | hostSetBufsel | hostSetAlphamap => exact ⟨_, rfl⟩
  all_goals cases hc

/-- Settles O56: the test for a pass in progress stands before every meaning of a host operation. -/
theorem noHostMoveInsidePass : Obligations.NoHostMoveInsidePass := by
  intro i s q hc hq
  obtain ⟨k, hk⟩ := exec_eq_hostOp hc s
  rw [hk, hostOp_busy k hq]

/-! ### The host writes -/

/-- An operand that fits a word is the word's number. -/
theorem toNat_ofInt_of_fits {n : Nat} {v : Int} (hlo : 0 ≤ v) (hhi : v < 2 ^ n) :
    ((BitVec.ofInt n v).toNat : Int) = v := by
  rw [BitVec.toNat_ofInt, Nat.cast_pow, Nat.cast_ofNat, Int.emod_eq_of_lt hlo hhi, Int.toNat_of_nonneg hlo]

theorem State.cmdWord_writeCmd (s : State) (i k : Nat) (w : Word) :
    (s.writeCmd i w).cmdWord k = if i = k then w else s.cmdWord k := Store.read_write ..

theorem State.vram_writeVram (s : State) (i k : Nat) (b : Byte) :
    (s.writeVram i b).vram k = if i = k then b else s.vram k := Store.read_write ..

theorem exec_hostWriteCmd {s : State} (hidle : s.pass = none) (i w : Int) :
    exec (.hostWriteCmd i w) s =
      if i < 0 ∨ i > 2047 ∨ w < 0 ∨ w > 0xFFFF then .refused .badOperand
      else .next (s.writeCmd i.toNat (BitVec.ofInt 16 w)) :=
  hostOp_idle _ hidle

theorem exec_hostWriteVram {s : State} (hidle : s.pass = none) (i b : Int) :
    exec (.hostWriteVram i b) s =
      if i < 0 ∨ i > 1023 ∨ b < 0 ∨ b > 0xFF then .refused .badOperand
      else .next (s.writeVram i.toNat (BitVec.ofInt 8 b)) :=
  hostOp_idle _ hidle

theorem exec_hostSetBufsel {s : State} (hidle : s.pass = none) (v : Int) :
    exec (.hostSetBufsel v) s =
      if v = 0 ∨ v = 1 then .next (s.setBufsel (BitVec.ofInt 1 v)) else .refused .badOperand :=
  hostOp_idle _ hidle

theorem exec_hostSetAlphamap {s : State} (hidle : s.pass = none) (v : Int) :
    exec (.hostSetAlphamap v) s =
      if v < 0 ∨ v > 0xFF then .refused .badOperand else .next (s.setAlphamap (BitVec.ofInt 8 v)) :=
  hostOp_idle _ hidle

/-- Settles O48: the operation is one write of the store, of a word that fits. -/
theorem hostWriteCmdStoresWord : Obligations.HostWriteCmdStoresWord := by
  intro s i w hidle
  rw [exec_hostWriteCmd hidle]
  refine ⟨fun hi0 hi hw0 hw => ⟨_, if_neg (by omega), rfl, ?stored, fun k hk => ?other⟩, fun hbad => if_pos hbad⟩
  case stored => rw [State.cmdWord_writeCmd, if_pos rfl, toNat_ofInt_of_fits hw0 (by omega)]
  case other => rw [State.cmdWord_writeCmd, if_neg (Ne.symm hk)]

/-- Settles O49: the operation is one write of the store, of a byte that fits. -/
theorem hostWriteVramStoresByte : Obligations.HostWriteVramStoresByte := by
  intro s i b hidle
  rw [exec_hostWriteVram hidle]
  refine ⟨fun hi0 hi hb0 hb => ⟨_, if_neg (by omega), rfl, ?stored, fun k hk => ?other⟩, fun hbad => if_pos hbad⟩
  case stored => rw [State.vram_writeVram, if_pos rfl, toNat_ofInt_of_fits hb0 (by omega)]
  case other => rw [State.vram_writeVram, if_neg (Ne.symm hk)]

/-- Settles O50, by the two values that the operation accepts. -/
theorem hostSetBufselStoresBit : Obligations.HostSetBufselStoresBit := by
  intro s v hidle
  rw [exec_hostSetBufsel hidle]
  refine ⟨fun hv => ?zero, fun hv => ?one, fun h0 h1 => if_neg (not_or.2 ⟨h0, h1⟩)⟩
  case zero => subst hv; rfl
  case one => subst hv; rfl

/-- Settles O51: a byte that fits is stored as it is, and the bank bits are four times its lowest bit. -/
theorem hostSetAlphamapStoresByte : Obligations.HostSetAlphamapStoresByte := by
  intro s v hidle
  rw [exec_hostSetAlphamap hidle]
  refine ⟨fun hv0 hv => ?stored, fun hbad => if_pos hbad⟩
  have hbyte : ((BitVec.ofInt 8 v).toNat : Int) = v := toNat_ofInt_of_fits hv0 (by omega)
  refine ⟨BitVec.ofInt 8 v, hbyte, if_neg (by omega), BitVec.eq_of_toNat_eq ?_⟩
  have hbank : (params.alphaBank (BitVec.ofInt 8 v)).toNat = (BitVec.ofInt 8 v).toNat % 2 * 4 := toNat_defaultAlphaBank _
  rw [hbank]
  split
  · change _ = 4
    omega
  · change _ = 0
    omega

/-! ### The faults of a pass -/

/-- The fault set is as in s, or one reason has been added to it and the pass has ended. -/
def FaultsOnce (s t : State) : Prop :=
  t.faults = s.faults ∨ t.pass = none ∧ ∃ f, t.faults = addFault s.faults f

/-- A move of a pass adds a reason only where it ends the pass (R109). -/
theorem PassMove.faultsOnce {P : Params} {s t : State} {q : Pass} (hm : PassMove P s q t) : FaultsOnce s t := by
  rcases hm with rfl | ⟨q', rfl, -, -⟩ | ⟨f, rfl⟩ | ⟨c, k, l, next, -, rfl⟩
  case inr.inr.inl => exact .inr ⟨rfl, f, rfl⟩
  all_goals exact .inl (by simp)

/-- A pass that is still in progress has recorded no fault, so its next move is the first that can (R109). -/
theorem FaultsOnce.move {P : Params} {r s t : State} {q : Pass} (h : FaultsOnce r s) (hq : s.pass = some q)
    (hm : PassMove P s q t) : FaultsOnce r t := by
  rcases h with hsame | ⟨hended, -⟩
  · simpa only [FaultsOnce, hsame] using hm.faultsOnce
  · cases hq.symm.trans hended

theorem triggerRun_faultsOnce {P : Params} {s t : State} (h : triggerRun P s = .next t) : FaultsOnce s t := by
  obtain ⟨-, ⟨-, rfl⟩ | ⟨v, -, hrun⟩⟩ := triggerRun_next h
  · exact .inr ⟨rfl, .bufselUnset, rfl⟩
  · refine runPass_induct_move (M := FaultsOnce s) (fun _ _ _ => FaultsOnce.move) ?_ hrun
    exact .inl rfl

/-- Settles O35: a fault ends the pass that records it. -/
theorem passRecordsOneFault : Obligations.PassRecordsOneFault :=
  fun _ _ h => (triggerRun_faultsOnce h).imp_right And.right

/-! ### What a clean start leaves -/

theorem exec_setClip_clip {s t : State} {xmin ymin xmax ymax : Int} (h : exec (.setClip xmin ymin xmax ymax) s = .next t) :
    t.clip.isSome = true := by
  obtain ⟨-, hset⟩ := hostOp_next h
  split at hset
  · cases hset; rfl
  · cases hset

/-- A clip rectangle that is set stays set: only SET_CLIP writes it (R196). -/
theorem exec_keeps_clip {i : Instr} {s t : State} (hs : s.clip.isSome = true) (h : exec i s = .next t) :
    t.clip.isSome = true := by
  obtain ⟨-, -, -, hsame | ⟨_, _, _, _, rfl⟩, -, -⟩ := oneWriterPerRegister i s t h
  · rw [hsame]; exact hs
  · exact exec_setClip_clip h

/-- Each static entry holds the colour of its PROM byte (R210, R212). -/
def State.staticBuilt (s : State) : Prop :=
  ∀ i, i < 32 → s.palette (staticIndex i) = some (staticColor (s.prom i))

theorem State.prom_of_exec {i : Instr} {s t : State} (h : exec i s = .next t) (k : Nat) : t.prom k = s.prom k := by
  rw [State.prom, State.prom, (oneWriterPerRegister i s t h).1]

theorem exec_buildStaticPalette_staticBuilt {s t : State} (h : exec .buildStaticPalette s = .next t) : t.staticBuilt := by
  intro k hk
  rw [State.prom_of_exec h]
  cases (exec_buildStaticPalette (hostOp_next h).1).symm.trans h
  exact buildStaticEntries_mem (List.mem_range.2 hk) s

/-- Built static entries stay built: only BUILD_STATIC_PALETTE writes them, and nothing writes the PROM (R29, R30). -/
theorem exec_keeps_staticBuilt {i : Instr} {s t : State} (hs : s.staticBuilt) (h : exec i s = .next t) :
    t.staticBuilt := by
  by_cases hi : i = .buildStaticPalette
  · subst hi; exact exec_buildStaticPalette_staticBuilt h
  · intro k hk
    have hentry := (paletteWritersAreSeparate i s t _ h).1 (staticIndex_range hk).1
    rw [hentry.resolve_right hi, State.prom_of_exec h]
    exact hs k hk

/-- Every cell of a buffer holds a value (R24). -/
def State.bufWritten (s : State) (b : BitVec 1) : Prop :=
  ∀ x y : Int, 0 ≤ x → x ≤ 255 → 0 ≤ y → y ≤ 255 → (s.cell params b x y).isSome = true

theorem State.bufWritten.rowWritten {s : State} {b : BitVec 1} (h : s.bufWritten b) {y : Int} (hy0 : 0 ≤ y)
    (hy : y ≤ 255) : s.rowWritten b y := by
  intro x hx
  rw [Config.canvasW] at hx
  exact h x y (by omega) (by omega) hy0 hy

/-- Written cells stay written where every cell that holds a value still holds one. -/
theorem State.bufWritten.mono {s t : State} {b : BitVec 1} (hs : s.bufWritten b)
    (h : ∀ x y : Int, (s.cell params b x y).isSome = true → (t.cell params b x y).isSome = true) : t.bufWritten b :=
  fun x y hx0 hx hy0 hy => h x y (hs x y hx0 hx hy0 hy)

theorem State.bufWritten.of_buf_eq {s t : State} {b : BitVec 1} (hs : s.bufWritten b) (h : t.buf b = s.buf b) :
    t.bufWritten b :=
  hs.mono fun x y hcell => by rwa [State.cell, h]

/-- A move of a pass takes no value from a cell: it draws colours or leaves the buffers (R191). -/
theorem PassMove.bufWritten {s t : State} {q : Pass} {b : BitVec 1} (hm : PassMove params s q t) (hs : s.bufWritten b) :
    t.bufWritten b := by
  rcases hm with rfl | ⟨q', rfl, -, -⟩ | ⟨f, rfl⟩ | ⟨c, k, l, next, -, rfl⟩
  case inr.inr.inr =>
    refine hs.mono fun x y hcell => ?_
    rw [State.setPass_cell, State.cell_drawOn]
    split
    · rfl
    · exact hcell
  all_goals exact hs.of_buf_eq rfl

theorem triggerRun_bufWritten {s t : State} {b : BitVec 1} (hs : s.bufWritten b) (h : triggerRun params s = .next t) :
    t.bufWritten b := by
  obtain ⟨-, ⟨-, rfl⟩ | ⟨v, -, hrun⟩⟩ := triggerRun_next h
  · exact hs.of_buf_eq rfl
  · refine runPass_induct_move (M := (·.bufWritten b)) (fun _ _ _ ha _ hm => hm.bufWritten ha) ?_ hrun
    exact hs.of_buf_eq rfl

theorem exec_clearBuffer_bufWritten {s t : State} {b : BitVec 1} (h : exec (.clearBuffer b.toNat) s = .next t) :
    t.bufWritten b := by
  have hwhich : (b.toNat : Int) = 0 ∨ (b.toNat : Int) = 1 := by omega
  obtain ⟨u, hu, hzero, -⟩ := (clearBufferZeroFills s b.toNat (hostOp_next h).1).1 hwhich
  cases hu.symm.trans h
  rw [BitVec.ofInt_natCast, BitVec.ofNat_toNat, BitVec.setWidth_eq] at hzero
  intro x y hx0 hx hy0 hy
  rw [hzero x y hx0 hx hy0 hy, Option.isSome_some]

/-- A buffer whose cells all hold values keeps that: a pass only draws, and of the host operations only a clear writes
cells (R190, R197). -/
theorem exec_keeps_bufWritten {i : Instr} {s t : State} {b : BitVec 1} (hs : s.bufWritten b) (h : exec i s = .next t) :
    t.bufWritten b := by
  rcases exec_cases h with ⟨-, q, -, -, hm⟩ | ⟨-, hrun⟩ | ⟨-, -, hm⟩
  · exact hm.bufWritten hs
  · exact triggerRun_bufWritten hs hrun
  · by_cases hb : t.buf b = s.buf b
    · exact hs.of_buf_eq hb
    · obtain ⟨-, rfl⟩ := hm.buf hb
      exact exec_clearBuffer_bufWritten h

/-- Settles O60: SET_CLIP, BUILD_STATIC_PALETTE and the two clears each establish what is claimed, and every operation
keeps it. -/
theorem cleanStartGivesReads : Obligations.CleanStartGivesReads := by
  intro reads ops t hclean
  obtain ⟨⟨s, -, hrun⟩, -, ⟨xmin, ymin, xmax, ymax, hclip⟩, hbuild, hclear, -, -, -⟩ := hclean
  refine ⟨?clip, fun hstatic => ?static, fun hrows b y hy0 hy => ?rows⟩
  case clip =>
    exact runOps_made (M := (·.clip.isSome = true)) hclip (fun _ _ => exec_setClip_clip)
      (fun _ _ _ _ => exec_keeps_clip) hrun
  case static =>
    exact runOps_made (M := State.staticBuilt) (hbuild hstatic) (fun _ _ => exec_buildStaticPalette_staticBuilt)
      (fun _ _ _ _ => exec_keeps_staticBuilt) hrun
  case rows =>
    have hcleared : .clearBuffer b.toNat ∈ ops := by
      rcases index_cases b with rfl | rfl
      · exact (hclear hrows).1
      · exact (hclear hrows).2
    have hwritten : t.bufWritten b := runOps_made hcleared (fun _ _ => exec_clearBuffer_bufWritten)
      (fun _ _ _ _ => exec_keeps_bufWritten) hrun
    exact hwritten.rowWritten hy0 hy

end Sys2Proof.Machine
end
